-- ==== Sys2Proof/Word.lean ====
section
/-! DEFINITION. The two word types of the engine: framebuffer and wire bytes, and host command words. -/

namespace Sys2Proof

/-- A framebuffer byte or a wire byte (20_memory R50, R57). -/
abbrev Byte := BitVec 8

/-- A host command word, a cursor register or a glyph row (30_encoding R80, 10_state R23, 20_memory R55). -/
abbrev Word := BitVec 16

end Sys2Proof
end

