-- ==== Sys2Proof/Config.lean ====
section
/-! DEFINITION. The implementation parameters of 00_scope R6 to R9: the fixed ones as constants, the others as one record
of plain data, and the free values that stand for the OPEN ones. -/

namespace Sys2Proof

/-- Panel columns (00_scope R6). -/
@[simp] abbrev WIDTH : Nat := 128

/-- Panel rows (00_scope R6). -/
@[simp] abbrev HEIGHT : Nat := 64

/-- `HEIGHT / 8` (00_scope R7). -/
@[simp] abbrev PAGES : Nat := 8

/-- `WIDTH * HEIGHT / 8` (00_scope R7). -/
@[simp] abbrev FB_BYTES : Nat := 1024

/-- The longest string, in characters (00_scope R8, 92 D24). -/
@[simp] abbrev MAXSTR : Nat := 255

/-- The default number of fonts (00_scope R8, 92 D27). -/
@[simp] abbrev NFONTS : Nat := 3

/-- First byte of a command frame (00_scope R8, 30_encoding R93). -/
def CMD_PREFIX : Byte := 0x00

/-- First byte of a data frame (00_scope R8, 30_encoding R93). -/
def DATA_PREFIX : Byte := 0x40

/-- The two edge tests of PutChar (00_scope R8 `PUTC_FIT`, 92 D20). -/
inductive PutcFit where
  | cursorEdge
  | glyphFit
  deriving DecidableEq, Repr

/-- A font: the descriptor `(fw, fh, amin, amax)` and the glyph rows `FONT_DATA[f]` (00_scope R8, 43_text R181). The row
table holds exactly `(amax - amin + 1) * fh` rows by its type, so a table of the wrong size, which 00_scope R9 and
60_exceptions R268 refuse, cannot be written down. -/
structure Font where
  fw : Nat
  fh : Nat
  amin : Nat
  amax : Nat
  rows : Vector Word ((amax - amin + 1) * fh)
  deriving DecidableEq, Repr

/-- The parameters a model takes as arguments (00_scope R8). Constant during a run (70_reset_and_hazards R282). -/
structure Config where
  /-- `FONTS` with `FONT_DATA`; `NFONTS` is the length. -/
  fonts : List Font
  /-- `INIT_CMDS` (30_encoding R96). -/
  initCmds : List Byte
  /-- `PAGE_CMD` (30_encoding R95). -/
  pageCmd : Byte
  /-- `COL_LO_CMD` (30_encoding R95). -/
  colLoCmd : Byte
  /-- `COL_HI_CMD` (30_encoding R95). -/
  colHiCmd : Byte
  /-- `SETTLE_MS`, OPEN (92 D18). -/
  settleMs : Nat
  /-- `PUTC_FIT` (92 D20). -/
  putcFit : PutcFit
  /-- `FB_RESET`, OPEN: any 1024 bytes (92 D28). -/
  fbReset : Vector Byte FB_BYTES
  deriving DecidableEq, Repr

/-- A font descriptor is well-formed (00_scope R9). -/
def Font.wf (ft : Font) : Bool :=
  decide (1 ≤ ft.fw) && decide (ft.fw ≤ 16) && decide (1 ≤ ft.fh) && decide (ft.amin ≤ ft.amax)
    && decide (ft.amax ≤ 255)

/-- A configuration the model has a meaning for: every font well-formed (00_scope R9) and a positive settle delay
(92 D18). -/
def Config.wf (c : Config) : Bool := c.fonts.all Font.wf && decide (1 ≤ c.settleMs)

/-- `NFONTS` of a configuration. -/
def Config.nfonts (c : Config) : Nat := c.fonts.length

/-- FREE VALUE: glyph row `k` of font `f`, `FONT_DATA` being OPEN (00_scope R8, 93 U4; log 3). -/
opaque Config.freeFontRow (f k : Nat) : Word

/-- FREE VALUE: byte `a` of `FB_RESET`, which is OPEN (00_scope R8, 93 U3; log 2). -/
opaque Config.freeFbByte (a : Nat) : Byte

/-- FREE VALUE: one less than `SETTLE_MS`, which is OPEN and positive (00_scope R8, 93 U5; log 4). -/
opaque Config.freeSettleMs : Nat

/-- FREE VALUE: the transport's answer to the `n`-th request, once the answers listed in the state are used up; any
answer is possible at every request (60_exceptions R266, 93 U9; log 5). -/
opaque Config.freeAnswer (n : Nat) : Bool

/-- FREE VALUE: what `RAUX` holds after MEASURE on a font whose height `fh` is no 16-bit value, for which the spec states
no result (00_scope R9 bounds no height, 43_text R185; log 19). -/
opaque Config.freeHeight (fh : Nat) : Word

/-- FREE VALUE: what `RVAL` holds after `n` dropped frames when `n` is no 32-bit value, for which the spec states no result
(00_scope R8 bounds no `INIT_CMDS`, 44_sync R221; log 20). -/
opaque Config.freeDropCount (n : Nat) : BitVec 32

/-- `INIT_CMDS` by default (30_encoding R96). -/
def Config.defaultInitCmds : List Byte :=
  [0xAE, 0x20, 0x10, 0xB0, 0xC8, 0x00, 0x10, 0x40, 0x81, 0xFF, 0xA1, 0xA6, 0xA8, 0x3F,
   0xA4, 0xD3, 0x00, 0xD5, 0xF0, 0xD9, 0x22, 0xDA, 0x12, 0xDB, 0x20, 0x8D, 0x14, 0xAF]

/-- The table of the values `g` takes on `0 .. n - 1`. -/
def table {α : Type} (n : Nat) (g : Nat → α) : Vector α n :=
  ⟨⟨(List.range n).map g⟩, by simp⟩

/-- Font `f` of the default set with the rows that `row` gives (00_scope R8 `FONTS`, 92 D27). -/
def Config.defaultFont (row : Nat → Nat → Word) (f fw fh : Nat) : Font where
  fw := fw
  fh := fh
  amin := 32
  amax := 126
  rows := table ((126 - 32 + 1) * fh) (row f)

/-- Every parameter at its default of 00_scope R8; the OPEN ones are arguments. -/
def Config.withOpen (row : Nat → Nat → Word) (settle : Nat) (fbByte : Nat → Byte) : Config where
  fonts := [Config.defaultFont row 0 7 10, Config.defaultFont row 1 11 18, Config.defaultFont row 2 16 26]
  initCmds := Config.defaultInitCmds
  pageCmd := 0xB0
  colLoCmd := 0x00
  colHiCmd := 0x10
  settleMs := settle
  putcFit := .cursorEdge
  fbReset := table FB_BYTES fbByte

/-- The configuration of the state after reset: the defaults of 00_scope R8, every OPEN parameter a free value. -/
def Config.default : Config :=
  Config.withOpen Config.freeFontRow (Config.freeSettleMs + 1) Config.freeFbByte

end Sys2Proof
end

