-- ==== Sys2Proof/Syntax.lean ====
section
/-! DEFINITION. The host commands: one constructor per row of spec/opcode_table.json, with the operands of 30_encoding R89. -/

namespace Sys2Proof

/-- `Color = (CLEAR, SET)` (00_scope R14). -/
inductive Color where
  | clear
  | set
  deriving DecidableEq, Repr

/-- A host command with its decoded operands (30_encoding R82 to R89). A font operand is the three bits `H[11:9]`; a
coordinate or signed operand is one whole word; a string is its character codes without the terminator. -/
inductive Instr where
  /-- 44_sync R221 -/
  | init
  /-- 40_framebuffer R112 -/
  | fill (c : Color)
  /-- 44_sync R222 -/
  | sync
  /-- 40_framebuffer R113 -/
  | setinv (v : Bool)
  /-- 40_framebuffer R111 -/
  | setpixel (c : Color) (x y : Word)
  /-- 41_raster R131 -/
  | line (c : Color) (x0 y0 x1 y1 : Word)
  /-- 41_raster R133 -/
  | rect (c : Color) (x y w h : Word)
  /-- 42_fill R160 -/
  | rectf (c : Color) (x y w h : Word)
  /-- 41_raster R135 -/
  | tri (c : Color) (x1 y1 x2 y2 x3 y3 : Word)
  /-- 42_fill R162 -/
  | trif (c : Color) (x1 y1 x2 y2 x3 y3 : Word)
  /-- 41_raster R137 -/
  | circ (c : Color) (x0 y0 r : Word)
  /-- 42_fill R165 -/
  | circf (c : Color) (x0 y0 r : Word)
  /-- 43_text R180 -/
  | gotoxy (x y : Word)
  /-- 43_text R183 -/
  | putc (c : Color) (f : BitVec 3) (ch : Byte)
  /-- 43_text R184 -/
  | puts (c : Color) (f : BitVec 3) (str : List Byte)
  /-- 43_text R185 -/
  | measure (f : BitVec 3) (str : List Byte)
  /-- 40_framebuffer R114 -/
  | rdpix (x y : Word)
  /-- 40_framebuffer R115 -/
  | rdbyte (a : Word)
  /-- 44_sync R225 -/
  | rdstate
  deriving DecidableEq, Repr

end Sys2Proof
end

