-- ==== Sys2Proof/WellFormed.lean ====
section
/-! DEFINITION. Which commands have an encoding: the font index names a font, and a string has at most `MAXSTR`
characters, none of them the terminator (30_encoding R83, R86). Every other operand takes every value of its field. -/

namespace Sys2Proof

/-- A string operand that the encoding can carry (30_encoding R86). -/
def stringOk (str : List Byte) : Bool :=
  decide (str.length ≤ MAXSTR) && str.all (fun ch => decide (ch ≠ 0))

/-- A font operand that names one of `nfonts` fonts (30_encoding R83). -/
def fontOk (nfonts : Nat) (f : BitVec 3) : Bool := decide (f.toNat < nfonts)

/-- A command that some legal word sequence encodes, on an engine with `nfonts` fonts. -/
def Instr.wellFormed (nfonts : Nat) : Instr → Bool
  | .init => true
  | .fill _ => true
  | .sync => true
  | .setinv _ => true
  | .setpixel _ _ _ => true
  | .line _ _ _ _ _ => true
  | .rect _ _ _ _ _ => true
  | .rectf _ _ _ _ _ => true
  | .tri _ _ _ _ _ _ _ => true
  | .trif _ _ _ _ _ _ _ => true
  | .circ _ _ _ _ => true
  | .circf _ _ _ _ => true
  | .gotoxy _ _ => true
  | .putc _ f _ => fontOk nfonts f
  | .puts _ f str => fontOk nfonts f && stringOk str
  | .measure f str => fontOk nfonts f && stringOk str
  | .rdpix _ _ => true
  | .rdbyte _ => true
  | .rdstate => true

end Sys2Proof
end

