-- ==== Sys2Proof/Decode.lean ====
section
/-! DEFINITION. The decoder of 30_encoding R81 to R90, total on every word sequence, and the encoder written from the
same tables. -/

namespace Sys2Proof

/-- The 19 assigned opcodes (30_encoding R88). -/
inductive Opcode where
  | init | fill | sync | setinv
  | setpixel | line | rect | rectf | tri | trif | circ | circf
  | gotoxy | putc | puts | measure
  | rdpix | rdbyte | rdstate
  deriving DecidableEq, Repr

/-- Every assigned opcode, in the order of the opcode map. -/
def Opcode.all : List Opcode :=
  [.init, .fill, .sync, .setinv, .setpixel, .line, .rect, .rectf, .tri, .trif, .circ, .circf,
   .gotoxy, .putc, .puts, .measure, .rdpix, .rdbyte, .rdstate]

/-- Column OP of the opcode map (30_encoding R88). -/
def Opcode.toByte : Opcode → Byte
  | .init => 0x01
  | .fill => 0x02
  | .sync => 0x03
  | .setinv => 0x04
  | .setpixel => 0x10
  | .line => 0x11
  | .rect => 0x12
  | .rectf => 0x13
  | .tri => 0x14
  | .trif => 0x15
  | .circ => 0x16
  | .circf => 0x17
  | .gotoxy => 0x20
  | .putc => 0x21
  | .puts => 0x22
  | .measure => 0x23
  | .rdpix => 0x30
  | .rdbyte => 0x31
  | .rdstate => 0x32

/-- The opcode a byte names; none for the unassigned ones (30_encoding R88). -/
def Opcode.ofByte? (b : Byte) : Option Opcode := Opcode.all.find? (fun op => decide (op.toByte = b))

/-- Column colour of the opcode map; `SETINV` carries its value in the same bit (30_encoding R81, R88). -/
def Opcode.hasColour : Opcode → Bool
  | .init | .sync | .gotoxy | .measure | .rdpix | .rdbyte | .rdstate => false
  | .fill | .setinv | .setpixel | .line | .rect | .rectf | .tri | .trif | .circ | .circf | .putc | .puts => true

/-- Column font of the opcode map (30_encoding R88). -/
def Opcode.hasFont : Opcode → Bool
  | .putc | .puts | .measure => true
  | .init | .fill | .sync | .setinv | .setpixel | .line | .rect | .rectf | .tri | .trif | .circ | .circf
  | .gotoxy | .rdpix | .rdbyte | .rdstate => false

/-- The operand list of an opcode: so many words, one character word, or a string (30_encoding R89). -/
inductive Shape where
  | words (n : Nat)
  | character
  | string
  deriving DecidableEq, Repr

/-- 30_encoding R89. -/
def Opcode.shape : Opcode → Shape
  | .init | .fill | .sync | .setinv | .rdstate => .words 0
  | .setpixel | .gotoxy | .rdpix => .words 2
  | .line | .rect | .rectf => .words 4
  | .tri | .trif => .words 6
  | .circ | .circf => .words 3
  | .rdbyte => .words 1
  | .putc => .character
  | .puts | .measure => .string

/-- `OP = H[7:0]` (30_encoding R81). -/
def opField (h : Word) : Byte := h.extractLsb' 0 8

/-- `C = H[8]` (30_encoding R81). -/
def colourField (h : Word) : Bool := h.getLsbD 8

/-- `F = H[11:9]` (30_encoding R81). -/
def fontField (h : Word) : BitVec 3 := h.extractLsb' 9 3

/-- `RSV = H[15:12]` (30_encoding R81). -/
def rsvField (h : Word) : BitVec 4 := h.extractLsb' 12 4

/-- Bits [7:0] of a character word (30_encoding R85). -/
def charField (w : Word) : Byte := w.extractLsb' 0 8

/-- Bits [15:8] of a character word, which must be 0 (30_encoding R85). -/
def charHigh (w : Word) : Byte := w.extractLsb' 8 8

/-- The word ends a string: its low byte is 0 (30_encoding R86). -/
def isTerminator (w : Word) : Bool := decide (charField w = 0)

/-- `C` as a colour: CLEAR = 0, SET = 1 (30_encoding R82, 00_scope R14). -/
def Color.ofBit (b : Bool) : Color := if b then .set else .clear

/-- A colour as the bit `C`. -/
def Color.toBit : Color → Bool
  | .clear => false
  | .set => true

/-- String words up to and including the first terminator, or until `n` words are held; none while more words are
needed (30_encoding R87). -/
def stringWords : Nat → List Word → Option (List Word)
  | 0, _ => some []
  | _ + 1, [] => none
  | n + 1, w :: ws => if isTerminator w then some [w] else (stringWords n ws).map (w :: ·)

/-- Exactly `n` words; none while fewer have come (30_encoding R87). -/
def fixedWords : Nat → List Word → Option (List Word)
  | 0, _ => some []
  | _ + 1, [] => none
  | n + 1, w :: ws => (fixedWords n ws).map (w :: ·)

/-- The operand words of a shape at the front of what the host has sent; none while more are needed (30_encoding R87). -/
def operandWords : Shape → List Word → Option (List Word)
  | .words n, ws => fixedWords n ws
  | .character, ws => fixedWords 1 ws
  | .string, ws => stringWords (MAXSTR + 1) ws

/-- The words of a shape that are character words (30_encoding R85, R87 check 5). -/
def characterWords : Shape → List Word → List Word
  | .words _, _ => []
  | .character, args => args
  | .string, args => args

/-- Why the decoder refuses a command: an unassigned opcode, and checks 1 to 6 of 30_encoding R87 in order. -/
inductive Reject where
  | unassignedOpcode
  | reservedBits
  | strayColour
  | strayFont
  | noTerminator
  | characterHighByte
  | fontIndex
  deriving DecidableEq, Repr

/-- The first check of 30_encoding R87 that fails, if any. -/
def firstFailure (nfonts : Nat) (op : Opcode) (h : Word) (args : List Word) : Option Reject :=
  if rsvField h ≠ 0 then some .reservedBits
  else if colourField h ∧ ¬ op.hasColour then some .strayColour
  else if fontField h ≠ 0 ∧ ¬ op.hasFont then some .strayFont
  else if op.shape = .string ∧ ¬ args.any isTerminator then some .noTerminator
  else if (characterWords op.shape args).any (fun w => decide (charHigh w ≠ 0)) then some .characterHighByte
  else if op.hasFont ∧ nfonts ≤ (fontField h).toNat then some .fontIndex
  else none

/-- Operand word `n`, counted from 0 (`W1` is number 0). -/
def operand (args : List Word) (n : Nat) : Word := args.getD n 0

/-- The character codes of a string's words, without the terminator (30_encoding R86). -/
def stringOf (args : List Word) : List Byte := args.dropLast.map charField

/-- The command that a legal header and its operand words encode (30_encoding R88, R89). -/
def build (op : Opcode) (h : Word) (args : List Word) : Instr :=
  let c := Color.ofBit (colourField h)
  let f := fontField h
  let w := operand args
  match op with
  | .init => .init
  | .fill => .fill c
  | .sync => .sync
  | .setinv => .setinv (colourField h)
  | .setpixel => .setpixel c (w 0) (w 1)
  | .line => .line c (w 0) (w 1) (w 2) (w 3)
  | .rect => .rect c (w 0) (w 1) (w 2) (w 3)
  | .rectf => .rectf c (w 0) (w 1) (w 2) (w 3)
  | .tri => .tri c (w 0) (w 1) (w 2) (w 3) (w 4) (w 5)
  | .trif => .trif c (w 0) (w 1) (w 2) (w 3) (w 4) (w 5)
  | .circ => .circ c (w 0) (w 1) (w 2)
  | .circf => .circf c (w 0) (w 1) (w 2)
  | .gotoxy => .gotoxy (w 0) (w 1)
  | .putc => .putc c f (charField (w 0))
  | .puts => .puts c f (stringOf args)
  | .measure => .measure f (stringOf args)
  | .rdpix => .rdpix (w 0) (w 1)
  | .rdbyte => .rdbyte (w 0)
  | .rdstate => .rdstate

/-- What the decoder makes of the words at hand: it waits for more, refuses a command of header `h` and `n` words, or
reads a command of `n` words. -/
inductive Decoded where
  | incomplete
  | reject (why : Reject) (h : Word) (n : Nat)
  | command (i : Instr) (n : Nat)
  deriving DecidableEq, Repr

/-- The decoder of 30_encoding R87 on an engine with `nfonts` fonts. -/
def decode (nfonts : Nat) : List Word → Decoded
  | [] => .incomplete
  | h :: ws =>
    match Opcode.ofByte? (opField h) with
    | none => .reject .unassignedOpcode h 1
    | some op =>
      match operandWords op.shape ws with
      | none => .incomplete
      | some args =>
        match firstFailure nfonts op h args with
        | some why => .reject why h (1 + args.length)
        | none => .command (build op h args) (1 + args.length)

/-- The opcode of a command. -/
def Instr.opcode : Instr → Opcode
  | .init => .init
  | .fill _ => .fill
  | .sync => .sync
  | .setinv _ => .setinv
  | .setpixel _ _ _ => .setpixel
  | .line _ _ _ _ _ => .line
  | .rect _ _ _ _ _ => .rect
  | .rectf _ _ _ _ _ => .rectf
  | .tri _ _ _ _ _ _ _ => .tri
  | .trif _ _ _ _ _ _ _ => .trif
  | .circ _ _ _ _ => .circ
  | .circf _ _ _ _ => .circf
  | .gotoxy _ _ => .gotoxy
  | .putc _ _ _ => .putc
  | .puts _ _ _ => .puts
  | .measure _ _ => .measure
  | .rdpix _ _ => .rdpix
  | .rdbyte _ => .rdbyte
  | .rdstate => .rdstate

/-- The bit `C` of a command's header; 0 without a colour operand (30_encoding R81). -/
def Instr.colourBit : Instr → Bool
  | .fill c | .setpixel c _ _ | .line c _ _ _ _ | .rect c _ _ _ _ | .rectf c _ _ _ _ | .tri c _ _ _ _ _ _
  | .trif c _ _ _ _ _ _ | .circ c _ _ _ | .circf c _ _ _ | .putc c _ _ | .puts c _ _ => c.toBit
  | .setinv v => v
  | .init | .sync | .gotoxy _ _ | .measure _ _ | .rdpix _ _ | .rdbyte _ | .rdstate => false

/-- The field `F` of a command's header; 0 without a font operand (30_encoding R81). -/
def Instr.fontBits : Instr → BitVec 3
  | .putc _ f _ | .puts _ f _ | .measure f _ => f
  | .init | .fill _ | .sync | .setinv _ | .setpixel _ _ _ | .line _ _ _ _ _ | .rect _ _ _ _ _ | .rectf _ _ _ _ _
  | .tri _ _ _ _ _ _ _ | .trif _ _ _ _ _ _ _ | .circ _ _ _ _ | .circf _ _ _ _ | .gotoxy _ _ | .rdpix _ _
  | .rdbyte _ | .rdstate => 0

/-- The header word `OP | C << 8 | F << 9`, reserved bits 0 (30_encoding R81). -/
def encodeHeader (op : Byte) (c : Bool) (f : BitVec 3) : Word := 0#4 ++ f ++ BitVec.ofBool c ++ op

/-- A command's header word. -/
def Instr.header (i : Instr) : Word := encodeHeader i.opcode.toByte i.colourBit i.fontBits

/-- A character word: the code in bits [7:0], zeros above (30_encoding R85). -/
def charWord (ch : Byte) : Word := ch.setWidth 16

/-- A string's words with the terminator (30_encoding R86). -/
def stringCode (str : List Byte) : List Word := str.map charWord ++ [0]

/-- A command's operand words (30_encoding R89). -/
def Instr.operands : Instr → List Word
  | .init => []
  | .fill _ => []
  | .sync => []
  | .setinv _ => []
  | .setpixel _ x y => [x, y]
  | .line _ x0 y0 x1 y1 => [x0, y0, x1, y1]
  | .rect _ x y w h => [x, y, w, h]
  | .rectf _ x y w h => [x, y, w, h]
  | .tri _ x1 y1 x2 y2 x3 y3 => [x1, y1, x2, y2, x3, y3]
  | .trif _ x1 y1 x2 y2 x3 y3 => [x1, y1, x2, y2, x3, y3]
  | .circ _ x0 y0 r => [x0, y0, r]
  | .circf _ x0 y0 r => [x0, y0, r]
  | .gotoxy x y => [x, y]
  | .putc _ _ ch => [charWord ch]
  | .puts _ _ str => stringCode str
  | .measure _ str => stringCode str
  | .rdpix x y => [x, y]
  | .rdbyte a => [a]
  | .rdstate => []

/-- The words of a command: header first (30_encoding R80, R89). -/
def encode (i : Instr) : List Word := i.header :: i.operands

/-- The words of an instruction given as the opcode table numbers its bits (bit 0 is the least significant bit of the
first word), followed by the most zero operand words any command can take. -/
def tableWords (nbits w : Nat) : List Word :=
  (List.range ((nbits + 15) / 16)).map (fun k => BitVec.ofNat 16 ((w % 2 ^ nbits) >>> (16 * k)))
    ++ List.replicate (MAXSTR + 1) 0

/-- How many words the decoder consumes; 0 while it waits. -/
def Decoded.length : Decoded → Nat
  | .incomplete => 0
  | .reject _ _ n => n
  | .command _ n => n

/-- The command the decoder reads from a table word, on an engine with the default number of fonts. -/
def decodeTableWord (nbits w : Nat) : Option Instr :=
  match decode NFONTS (tableWords nbits w) with
  | .command i _ => some i
  | .reject _ _ _ => none
  | .incomplete => none

end Sys2Proof
end

