-- ==== Sys2Proof/Machine/State.lean ====
section
/-! DEFINITION. The machine's state as plain data (10_state R20, R32), the events of its output trace (30_encoding R97),
why a step can stop, and the state after reset (10_state R35). -/

namespace Sys2Proof.Machine

/-- The framebuffer's bytes as (address, byte) cells in canonical form: addresses strictly rising, no cell equal to what
an unlisted address reads as (log 2). -/
abbrev Memory := List Host.Cell

/-- The state machine of 44_sync R217, held in `IST` (10_state R25). -/
inductive SyncState where
  | uninitialized
  | ready
  deriving DecidableEq, Repr

/-- The status codes of 10_state R27. -/
inductive Status where
  | ok
  | illegal
  | textOverflow
  | undefinedGlyph
  | notReady
  | xferDropped
  | initFailed
  | outOfRange
  | stringTooLong
  deriving DecidableEq, Repr

/-- Kind of a frame (00_scope R13, 44_sync R211). -/
inductive FrameKind where
  | cmd
  | data
  deriving DecidableEq, Repr

/-- A transport event with the transport's answer (30_encoding R97): `true` is `ok` for SETUP and TX. -/
inductive Event where
  | setup (ok : Bool)
  | delay (ms : Nat)
  | probe (ready : Bool)
  | tx (kind : FrameKind) (bytes : List Byte) (ok : Bool)
  deriving DecidableEq, Repr

/-- The execution phase (10_state R32). -/
inductive Phase where
  | idle
  | collect
  | exec
  deriving DecidableEq, Repr

/-- The whole machine. The first eight fields are the architectural state of 10_state R20; `held` is the decoder's part of
the phase (R31, R32). The others are the model's own: the host's command words and the index into them (R22), the
transport's answers (60_exceptions R266), the output trace (30_encoding R97) and the constant parameters (00_scope R8). -/
structure State where
  /-- `FB` (10_state R30). -/
  fb : Memory
  /-- `CX` (10_state R23). -/
  cx : Word
  /-- `CY` (10_state R23). -/
  cy : Word
  /-- `INV` (10_state R24). -/
  inv : Bool
  /-- `IST` (10_state R25). -/
  ist : SyncState
  /-- `RSTATUS` (10_state R26, R27). -/
  rstatus : Byte
  /-- `RVAL` (10_state R26, R28). -/
  rval : BitVec 32
  /-- `RAUX` (10_state R26, R28). -/
  raux : Word
  /-- The words of an incomplete command (10_state R31, R32). -/
  held : List Word
  /-- The words the host sends, in order (10_state R22; log 7). -/
  text : List Word
  /-- How many words of `text` the engine has accepted (10_state R22; log 7). -/
  index : Nat
  /-- Transport answers still to be drawn, first one next (60_exceptions R266; log 5). -/
  answers : List Bool
  /-- How many answers have been drawn (log 5). -/
  draws : Nat
  /-- Every transport event so far, oldest first (30_encoding R97; log 10). -/
  trace : List Event
  /-- The parameters (00_scope R8, 70_reset_and_hazards R282; log 1). -/
  cfg : Config
  deriving DecidableEq, Repr

/-- The engine has no fault state (60_exceptions R268), so no step faults: this type has no constructor. -/
inductive Fault where
  deriving DecidableEq, Repr

/-- Why a step is refused. -/
inductive Refusal where
  /-- An instruction without a meaning yet, raised by an arm of `exec`; safe. No arm raises it. -/
  | notModelled (mnemonic : String)
  /-- The configuration breaks 00_scope R9 or 92 D18, raised by `step` in every state that holds such a
  configuration (60_exceptions R268: refused for the whole run); safe. -/
  | malformedConfiguration
  deriving DecidableEq, Repr

/-- The state right after reset (10_state R35): `FB` reads as `FB_RESET`, registers 0, Uninitialized, IDLE with no words
held. The host has sent nothing, the transport has answered nothing, and the trace is empty (log 5, 7, 10). -/
def State.reset : State where
  fb := []
  cx := 0
  cy := 0
  inv := false
  ist := .uninitialized
  rstatus := 0
  rval := 0
  raux := 0
  held := []
  text := []
  index := 0
  answers := []
  draws := 0
  trace := []
  cfg := Config.default

end Sys2Proof.Machine
end

