-- ==== Sys2Proof/Machine/Flags.lean ====
section
/-! DEFINITION. The engine's only flags (10_state R29): `INV` and its effect on a colour, `IST` as a bit, and the status
code that every command writes. There are no condition codes. -/

namespace Sys2Proof.Machine

/-- `NOT c` (00_scope R14). -/
def notColour : Color → Color
  | .clear => .set
  | .set => .clear

/-- The effective colour `c XOR INV` (00_scope R14, R16; 40_framebuffer R110). -/
def effective (c : Color) (inv : Bool) : Color := if inv then notColour c else c

/-- A colour as a stored bit: SET is 1 (20_memory R51). -/
def colourBit : Color → Bool
  | .clear => false
  | .set => true

/-- `IST` as its bit: Uninitialized 0, Ready 1 (10_state R25). -/
def istBit : SyncState → Bool
  | .uninitialized => false
  | .ready => true

/-- The codes of 10_state R27. -/
def statusCode : Status → Byte
  | .ok => 0x00
  | .illegal => 0x01
  | .textOverflow => 0x02
  | .undefinedGlyph => 0x03
  | .notReady => 0x04
  | .xferDropped => 0x05
  | .initFailed => 0x06
  | .outOfRange => 0x07
  | .stringTooLong => 0x08

/-- `finish(S, v, a)`: end the command by writing all three result registers (00_scope R12, 10_state R26). -/
def finish (st : Status) (v : BitVec 32) (a : Word) (s : State) : State :=
  { s with rstatus := statusCode st, rval := v, raux := a }

/-- `raise S(v)`: end the command with `finish(S, v, 0)`, undoing nothing (00_scope R12). This is the engine's whole
failure mechanism: a failure saves nothing and goes nowhere (60_exceptions R257, R258). -/
def raise (st : Status) (v : BitVec 32) (s : State) : State := finish st v 0 s

end Sys2Proof.Machine
end

