-- ==== Sys2Proof/Machine/Operands.lean ====
section
/-! DEFINITION. Operand forms: the width conversions of 00_scope R10 and R11, the clamp of 41_raster R130, the clip of
41_raster R133, and the font an index names. -/

namespace Sys2Proof.Machine

/-- `u16`, and `s16` as bits: an exact integer reduced to 16 bits (00_scope R11). -/
def wrap16 (v : Int) : Word := BitVec.ofInt 16 v

/-- `sext_16`: a word read as two's complement (00_scope R11, 30_encoding R84). -/
def signed (w : Word) : Int := w.toInt

/-- `zext_16`: a word read as unsigned (00_scope R11, 30_encoding R84). -/
def coord (w : Word) : Nat := w.toNat

/-- `tdiv(v, 2)` of a 16-bit signed value: division truncating toward zero (00_scope R10, 92 D6). -/
def half16 (w : Word) : Word := wrap16 ((signed w).tdiv 2)

/-- A coordinate of a line clamped to the largest valid index below `bound` (41_raster R130). -/
def clampTo (bound : Nat) (w : Word) : Nat := if bound ≤ coord w then bound - 1 else coord w

/-- The far edge of a rectangle's side: `x + w`, saturated at `bound` (41_raster R133, 42_fill R160). -/
def farEdge (bound x w : Nat) : Nat := if bound ≤ x + w then bound else x + w

/-- The font that `F` names; none when `F >= NFONTS`, which the decoder refuses (30_encoding R83, R87 check 6). -/
def fontAt (s : State) (f : BitVec 3) : Option Font := s.cfg.fonts[f.toNat]?

/-- `FontRead(f, k)`: row `k` of a font's table (00_scope R12). A well-formed font has every row a glyph needs
(20_memory R56); the 0 past the table's end is never read (log 12). -/
def fontRow (ft : Font) (k : Nat) : Word := ft.rows[k]?.getD 0

/-- Row `i` of the glyph of character `ch` (43_text R181). -/
def glyphRow (ft : Font) (ch i : Nat) : Word := fontRow ft ((ch - ft.amin) * ft.fh + i)

/-- Column `j` of a glyph row is bit `15 - j` (20_memory R55). -/
def glyphBit (row : Word) (j : Nat) : Bool := row.getLsbD (15 - j)

end Sys2Proof.Machine
end

