-- ==== Sys2Proof/Machine/Ops.lean ====
section
/-! DEFINITION. The named operations: the framebuffer's cells, the one pixel-write primitive, the transport primitives,
the host command port and the host's moves. The engine has no exceptions to take or to return from (60_exceptions R256 to
R259): a failing command ends with `raise` of Flags.lean. -/

namespace Sys2Proof.Machine

/-! ### The framebuffer as canonical cells -/

/-- What an address that no cell lists reads as: the reset contents `FB_RESET` (10_state R35, 92 D28; log 2). -/
def unlisted (rst : Vector Byte FB_BYTES) (a : Nat) : Byte := rst[a]?.getD 0

/-- The byte of the first cell at address `a`. -/
def lookup : Memory → Nat → Option Byte
  | [], _ => none
  | (b, w) :: m, a => if b = a then some w else lookup m a

/-- One byte read (20_memory R59, R62). -/
def memRead (rst : Vector Byte FB_BYTES) (m : Memory) (a : Nat) : Byte := (lookup m a).getD (unlisted rst a)

/-- List a byte at its place in rising address order, in place of a cell of the same address. -/
def insertCell : Memory → Nat → Byte → Memory
  | [], a, v => [(a, v)]
  | (b, w) :: m, a, v =>
    if a < b then (a, v) :: (b, w) :: m
    else if a = b then (a, v) :: m
    else (b, w) :: insertCell m a v

/-- List nothing at an address. -/
def eraseCell (m : Memory) (a : Nat) : Memory := m.filter (fun cell => decide (cell.1 ≠ a))

/-- One byte written: no cell is listed where the byte is what an unlisted address reads as. -/
def memWrite (rst : Vector Byte FB_BYTES) (m : Memory) (a : Nat) (v : Byte) : Memory :=
  if v = unlisted rst a then eraseCell m a else insertCell m a v

/-- Every framebuffer byte written with one value, in increasing address order (40_framebuffer R112, 44_sync R221;
log 14). -/
@[irreducible] def memFill (rst : Vector Byte FB_BYTES) (v : Byte) : Memory :=
  (List.range FB_BYTES).filterMap (fun a => if v = unlisted rst a then none else some (a, v))

/-- Every cell's address is at least `lo` and rises from cell to cell. -/
def rising : Nat → Memory → Bool
  | _, [] => true
  | lo, (a, _) :: m => decide (lo ≤ a) && rising (a + 1) m

/-- The canonical form: addresses strictly rising and below 1024 (20_memory R63), no cell equal to what an unlisted
address reads as. -/
def Memory.wf (rst : Vector Byte FB_BYTES) (m : Memory) : Bool :=
  rising 0 m && m.all (fun cell => decide (cell.1 < FB_BYTES) && decide (cell.2 ≠ unlisted rst cell.1))

/-- `MemRead(a, 1)` and `FB[a]` (00_scope R12). -/
def State.readByte (s : State) (a : Nat) : Byte := memRead s.cfg.fbReset s.fb a

/-- `MemWrite(a, 1, v)` (00_scope R12). -/
def State.writeByte (s : State) (a : Nat) (v : Byte) : State := { s with fb := memWrite s.cfg.fbReset s.fb a v }

/-- `MemWrite(a, 1, v)` for every `a` from 0 to 1023 (40_framebuffer R112). -/
def State.fillBytes (s : State) (v : Byte) : State := { s with fb := memFill s.cfg.fbReset v }

/-! ### Pixels -/

/-- The arguments `x`, `y` of PlotPixel, reduced to 16 bits (40_framebuffer R110). -/
abbrev Pixel := Word × Word

/-- A valid pixel: `x < WIDTH` and `y < HEIGHT` (20_memory R51). -/
def onPanel (p : Pixel) : Bool := decide (coord p.1 < WIDTH) && decide (coord p.2 < HEIGHT)

/-- `addr(x, y) = x + (y div 8) * WIDTH` (20_memory R51). -/
def pixelAddr (p : Pixel) : Nat := coord p.1 + coord p.2 / 8 * WIDTH

/-- `bit(x, y) = y mod 8` (20_memory R51). -/
def pixelBit (p : Pixel) : Nat := coord p.2 % 8

/-- The raw stored bit of a valid pixel (20_memory R53). -/
def State.pixel (s : State) (p : Pixel) : Bool := (s.readByte (pixelAddr p)).getLsbD (pixelBit p)

/-- The byte `v` with the bits of mask `m` set or cleared (40_framebuffer R110). -/
def paint (e : Color) (v m : Byte) : Byte :=
  match e with
  | .set => v ||| m
  | .clear => v &&& ~~~m

/-- `PlotPixel(x, y, c)` (40_framebuffer R110): dropped off the panel, otherwise one bit of one byte takes the effective
colour. -/
def plotPixel (c : Color) (p : Pixel) (s : State) : State :=
  if onPanel p then
    s.writeByte (pixelAddr p) (paint (effective c s.inv) (s.readByte (pixelAddr p)) (1#8 <<< pixelBit p))
  else s

/-- PlotPixel of each pixel with its own colour, in order (43_text R182). -/
def plotCells : List (Pixel × Color) → State → State
  | [], s => s
  | pc :: ps, s => plotCells ps (plotPixel pc.2 pc.1 s)

/-- PlotPixel of each pixel in order, all of one colour (20_memory R67). -/
def plotAll (c : Color) (ps : List Pixel) (s : State) : State := plotCells (ps.map (fun p => (p, c))) s

/-! ### The transport (00_scope R13, 60_exceptions R266) -/

/-- The transport's next answer: the next one listed, and a free value when none is listed (93 U9; log 5). -/
def nextAnswer (s : State) : Bool :=
  match s.answers with
  | [] => Config.freeAnswer s.draws
  | a :: _ => a

/-- The state once that answer is drawn. -/
def drawn (s : State) : State := { s with answers := s.answers.tail, draws := s.draws + 1 }

/-- One event added to the output trace (30_encoding R97, 20_memory R66). -/
def emit (e : Event) (s : State) : State := { s with trace := s.trace ++ [e] }

/-- `Setup()`: event SETUP with its answer (00_scope R13). -/
def setup (s : State) : Bool × State := (nextAnswer s, emit (.setup (nextAnswer s)) (drawn s))

/-- `Delay(ms)`: event DELAY; it returns (00_scope R13, 44_sync R220). -/
def delay (ms : Nat) (s : State) : State := emit (.delay ms) s

/-- `Probe()`: event PROBE with its answer (00_scope R13). -/
def probe (s : State) : Bool × State := (nextAnswer s, emit (.probe (nextAnswer s)) (drawn s))

/-- `Transmit(kind, bytes)`: event TX with its answer (00_scope R13). -/
def transmit (kind : FrameKind) (bytes : List Byte) (s : State) : Bool × State :=
  (nextAnswer s, emit (.tx kind bytes (nextAnswer s)) (drawn s))

/-! ### The host command port (30_encoding R80, R87; 10_state R22) -/

/-- The words the engine holds and those the host has sent after them. -/
def State.available (s : State) : List Word := s.held ++ s.text.drop s.index

/-- The decoder applied to the words at hand. -/
def State.fetch (s : State) : Decoded := decode s.cfg.nfonts s.available

/-- `n` words of a command consumed: first those held, then words of the text, whose index moves past them
(30_encoding R87, 10_state R22). -/
def State.consume (s : State) (n : Nat) : State :=
  { s with held := s.held.drop n, index := s.index + (n - s.held.length) }

/-- Every word sent is accepted and held, and the command still waits (70_reset_and_hazards R284). -/
def State.collect (s : State) : State :=
  { s with held := s.available, index := s.index + (s.text.drop s.index).length }

/-- The status a refused command ends with (30_encoding R87). -/
def rejectStatus : Reject → Status
  | .noTerminator => .stringTooLong
  | .unassignedOpcode => .illegal
  | .reservedBits => .illegal
  | .strayColour => .illegal
  | .strayFont => .illegal
  | .characterHighByte => .illegal
  | .fontIndex => .illegal

/-- A command the decoder refuses: no effect but the result registers, `RVAL` the header (30_encoding R87, R90). -/
def rejectCommand (why : Reject) (h : Word) (s : State) : State :=
  raise (rejectStatus why) (h.setWidth 32) s

/-- The phase of 10_state R32, computed from the words held: none, an incomplete command, or a complete one (log 9). -/
def State.phase (s : State) : Phase :=
  match s.held with
  | [] => .idle
  | _ :: _ =>
    match decode s.cfg.nfonts s.held with
    | .incomplete => .collect
    | .reject _ _ _ => .exec
    | .command _ _ => .exec

/-! ### The host's moves (60_exceptions R267) -/

/-- The host writes command words on the port. -/
def hostWrite (ws : List Word) (s : State) : State := { s with text := s.text ++ ws }

/-- Reset: the state of 10_state R35 in every engine register, collected words discarded, no transport event. The
parameters, the host's words not yet accepted, the transport's answers and the trace stay (70_reset_and_hazards R280, R282;
log 10). -/
def hostReset (s : State) : State :=
  { s with fb := [], cx := 0, cy := 0, inv := false, ist := .uninitialized, rstatus := 0, rval := 0, raux := 0, held := [] }

/-- The host reads `RSTATUS`, `RVAL` and `RAUX`: the last finished command's results (70_reset_and_hazards R285). -/
def hostResults (s : State) : Byte × BitVec 32 × Word := (s.rstatus, s.rval, s.raux)

end Sys2Proof.Machine
end

