-- ==== Sys2Proof/Machine/Raster.lean ====
section
/-! DEFINITION. The line primitive and the outline commands: LINE, RECT, TRI, CIRC (41_raster R130 to R137). Each is the
list of pixels it plots, in order, all of one colour. -/

namespace Sys2Proof.Machine

/-- The general case of DrawLine (41_raster R130): from `(x, y)` with error term `err`, at most `n` pixels. R132 says that
`max(dx, dy) + 1` of them always end at the end point (log 13). -/
def lineLoop (dx dy sx sy x1 y1 : Int) : Nat → Int → Int → Int → List Pixel
  | 0, _, _, _ => []
  | n + 1, x, y, err =>
    (wrap16 x, wrap16 y) ::
      if x = x1 ∧ y = y1 then []
      else
        lineLoop dx dy sx sy x1 y1 n
          (if -dx < err then x + sx else x)
          (if err < dy then y + sy else y)
          (err - (if -dx < err then dy else 0) + (if err < dy then dx else 0))

/-- DrawLine between clamped end points (41_raster R130). -/
def clampedLine (x0 y0 x1 y1 : Nat) : List Pixel :=
  let dx : Int := |(x1 : Int) - x0|
  let dy : Int := |(y1 : Int) - y0|
  if dx = 0 then
    (List.range' (min y0 y1) (max y0 y1 - min y0 y1 + 1)).map (fun i => (wrap16 x0, wrap16 i))
  else if dy = 0 then
    (List.range' (min x0 x1) (max x0 x1 - min x0 x1 + 1)).map (fun i => (wrap16 i, wrap16 y0))
  else
    lineLoop dx dy (if x0 < x1 then 1 else -1) (if y0 < y1 then 1 else -1) x1 y1
      ((max dx dy).toNat + 1) x0 y0 ((if dy < dx then dx else -dy).tdiv 2)

/-- The pixels of `DrawLine(x0, y0, x1, y1, c)`, in order (41_raster R130). -/
def linePixels (x0 y0 x1 y1 : Word) : List Pixel :=
  clampedLine (clampTo WIDTH x0) (clampTo HEIGHT y0) (clampTo WIDTH x1) (clampTo HEIGHT y1)

/-- LINE (41_raster R131). -/
def execLine (c : Color) (x0 y0 x1 y1 : Word) (s : State) : Host.Outcome State Fault Refusal :=
  .next (finish .ok 0 0 (plotAll c (linePixels x0 y0 x1 y1) s))

/-- The pixels of RECT: nothing when the corner is off the panel, else four lines of the clipped rectangle
(41_raster R133). -/
def rectPixels (x y w h : Word) : List Pixel :=
  if WIDTH ≤ coord x ∨ HEIGHT ≤ coord y then []
  else
    let xr : Word := wrap16 (farEdge WIDTH (coord x) (coord w))
    let yb : Word := wrap16 (farEdge HEIGHT (coord y) (coord h))
    linePixels x y xr y ++ linePixels x yb xr yb ++ linePixels x y x yb ++ linePixels xr y xr yb

/-- RECT (41_raster R133). -/
def execRect (c : Color) (x y w h : Word) (s : State) : Host.Outcome State Fault Refusal :=
  .next (finish .ok 0 0 (plotAll c (rectPixels x y w h) s))

/-- The pixels of TRI: the lines 1-2, 2-3 and 3-1 (41_raster R135). -/
def triPixels (x1 y1 x2 y2 x3 y3 : Word) : List Pixel :=
  linePixels x1 y1 x2 y2 ++ linePixels x2 y2 x3 y3 ++ linePixels x3 y3 x1 y1

/-- TRI (41_raster R135). -/
def execTri (c : Color) (x1 y1 x2 y2 x3 y3 : Word) (s : State) : Host.Outcome State Fault Refusal :=
  .next (finish .ok 0 0 (plotAll c (triPixels x1 y1 x2 y2 x3 y3) s))

/-- The variables of the midpoint circle, all 16-bit two's complement (41_raster R137, 92 D6). -/
structure CircleVars where
  f : Word
  ddFx : Word
  ddFy : Word
  x : Word
  y : Word
  deriving DecidableEq, Repr

/-- The variables before the loop (41_raster R137). -/
def circleStart (r : Word) : CircleVars := ⟨1 - r, 1, -2 * r, 0, r⟩

/-- `if f >= 0` of the loop: step `y` inward (41_raster R137). -/
def circleInward (v : CircleVars) : CircleVars :=
  if 0 ≤ signed v.f then
    { v with y := v.y - 1, ddFy := v.ddFy + 2, f := v.f + (v.ddFy + 2) }
  else v

/-- The rest of the update: step `x` outward (41_raster R137). -/
def circleOutward (v : CircleVars) : CircleVars :=
  { v with x := v.x + 1, ddFx := v.ddFx + 2, f := v.f + (v.ddFx + 2) }

/-- The offsets `(x, y)` after each iteration of the loop `while x < y`, at most `n` of them (41_raster R137; log 13). -/
def circleOffsets : Nat → CircleVars → List Pixel
  | 0, _ => []
  | n + 1, v =>
    if signed v.x < signed v.y then
      let w := circleOutward (circleInward v)
      (w.x, w.y) :: circleOffsets n w
    else []

/-- The octant walk of radius `r`: the loop runs at most `max(r, 0)` times (41_raster R137). -/
def octantWalk (r : Word) : List Pixel := circleOffsets (signed r).toNat (circleStart r)

/-- The four axis pixels before the loop (41_raster R137, 42_fill R165). -/
def axisPixels (x0 y0 r : Word) : List Pixel :=
  [(x0, y0 + r), (x0, y0 - r), (x0 + r, y0), (x0 - r, y0)]

/-- The eight symmetric points of one step (41_raster R137). -/
def octantPixels (x0 y0 : Word) (d : Pixel) : List Pixel :=
  [(x0 + d.1, y0 + d.2), (x0 - d.1, y0 + d.2), (x0 + d.1, y0 - d.2), (x0 - d.1, y0 - d.2),
   (x0 + d.2, y0 + d.1), (x0 - d.2, y0 + d.1), (x0 + d.2, y0 - d.1), (x0 - d.2, y0 - d.1)]

/-- The pixels of CIRC (41_raster R137). -/
def circPixels (x0 y0 r : Word) : List Pixel :=
  axisPixels x0 y0 r ++ (octantWalk r).flatMap (octantPixels x0 y0)

/-- CIRC (41_raster R137). -/
def execCirc (c : Color) (x0 y0 r : Word) (s : State) : Host.Outcome State Fault Refusal :=
  .next (finish .ok 0 0 (plotAll c (circPixels x0 y0 r) s))

end Sys2Proof.Machine
end

