-- ==== Sys2Proof/Machine/Fill.lean ====
section
/-! DEFINITION. The filled commands: RECTF, TRIF, CIRCF (42_fill R160 to R165). -/

namespace Sys2Proof.Machine

/-- The pixels of RECTF: nothing when the corner is off the panel, else `h + 1` horizontal lines of the clipped rectangle
(42_fill R160). -/
def rectfPixels (x y w h : Word) : List Pixel :=
  if WIDTH ≤ coord x ∨ HEIGHT ≤ coord y then []
  else
    let xr : Word := wrap16 (farEdge WIDTH (coord x) (coord w))
    let yb : Nat := farEdge HEIGHT (coord y) (coord h)
    (List.range (yb - coord y + 1)).flatMap
      (fun i => linePixels x (wrap16 (coord y + i)) xr (wrap16 (coord y + i)))

/-- RECTF (42_fill R160). -/
def execRectf (c : Color) (x y w h : Word) (s : State) : Host.Outcome State Fault Refusal :=
  .next (finish .ok 0 0 (plotAll c (rectfPixels x y w h) s))

/-- The constants of TRIF's sweep, all 16-bit two's complement (42_fill R162). -/
structure Sweep where
  xinc1 : Word
  xinc2 : Word
  yinc1 : Word
  yinc2 : Word
  den : Word
  num : Word
  numadd : Word
  numpixels : Word
  deriving DecidableEq, Repr

/-- `s16(|b - a|)`, the difference exact (42_fill R162). -/
def absDiff16 (a b : Word) : Word := wrap16 |(coord b : Int) - coord a|

/-- The direction from `a` to `b`, an unsigned comparison (42_fill R162). -/
def towards (a b : Word) : Word := if coord a ≤ coord b then 1 else -1

/-- The set-up of the sweep from vertex 1 to vertex 2: the axis of greater span gets the unit increment every step
(42_fill R162). -/
def sweepSetup (x1 y1 x2 y2 : Word) : Sweep :=
  let deltax := absDiff16 x1 x2
  let deltay := absDiff16 y1 y2
  if signed deltay ≤ signed deltax then
    { xinc1 := 0, xinc2 := towards x1 x2, yinc1 := towards y1 y2, yinc2 := 0,
      den := deltax, num := half16 deltax, numadd := deltay, numpixels := deltax }
  else
    { xinc1 := towards x1 x2, xinc2 := 0, yinc1 := 0, yinc2 := towards y1 y2,
      den := deltay, num := half16 deltay, numadd := deltax, numpixels := deltay }

/-- `n` swept points from `(x, y)` with numerator `num` (42_fill R162). -/
def sweepPoints (k : Sweep) : Nat → Word → Word → Word → List Pixel
  | 0, _, _, _ => []
  | n + 1, x, y, num =>
    let carry := signed k.den ≤ signed (num + k.numadd)
    (x, y) ::
      sweepPoints k n
        ((if carry then x + k.xinc1 else x) + k.xinc2)
        ((if carry then y + k.yinc1 else y) + k.yinc2)
        (if carry then num + k.numadd - k.den else num + k.numadd)

/-- `numpixels + 1`, or 0 when `numpixels < 0` (42_fill R162, R164). -/
def sweepCount (k : Sweep) : Nat := (signed k.numpixels + 1).toNat

/-- The points TRIF sweeps, from vertex 1 toward vertex 2 (42_fill R162). -/
def trifPoints (x1 y1 x2 y2 : Word) : List Pixel :=
  let k := sweepSetup x1 y1 x2 y2
  sweepPoints k (sweepCount k) x1 y1 k.num

/-- The pixels of TRIF: each swept point joined to vertex 3 (42_fill R162). -/
def trifPixels (x1 y1 x2 y2 x3 y3 : Word) : List Pixel :=
  (trifPoints x1 y1 x2 y2).flatMap (fun p => linePixels p.1 p.2 x3 y3)

/-- TRIF (42_fill R162). -/
def execTrif (c : Color) (x1 y1 x2 y2 x3 y3 : Word) (s : State) : Host.Outcome State Fault Refusal :=
  .next (finish .ok 0 0 (plotAll c (trifPixels x1 y1 x2 y2 x3 y3) s))

/-- The four spans of one step of CIRCF (42_fill R165). -/
def spanPixels (x0 y0 : Word) (d : Pixel) : List Pixel :=
  linePixels (x0 - d.1) (y0 + d.2) (x0 + d.1) (y0 + d.2)
    ++ linePixels (x0 + d.1) (y0 - d.2) (x0 - d.1) (y0 - d.2)
    ++ linePixels (x0 + d.2) (y0 + d.1) (x0 - d.2) (y0 + d.1)
    ++ linePixels (x0 + d.2) (y0 - d.1) (x0 - d.2) (y0 - d.1)

/-- The spans of CIRCF: the centre row, then four spans a step (42_fill R165). -/
def circfSpans (x0 y0 r : Word) : List Pixel :=
  linePixels (x0 - r) y0 (x0 + r) y0 ++ (octantWalk r).flatMap (spanPixels x0 y0)

/-- The pixels of CIRCF (42_fill R165). -/
def circfPixels (x0 y0 r : Word) : List Pixel := axisPixels x0 y0 r ++ circfSpans x0 y0 r

/-- CIRCF (42_fill R165). -/
def execCircf (c : Color) (x0 y0 r : Word) (s : State) : Host.Outcome State Fault Refusal :=
  .next (finish .ok 0 0 (plotAll c (circfPixels x0 y0 r) s))

end Sys2Proof.Machine
end

