-- ==== Sys2Proof/Machine/Framebuffer.lean ====
section
/-! DEFINITION. The framebuffer commands: SETPIXEL, FILL, SETINV, RDPIX, RDBYTE (40_framebuffer R111 to R115). -/

namespace Sys2Proof.Machine

/-- SETPIXEL (40_framebuffer R111). -/
def execSetpixel (c : Color) (x y : Word) (s : State) : Host.Outcome State Fault Refusal :=
  .next (finish .ok 0 0 (plotPixel c (x, y) s))

/-- The byte FILL writes: 0xFF for SET, 0x00 for CLEAR; `INV` is not read (40_framebuffer R112). -/
def fillByte : Color → Byte
  | .set => 0xFF
  | .clear => 0x00

/-- FILL (40_framebuffer R112). -/
def execFill (c : Color) (s : State) : Host.Outcome State Fault Refusal :=
  .next (finish .ok 0 0 (s.fillBytes (fillByte c)))

/-- SETINV (40_framebuffer R113). -/
def execSetinv (v : Bool) (s : State) : Host.Outcome State Fault Refusal :=
  .next (finish .ok 0 0 { s with inv := v })

/-- The packed address `a OR (b << 12)` that RDPIX returns (40_framebuffer R114). -/
def packedAddr (p : Pixel) : Word := BitVec.ofNat 16 (pixelAddr p) ||| (BitVec.ofNat 16 (pixelBit p) <<< 12)

/-- RDPIX (40_framebuffer R114). -/
def execRdpix (x y : Word) (s : State) : Host.Outcome State Fault Refusal :=
  .next (if onPanel (x, y) then
      finish .ok ((BitVec.ofBool (s.pixel (x, y))).setWidth 32) (packedAddr (x, y)) s
    else raise .outOfRange 0 s)

/-- RDBYTE (40_framebuffer R115). -/
def execRdbyte (a : Word) (s : State) : Host.Outcome State Fault Refusal :=
  .next (if coord a < FB_BYTES then finish .ok ((s.readByte (coord a)).setWidth 32) 0 s
    else raise .outOfRange 0 s)

end Sys2Proof.Machine
end

