-- ==== Sys2Proof/Machine/Sync.lean ====
section
/-! DEFINITION. The protocol framer, the page sequencer and the commands INIT, SYNC and RDSTATE (44_sync R211 to R225). -/

namespace Sys2Proof.Machine

/-- A frame before its prefix: the kind and the payload (44_sync R211). -/
abbrev Payload := FrameKind × List Byte

/-- The whole frame, prefix first (30_encoding R93). -/
def frameOf (p : Payload) : List Byte :=
  match p.1 with
  | .cmd => CMD_PREFIX :: p.2
  | .data => DATA_PREFIX :: p.2

/-- `SendFrame(kind, payload)`: probe, then transmit unless the probe answers false; no retry (44_sync R211). The Boolean
says the frame was delivered. -/
def sendFrame (p : Payload) (s : State) : Bool × State :=
  if (probe s).1 then transmit p.1 (frameOf p) (probe s).2 else (false, (probe s).2)

/-- Frames offered one after the other, whatever the answers; the number counts those dropped (44_sync R211, R214). -/
def sendAll : List Payload → State → Nat × State
  | [], s => (0, s)
  | p :: ps, s =>
    let sent := sendFrame p s
    let rest := sendAll ps sent.2
    ((if sent.1 then 0 else 1) + rest.1, rest.2)

/-- A command frame's payload: exactly one byte (30_encoding R93). -/
def commandPayload (b : Byte) : Payload := (.cmd, [b])

/-- The bytes of a page in increasing address order (20_memory R57). -/
def pageBytes (s : State) (p : Nat) : List Byte := (List.range WIDTH).map (fun k => s.readByte (p * WIDTH + k))

/-- The four frames of page `p` (44_sync R214, R215; 30_encoding R95). -/
def pageFrames (s : State) (p : Nat) : List Payload :=
  [commandPayload (s.cfg.pageCmd ||| BitVec.ofNat 8 p), commandPayload s.cfg.colLoCmd,
   commandPayload s.cfg.colHiCmd, (.data, pageBytes s p)]

/-- Bit `p` of the page mask when any frame of the page was dropped (44_sync R214). -/
def maskBit (p dropped : Nat) : Byte := if dropped = 0 then 0 else 1#8 <<< p

/-- The pages in order: the number of dropped frames, the page mask, and the state left (44_sync R214). -/
def syncPages : List Nat → State → Nat × Byte × State
  | [], s => (0, 0, s)
  | p :: ps, s =>
    let page := sendAll (pageFrames s p) s
    let rest := syncPages ps page.2
    (page.1 + rest.1, maskBit p page.1 ||| rest.2.1, rest.2.2)

/-- `SyncFrames()` (44_sync R214). -/
def syncFrames (s : State) : Nat × Byte × State := syncPages (List.range PAGES) s

/-- The number of dropped frames as `RVAL` (44_sync R221, R222). DESIGN CHOICE (log 20): 00_scope R8 bounds the length of
`INIT_CMDS` nowhere and `RVAL` has 32 bits, so for 2^32 drops or more the spec states no result, and the value is free. -/
def dropResult (dropped : Nat) : BitVec 32 :=
  if dropped < 2 ^ 32 then BitVec.ofNat 32 dropped else Config.freeDropCount dropped

/-- The result of a command that offered frames: OK, or XFER_DROPPED with the count and the mask (44_sync R221, R222). -/
def finishFrames (dropped : Nat) (mask : Word) (s : State) : State :=
  if dropped = 0 then finish .ok 0 0 s else finish .xferDropped (dropResult dropped) mask s

/-- The frames of `INIT_CMDS`, one byte each (30_encoding R96, 44_sync R221). -/
def initFrames (c : Config) : List Payload := c.initCmds.map commandPayload

/-- INIT once setup succeeded: settle delay, configuration frames, clear, full sync, cursor home, Ready (44_sync R221). -/
def initReady (s : State) : State :=
  let cfgd := sendAll (initFrames s.cfg) (delay s.cfg.settleMs s)
  let synced := syncFrames (cfgd.2.fillBytes 0)
  finishFrames (cfgd.1 + synced.1)
    (synced.2.1.setWidth 16 ||| (if cfgd.1 = 0 then 0 else 0x100))
    { synced.2.2 with cx := 0, cy := 0, ist := .ready }

/-- INIT (44_sync R221). -/
def execInit (s : State) : Host.Outcome State Fault Refusal :=
  .next (if (setup s).1 then initReady (setup s).2 else raise .initFailed 0 (setup s).2)

/-- SYNC in Ready (44_sync R222). -/
def syncReady (s : State) : State :=
  let synced := syncFrames s
  finishFrames synced.1 (synced.2.1.setWidth 16) synced.2.2

/-- SYNC: refused in Uninitialized with no event (44_sync R222, R218). -/
def execSync (s : State) : Host.Outcome State Fault Refusal :=
  .next (match s.ist with
    | .uninitialized => raise .notReady 0 s
    | .ready => syncReady s)

/-- `RVAL` of RDSTATE: `CX` below `CY` (44_sync R225). -/
def stateWord (s : State) : BitVec 32 := s.cx.setWidth 32 ||| (s.cy.setWidth 32 <<< 16)

/-- `RAUX` of RDSTATE: `INV` in bit 0 and `IST` in bit 1 (44_sync R225). -/
def stateFlags (s : State) : Word :=
  (BitVec.ofBool s.inv).setWidth 16 ||| ((BitVec.ofBool (istBit s.ist)).setWidth 16 <<< 1)

/-- RDSTATE (44_sync R225). -/
def execRdstate (s : State) : Host.Outcome State Fault Refusal :=
  .next (finish .ok (stateWord s) (stateFlags s) s)

end Sys2Proof.Machine
end

