-- ==== Sys2Proof/Machine/Text.lean ====
section
/-! DEFINITION. The text commands: GOTOXY, PUTC, PUTS, MEASURE (43_text R180 to R185). -/

namespace Sys2Proof.Machine

/-- GOTOXY (43_text R180). -/
def execGotoxy (x y : Word) (s : State) : Host.Outcome State Fault Refusal :=
  .next (finish .ok 0 0 { s with cx := x, cy := y })

/-- PutChar's edge check refuses: the cursor's, or the glyph's, is off the panel (43_text R182, 92 D20). Sums are exact. -/
def edgeRefuses (ft : Font) (s : State) : Bool :=
  match s.cfg.putcFit with
  | .cursorEdge => decide (WIDTH ≤ coord s.cx) || decide (HEIGHT ≤ coord s.cy)
  | .glyphFit => decide (WIDTH ≤ coord s.cx + ft.fw) || decide (HEIGHT ≤ coord s.cy + ft.fh)

/-- The font has no glyph for the character (43_text R181). -/
def glyphMissing (ft : Font) (ch : Byte) : Bool := decide (ch.toNat < ft.amin) || decide (ft.amax < ch.toNat)

/-- The status of PutChar: the edge check comes first (43_text R182, 92 D21). -/
def putStatus (ft : Font) (ch : Byte) (s : State) : Status :=
  if edgeRefuses ft s then .textOverflow else if glyphMissing ft ch then .undefinedGlyph else .ok

/-- The pixels of a glyph cell with their colours, row by row: a set bit takes `c`, a clear one `NOT c` (43_text R182). -/
def glyphCells (ft : Font) (ch : Byte) (c : Color) (cx cy : Word) : List (Pixel × Color) :=
  (List.range ft.fh).flatMap (fun i =>
    (List.range ft.fw).map (fun j =>
      ((cx + BitVec.ofNat 16 j, cy + BitVec.ofNat 16 i),
        if glyphBit (glyphRow ft ch.toNat i) j then c else notColour c)))

/-- PutChar when nothing refuses: the whole cell painted and `CX` advanced (43_text R182). -/
def drawGlyph (ft : Font) (ch : Byte) (c : Color) (s : State) : State :=
  { plotCells (glyphCells ft ch c s.cx s.cy) s with cx := s.cx + BitVec.ofNat 16 ft.fw }

/-- `PutChar(ch, f, c)`: its status and the state it leaves; a refused character changes nothing (43_text R182). -/
def putChar (ft : Font) (ch : Byte) (c : Color) (s : State) : Status × State :=
  (putStatus ft ch s, if putStatus ft ch s = .ok then drawGlyph ft ch c s else s)

/-- A character code as a result: `zext_32(ch)` (43_text R183). -/
def charResult (ch : Byte) : BitVec 32 := ch.setWidth 32

/-- A command whose font index names no font: the decoder's refusal, which no decoded command reaches (30_encoding R87
check 6; log 11). -/
def refuseFont (i : Instr) (s : State) : State := rejectCommand .fontIndex i.header s

/-- PUTC once its font is found (43_text R183). -/
def putcWith (ft : Font) (c : Color) (ch : Byte) (s : State) : State :=
  finish (putChar ft ch c s).1 (charResult ch) 0 (putChar ft ch c s).2

/-- PUTC (43_text R183). -/
def execPutc (c : Color) (f : BitVec 3) (ch : Byte) (s : State) : Host.Outcome State Fault Refusal :=
  .next (match fontAt s f with
    | some ft => putcWith ft c ch s
    | none => refuseFont (.putc c f ch) s)

/-- PutChar for every character in order from index `k`, stopping at the first that fails; nothing drawn is undone
(43_text R184, 92 D23). -/
def putString (ft : Font) (c : Color) : Nat → List Byte → State → State
  | k, [], s => finish .ok 0 (BitVec.ofNat 16 k) s
  | k, ch :: str, s =>
    if putStatus ft ch s = .ok then putString ft c (k + 1) str (drawGlyph ft ch c s)
    else finish (putStatus ft ch s) (charResult ch) (BitVec.ofNat 16 k) s

/-- PUTS (43_text R184). -/
def execPuts (c : Color) (f : BitVec 3) (str : List Byte) (s : State) : Host.Outcome State Fault Refusal :=
  .next (match fontAt s f with
    | some ft => putString ft c 0 str s
    | none => refuseFont (.puts c f str) s)

/-- `zext_16(fh)`, the font's height as `RAUX` (43_text R185). DESIGN CHOICE (log 19): 00_scope R9 gives `fh` no upper
bound and `RAUX` has 16 bits, so for a height of 65536 or more the spec states no result, and the value is free. -/
def heightResult (fh : Nat) : Word := if fh < 65536 then BitVec.ofNat 16 fh else Config.freeHeight fh

/-- MEASURE once its font is found: `n * fw` and `fh` (43_text R185; log 19 for a height past 16 bits). -/
def measureWith (ft : Font) (n : Nat) (s : State) : State :=
  finish .ok (BitVec.ofNat 32 (n * ft.fw)) (heightResult ft.fh) s

/-- MEASURE (43_text R185). -/
def execMeasure (f : BitVec 3) (str : List Byte) (s : State) : Host.Outcome State Fault Refusal :=
  .next (match fontAt s f with
    | some ft => measureWith ft str.length s
    | none => refuseFont (.measure f str) s)

end Sys2Proof.Machine
end

