-- ==== Sys2Proof/Machine/Dispatch.lean ====
section
/-! DEFINITION. One arm per host command, each a direct call of its meaning. -/

namespace Sys2Proof.Machine

-- The effect of one complete command, an atomic step of the engine (00_scope R18).
def exec (i : Instr) (s : State) : Host.Outcome State Fault Refusal :=
  match i with
  | .init => Sys2Proof.Machine.execInit s
  | .fill c => Sys2Proof.Machine.execFill c s
  | .sync => Sys2Proof.Machine.execSync s
  | .setinv v => Sys2Proof.Machine.execSetinv v s
  | .setpixel c x y => Sys2Proof.Machine.execSetpixel c x y s
  | .line c x0 y0 x1 y1 => Sys2Proof.Machine.execLine c x0 y0 x1 y1 s
  | .rect c x y w h => Sys2Proof.Machine.execRect c x y w h s
  | .rectf c x y w h => Sys2Proof.Machine.execRectf c x y w h s
  | .tri c x1 y1 x2 y2 x3 y3 => Sys2Proof.Machine.execTri c x1 y1 x2 y2 x3 y3 s
  | .trif c x1 y1 x2 y2 x3 y3 => Sys2Proof.Machine.execTrif c x1 y1 x2 y2 x3 y3 s
  | .circ c x0 y0 r => Sys2Proof.Machine.execCirc c x0 y0 r s
  | .circf c x0 y0 r => Sys2Proof.Machine.execCircf c x0 y0 r s
  | .gotoxy x y => Sys2Proof.Machine.execGotoxy x y s
  | .putc c f ch => Sys2Proof.Machine.execPutc c f ch s
  | .puts c f str => Sys2Proof.Machine.execPuts c f str s
  | .measure f str => Sys2Proof.Machine.execMeasure f str s
  | .rdpix x y => Sys2Proof.Machine.execRdpix x y s
  | .rdbyte a => Sys2Proof.Machine.execRdbyte a s
  | .rdstate => Sys2Proof.Machine.execRdstate s

end Sys2Proof.Machine
end

