-- ==== Sys2Proof/Machine/Step.lean ====
section
/-! DEFINITION. One step of the machine: the next host command executed whole, or refused by the decoder, or waited for
(00_scope R18, 30_encoding R87, 70_reset_and_hazards R284). -/

namespace Sys2Proof.Machine

/-- One step. A malformed configuration is refused for the whole run (60_exceptions R268). An incomplete command is held
and waits, which is no fault; with nothing more sent the step changes nothing (log 8). -/
def step (s : State) : Host.Outcome State Fault Refusal :=
  if s.cfg.wf then
    match s.fetch with
    | .incomplete => .next s.collect
    | .reject why h n => .next (rejectCommand why h (s.consume n))
    | .command i n => exec i (s.consume n)
  else .refused .malformedConfiguration

/-- `s` with the instruction of a table word as the next command the host sends: nothing held, and after the words already
accepted exactly that instruction's words (log 7). -/
def State.withFetchWord (s : State) (nbits w : Nat) : State :=
  { s with
    held := []
    text := s.text.take s.index
      ++ (tableWords nbits w).take (decode s.cfg.nfonts (tableWords nbits w)).length
    index := (s.text.take s.index).length }

end Sys2Proof.Machine
end

