-- ==== Sys2Proof/Safety.lean ====
section
/-! DEFINITION. What holds of the machine between steps, in the terms statements use. -/

namespace Sys2Proof.Machine

/-- The invariant of the machine between two steps:
the configuration has a meaning (00_scope R9); the framebuffer's cells are in canonical form, none at an address of 1024 or
more (20_memory R63); `RSTATUS` holds one of the nine codes of 10_state R27; the host's index points into its text
(10_state R22); and the words held are no complete command (10_state R32: the phase is IDLE or COLLECT). -/
abbrev State.Inv (s : State) : Prop :=
  s.cfg.wf = true ∧ Memory.wf s.cfg.fbReset s.fb = true ∧ s.rstatus.toNat ≤ 8 ∧ s.index ≤ s.text.length ∧
    decode s.cfg.nfonts s.held = .incomplete

/-- Nothing but `FB` and the three result registers differs: not the cursor, `INV`, `IST`, the command port, the
transport's answers, the trace or the configuration (10_state R20). -/
abbrev State.SameButFbAndResults (s t : State) : Prop :=
  t.cx = s.cx ∧ t.cy = s.cy ∧ t.inv = s.inv ∧ t.ist = s.ist ∧ t.held = s.held ∧ t.text = s.text ∧ t.index = s.index ∧
    t.answers = s.answers ∧ t.draws = s.draws ∧ t.trace = s.trace ∧ t.cfg = s.cfg

/-- Every byte of the framebuffer reads as before. -/
abbrev State.SameBytes (s t : State) : Prop := ∀ a, t.readByte a = s.readByte a

/-- Nothing but the three result registers differs. -/
abbrev State.SameButResults (s t : State) : Prop := s.SameBytes t ∧ s.SameButFbAndResults t

/-- The three result registers hold a status and two values (10_state R26). -/
abbrev State.Results (t : State) (st : Status) (v : BitVec 32) (a : Word) : Prop :=
  t.rstatus = statusCode st ∧ t.rval = v ∧ t.raux = a

/-- The bit a pixel of colour `c` stores under the inversion flag `inv`: `c XOR INV` (40_framebuffer R110). -/
abbrev storedBit (c : Color) (inv : Bool) : Bool := decide (c = .set) ^^ inv

/-- `t` is what a drawing command of colour `c` that plots the pixels `ps` leaves of `s`: `OK`, 0, 0 in the result
registers; each pixel of the panel in `ps` holds `c XOR INV` and every other keeps its bit; every byte that holds no
pixel of `ps` reads as before; and nothing else differs (40_framebuffer R116, R117, R119). -/
abbrev State.Draws (s t : State) (c : Color) (ps : List Pixel) : Prop :=
  t.Results .ok 0 0 ∧ s.SameButFbAndResults t ∧
    (∀ q, onPanel q = true → t.pixel q = if q ∈ ps then storedBit c s.inv else s.pixel q) ∧
    (∀ a, (∀ p ∈ ps, onPanel p = true → pixelAddr p ≠ a) → t.readByte a = s.readByte a)

/-- A frame as the transport gets it: the kind and every byte, prefix included (30_encoding R93). -/
abbrev WireFrame := FrameKind × List Byte

/-- The events of offering a frame with the answers given: dropped at the probe, or transmitted with the answer
(44_sync R211, R215). -/
def frameEvents (w : WireFrame) (ready ok : Bool) : List Event :=
  if ready then [.probe true, .tx w.1 w.2 ok] else [.probe false]

/-- The events of offering frames one after the other, each with its probe's and its transmission's answer. -/
def offered (ws : List WireFrame) (outs : List (Bool × Bool)) : List Event :=
  (List.zipWith (fun w o => frameEvents w o.1 o.2) ws outs).flatten

/-- A dropped frame's event: the probe answered false, or the transmission failed (44_sync R224). -/
def isDrop : Event → Bool
  | .setup _ => false
  | .delay _ => false
  | .probe ready => !ready
  | .tx _ _ ok => !ok

/-- How many events of a trace are drops (44_sync R224). -/
def dropCount (evs : List Event) : Nat := evs.countP isDrop

/-- The 32 frames of one sync in order, written out as 44_sync R215 lists them, when page `p` holds the bytes `page p`: for
each page the three command frames `[0x00, cmd]` and the data frame `[0x40] ++ bytes` (30_encoding R93, R95). -/
def syncWireFrames (c : Config) (page : Nat → List Byte) : List WireFrame :=
  (List.range 8).flatMap (fun p =>
    [(.cmd, [0x00, c.pageCmd ||| BitVec.ofNat 8 p]), (.cmd, [0x00, c.colLoCmd]), (.cmd, [0x00, c.colHiCmd]),
     (.data, 0x40 :: page p)])

/-- Page `p` of the framebuffer in increasing address order: `FB[128p .. 128p + 127]` (20_memory R57, R63). -/
def State.pageOf (s : State) (p : Nat) : List Byte := (List.range 128).map (fun k => s.readByte (128 * p + k))

/-- A frame was delivered: its probe answered true and its transmission `ok` (44_sync R211). -/
def delivered (o : Bool × Bool) : Bool := o.1 && o.2

/-- How many of the frames offered were dropped (44_sync R224). -/
def drops (outs : List (Bool × Bool)) : Nat := outs.countP (fun o => !delivered o)

/-- Some frame of page `p` was dropped, of four frames a page (44_sync R214, R215). -/
def pageDropped (outs : List (Bool × Bool)) (p : Nat) : Bool := ((outs.drop (4 * p)).take 4).any (fun o => !delivered o)

/-- The transport's answers that make those outcomes: a probe answered `false` is followed by no transmission
(44_sync R211). -/
def answersOf (outs : List (Bool × Bool)) : List Bool := outs.flatMap (fun o => if o.1 then [true, o.2] else [false])

/-- The distance of two coordinates. -/
def gap (a b : Nat) : Nat := a - b + (b - a)

/-- `s16(v) = ((v + 2^15) mod 2^16) - 2^15` (00_scope R11). -/
def s16 (v : Int) : Int := (v + 32768) % 65536 - 32768

/-- `(u16(x), u16(y))` as a pixel (00_scope R11). -/
def u16Pixel (x y : Int) : Pixel := (BitVec.ofInt 16 x, BitVec.ofInt 16 y)

/-- The loop of CIRC and CIRCF as 41_raster R137 writes it: `n` iterations, variable `v` holding `v k` after the `k`-th. -/
abbrev CircleRun (r : Word) (n : Nat) (f ddFx ddFy x y : Nat → Int) : Prop :=
  f 0 = s16 (1 - r.toInt) ∧ ddFx 0 = 1 ∧ ddFy 0 = s16 (-2 * r.toInt) ∧ x 0 = 0 ∧ y 0 = r.toInt ∧
    (∀ k, k < n →
      x k < y k ∧
      y (k + 1) = (if 0 ≤ f k then s16 (y k - 1) else y k) ∧
      ddFy (k + 1) = (if 0 ≤ f k then s16 (ddFy k + 2) else ddFy k) ∧
      x (k + 1) = s16 (x k + 1) ∧
      ddFx (k + 1) = s16 (ddFx k + 2) ∧
      f (k + 1) = s16 ((if 0 ≤ f k then s16 (f k + ddFy (k + 1)) else f k) + ddFx (k + 1))) ∧
    ¬ x n < y n

/-- The sweep of TRIF as 42_fill R162 writes it: `n` points, variable `v` holding `v k` at the `k`-th. -/
abbrev SweepRun (x1 y1 x2 y2 : Word) (n : Nat) (x y num : Nat → Int) : Prop :=
  let deltax := s16 |(x2.toNat : Int) - x1.toNat|
  let deltay := s16 |(y2.toNat : Int) - y1.toNat|
  let toX : Int := if x1.toNat ≤ x2.toNat then 1 else -1
  let toY : Int := if y1.toNat ≤ y2.toNat then 1 else -1
  let xMajor := deltay ≤ deltax
  let xinc1 := if xMajor then 0 else toX
  let xinc2 := if xMajor then toX else 0
  let yinc1 := if xMajor then toY else 0
  let yinc2 := if xMajor then 0 else toY
  let den := if xMajor then deltax else deltay
  let numadd := if xMajor then deltay else deltax
  n = (den + 1).toNat ∧ x 0 = s16 x1.toNat ∧ y 0 = s16 y1.toNat ∧ num 0 = den.tdiv 2 ∧
    ∀ k, k + 1 < n →
      let sum := s16 (num k + numadd)
      num (k + 1) = (if den ≤ sum then s16 (sum - den) else sum) ∧
      x (k + 1) = s16 ((if den ≤ sum then s16 (x k + xinc1) else x k) + xinc2) ∧
      y (k + 1) = s16 ((if den ≤ sum then s16 (y k + yinc1) else y k) + yinc2)

/-- The general loop of DrawLine as 41_raster R130 writes it, from `(a, b)` to `(c, d)`: it ends after `n` iterations that
plot and step, with the `n + 1`-th that plots the end point. -/
abbrev LineRun (a b c d : Int) (n : Nat) (x y err : Nat → Int) : Prop :=
  let dx := |c - a|
  let dy := |d - b|
  x 0 = a ∧ y 0 = b ∧ err 0 = (if dy < dx then dx else -dy).tdiv 2 ∧
    (∀ k, k < n →
      ¬ (x k = c ∧ y k = d) ∧
      err (k + 1) = err k - (if -dx < err k then dy else 0) + (if err k < dy then dx else 0) ∧
      x (k + 1) = (if -dx < err k then x k + (if a < c then 1 else -1) else x k) ∧
      y (k + 1) = (if err k < dy then y k + (if b < d then 1 else -1) else y k)) ∧
    x n = c ∧ y n = d

/-- A font descriptor is well-formed, in the words of 00_scope R9. -/
abbrev fontValid (ft : Font) : Prop := 1 ≤ ft.fw ∧ ft.fw ≤ 16 ∧ 1 ≤ ft.fh ∧ ft.amin ≤ ft.amax ∧ ft.amax ≤ 255

/-- PutChar's edge check refuses, in the words of 43_text R182. -/
abbrev State.AtEdge (s : State) (ft : Font) : Prop :=
  (s.cfg.putcFit = .cursorEdge ∧ (WIDTH ≤ coord s.cx ∨ HEIGHT ≤ coord s.cy)) ∨
    (s.cfg.putcFit = .glyphFit ∧ (WIDTH ≤ coord s.cx + ft.fw ∨ HEIGHT ≤ coord s.cy + ft.fh))

/-- The font has a glyph for the character (43_text R181). -/
abbrev hasGlyph (ft : Font) (ch : Byte) : Prop := ft.amin ≤ ch.toNat ∧ ch.toNat ≤ ft.amax

/-- The pixel lies in the cell of a glyph drawn at the cursor (43_text R186); sums are exact. -/
abbrev State.InCell (s : State) (ft : Font) (q : Pixel) : Prop :=
  coord s.cx ≤ coord q.1 ∧ coord q.1 < coord s.cx + ft.fw ∧ coord s.cy ≤ coord q.2 ∧ coord q.2 < coord s.cy + ft.fh

/-- The pixel lies in the cells of `n` glyphs drawn one after the other from the cursor (43_text R184, R186). -/
abbrev State.InRun (s : State) (ft : Font) (n : Nat) (q : Pixel) : Prop :=
  coord s.cx ≤ coord q.1 ∧ coord q.1 < coord s.cx + n * ft.fw ∧ coord s.cy ≤ coord q.2 ∧ coord q.2 < coord s.cy + ft.fh

/-- Nothing but `FB`, `CX` and the three result registers differs (43_text R182 to R184). -/
abbrev State.SameButTextAndResults (s t : State) : Prop :=
  t.cy = s.cy ∧ t.inv = s.inv ∧ t.ist = s.ist ∧ t.held = s.held ∧ t.text = s.text ∧ t.index = s.index ∧
    t.answers = s.answers ∧ t.draws = s.draws ∧ t.trace = s.trace ∧ t.cfg = s.cfg

/-- The commands that write `FB` (10_state R30, 20_memory R50). -/
def writesBytes : Instr → Bool
  | .init | .fill _ | .setpixel _ _ _ | .line _ _ _ _ _ | .rect _ _ _ _ _ | .rectf _ _ _ _ _ | .tri _ _ _ _ _ _ _
  | .trif _ _ _ _ _ _ _ | .circ _ _ _ _ | .circf _ _ _ _ | .putc _ _ _ | .puts _ _ _ => true
  | .sync | .setinv _ | .gotoxy _ _ | .measure _ _ | .rdpix _ _ | .rdbyte _ | .rdstate => false

/-- The commands that write `CX` (10_state R23). -/
def writesCx : Instr → Bool
  | .init | .gotoxy _ _ | .putc _ _ _ | .puts _ _ _ => true
  | .fill _ | .sync | .setinv _ | .setpixel _ _ _ | .line _ _ _ _ _ | .rect _ _ _ _ _ | .rectf _ _ _ _ _
  | .tri _ _ _ _ _ _ _ | .trif _ _ _ _ _ _ _ | .circ _ _ _ _ | .circf _ _ _ _ | .measure _ _ | .rdpix _ _
  | .rdbyte _ | .rdstate => false

/-- The commands that write `CY` (10_state R23). -/
def writesCy : Instr → Bool
  | .init | .gotoxy _ _ => true
  | .fill _ | .sync | .setinv _ | .setpixel _ _ _ | .line _ _ _ _ _ | .rect _ _ _ _ _ | .rectf _ _ _ _ _
  | .tri _ _ _ _ _ _ _ | .trif _ _ _ _ _ _ _ | .circ _ _ _ _ | .circf _ _ _ _ | .putc _ _ _ | .puts _ _ _
  | .measure _ _ | .rdpix _ _ | .rdbyte _ | .rdstate => false

/-- The one command that writes `INV` (10_state R24). -/
def writesInv : Instr → Bool
  | .setinv _ => true
  | .init | .fill _ | .sync | .setpixel _ _ _ | .line _ _ _ _ _ | .rect _ _ _ _ _ | .rectf _ _ _ _ _
  | .tri _ _ _ _ _ _ _ | .trif _ _ _ _ _ _ _ | .circ _ _ _ _ | .circf _ _ _ _ | .gotoxy _ _ | .putc _ _ _
  | .puts _ _ _ | .measure _ _ | .rdpix _ _ | .rdbyte _ | .rdstate => false

/-- The two commands that emit transport events (44_sync R210). -/
def emits : Instr → Bool
  | .init | .sync => true
  | .fill _ | .setinv _ | .setpixel _ _ _ | .line _ _ _ _ _ | .rect _ _ _ _ _ | .rectf _ _ _ _ _ | .tri _ _ _ _ _ _ _
  | .trif _ _ _ _ _ _ _ | .circ _ _ _ _ | .circf _ _ _ _ | .gotoxy _ _ | .putc _ _ _ | .puts _ _ _ | .measure _ _
  | .rdpix _ _ | .rdbyte _ | .rdstate => false

/-- The status codes that 60_exceptions R250 lists for a command besides the decoder's. -/
def statusesOf : Instr → List Status
  | .init => [.ok, .xferDropped, .initFailed]
  | .sync => [.ok, .xferDropped, .notReady]
  | .putc _ _ _ => [.ok, .textOverflow, .undefinedGlyph]
  | .puts _ _ _ => [.ok, .textOverflow, .undefinedGlyph]
  | .rdpix _ _ => [.ok, .outOfRange]
  | .rdbyte _ => [.ok, .outOfRange]
  | .fill _ => [.ok]
  | .setinv _ => [.ok]
  | .setpixel _ _ _ => [.ok]
  | .line _ _ _ _ _ => [.ok]
  | .rect _ _ _ _ _ => [.ok]
  | .rectf _ _ _ _ _ => [.ok]
  | .tri _ _ _ _ _ _ _ => [.ok]
  | .trif _ _ _ _ _ _ _ => [.ok]
  | .circ _ _ _ _ => [.ok]
  | .circf _ _ _ _ => [.ok]
  | .gotoxy _ _ => [.ok]
  | .measure _ _ => [.ok]
  | .rdstate => [.ok]

end Sys2Proof.Machine
end

