-- ==== Sys2Proof/Certificates/Slice0/Obligations.lean ====
section
/-! DEFINITION. The statements for the provers, one proposition each, in the order of OBLIGATIONS.json. -/

open Sys2Proof Sys2Proof.Machine

/-! ### Encoding -/

/-- Words written out from 30_encoding R81, R88, R89 and R91 decode to the commands they stand for. -/
def Obligations.DecodeKnownWords : Prop :=
  decode 3 [0x0001] = .command .init 1 ∧
  decode 3 [0x0102] = .command (.fill .set) 1 ∧
  decode 3 [0x0104] = .command (.setinv true) 1 ∧
  decode 3 [0x0010, 0x0005, 0x000D] = .command (.setpixel .clear 5 13) 3 ∧
  decode 3 [0x0113, 0x000A, 0x000A, 0x0014, 0x0014] = .command (.rectf .set 10 10 20 20) 5 ∧
  decode 3 [0x0115, 0, 0, 4, 0, 0, 4] = .command (.trif .set 0 0 4 0 0 4) 7 ∧
  decode 3 [0x0116, 0x0040, 0x0020, 0xFFFE] = .command (.circ .set 64 32 (-2)) 4 ∧
  decode 3 [0x0121, 0x0041] = .command (.putc .set 0 0x41) 2 ∧
  decode 3 [0x0322, 0x0048, 0x0049, 0x0000] = .command (.puts .set 1 [0x48, 0x49]) 4 ∧
  decode 3 [0x0423, 0x0000] = .command (.measure 2 []) 2 ∧
  decode 3 [0x0032] = .command .rdstate 1

/-- The words of every well-formed command, whatever follows them, decode to that command (30_encoding R81 to R89). -/
def Obligations.DecodeEncodeRoundTrip : Prop :=
  ∀ (nfonts : Nat) (i : Instr) (rest : List Word), i.wellFormed nfonts = true →
    decode nfonts (encode i ++ rest) = .command i (encode i).length

/-- Every command the decoder reads is well-formed, and the words it consumed are that command's encoding
(30_encoding R81 to R90). -/
def Obligations.EncodeDecodeRoundTrip : Prop :=
  ∀ (nfonts : Nat) (ws : List Word) (i : Instr) (n : Nat), decode nfonts ws = .command i n →
    i.wellFormed nfonts = true ∧ n ≤ ws.length ∧ ws.take n = encode i

/-- The decoder's refusals: an unassigned opcode consumes one word, and an assigned one is consumed whole and refused by
the first of the six checks that fails (30_encoding R87). -/
def Obligations.DecoderChecksInOrder : Prop :=
  ∀ (nfonts : Nat) (h : Word) (ws : List Word),
    (Opcode.ofByte? (opField h) = none → decode nfonts (h :: ws) = .reject .unassignedOpcode h 1) ∧
    ∀ (op : Opcode) (args : List Word), Opcode.ofByte? (opField h) = some op → operandWords op.shape ws = some args →
      decode nfonts (h :: ws) =
        if rsvField h ≠ 0 then .reject .reservedBits h (1 + args.length)
        else if colourField h = true ∧ op.hasColour = false then .reject .strayColour h (1 + args.length)
        else if fontField h ≠ 0 ∧ op.hasFont = false then .reject .strayFont h (1 + args.length)
        else if op.shape = .string ∧ ∀ w ∈ args, charField w ≠ 0 then .reject .noTerminator h (1 + args.length)
        else if (op.shape = .character ∨ op.shape = .string) ∧ ∃ w ∈ args, charHigh w ≠ 0 then
          .reject .characterHighByte h (1 + args.length)
        else if op.hasFont = true ∧ nfonts ≤ (fontField h).toNat then .reject .fontIndex h (1 + args.length)
        else .command (build op h args) (1 + args.length)

/-! ### The step -/

/-- A step runs the decoded command: when the words at hand decode to a command of `n` words, the command is well-formed
and the step is its `exec` on the state in which those `n` words, and nothing else, are consumed
(30_encoding R80, R87; 10_state R22; the words and their index are the model's form of the host's side, log 7). -/
def Obligations.StepRunsDecodedCommand : Prop :=
  ∀ (s : State) (i : Instr) (n : Nat), s.cfg.wf = true → s.fetch = .command i n →
    i.wellFormed s.cfg.nfonts = true ∧ step s = exec i (s.consume n) ∧
      (s.consume n).held = s.held.drop n ∧ (s.consume n).index = s.index + (n - s.held.length) ∧
      (s.consume n).text = s.text ∧ s.SameBytes (s.consume n) ∧ (s.consume n).cx = s.cx ∧ (s.consume n).cy = s.cy ∧
      (s.consume n).inv = s.inv ∧ (s.consume n).ist = s.ist ∧ (s.consume n).rstatus = s.rstatus ∧
      (s.consume n).rval = s.rval ∧ (s.consume n).raux = s.raux ∧ (s.consume n).answers = s.answers ∧
      (s.consume n).draws = s.draws ∧ (s.consume n).trace = s.trace ∧ (s.consume n).cfg = s.cfg

/-- An incomplete command waits: the words sent are held, in COLLECT when there are any, and nothing else changes, no
result register either (70_reset_and_hazards R284). THE MODEL'S CHOICES: that waiting is a next state, and with no word
more a step to the same state, is log 8 (DESIGN CHOICE; 93 U12 and 60_exceptions R268 call it stuck); that the phase is
computed from the words held, IDLE when there are none, is log 9 (DEDUCED from 10_state R32). -/
def Obligations.IncompleteCommandWaits : Prop :=
  ∀ s : State, s.cfg.wf = true → s.fetch = .incomplete →
    ∃ t, step s = .next t ∧ step t = .next t ∧ t.held = s.available ∧
      t.phase = (if s.available = [] then .idle else .collect) ∧ t.text = s.text ∧
      t.index = s.index + (s.text.length - s.index) ∧ t.rstatus = s.rstatus ∧ t.rval = s.rval ∧ t.raux = s.raux ∧
      s.SameBytes t ∧ t.cx = s.cx ∧ t.cy = s.cy ∧ t.inv = s.inv ∧ t.ist = s.ist ∧ t.answers = s.answers ∧
      t.draws = s.draws ∧ t.trace = s.trace ∧ t.cfg = s.cfg

/-- A command the decoder refuses is consumed and writes the result registers, `RVAL` the header, and nothing else
(30_encoding R87, R90; 60_exceptions R252). -/
def Obligations.RefusedCommandWritesOnlyResults : Prop :=
  ∀ (s : State) (why : Reject) (h : Word) (n : Nat), s.cfg.wf = true → s.fetch = .reject why h n →
    ∃ t, step s = .next t ∧
      t.Results (if why = .noTerminator then .stringTooLong else .illegal) (h.setWidth 32) 0 ∧
      t.held = s.held.drop n ∧ t.index = s.index + (n - s.held.length) ∧ t.text = s.text ∧ s.SameBytes t ∧
      t.cx = s.cx ∧ t.cy = s.cy ∧ t.inv = s.inv ∧ t.ist = s.ist ∧ t.answers = s.answers ∧ t.draws = s.draws ∧
      t.trace = s.trace ∧ t.cfg = s.cfg

/-- A configuration with a malformed font or no settle delay is refused in every state (00_scope R9; 60_exceptions R268; 92
D18), and under any other every step answers a next state. THE MODEL'S CHOICES in the second half: the step of an
incomplete command, which the spec calls a wait, answers a next state by log 8 (DESIGN CHOICE); INIT and SYNC complete
because the transport always answers, log 6 (DESIGN CHOICE, the premise of 70_reset_and_hazards R289). -/
def Obligations.StepRefusesExactlyMalformedConfigurations : Prop :=
  ∀ s : State,
    if (∀ ft ∈ s.cfg.fonts, fontValid ft) ∧ 1 ≤ s.cfg.settleMs then ∃ t, step s = .next t
    else step s = .refused .malformedConfiguration

/-! ### Reset and the invariant -/

/-- The state right after reset (10_state R35). -/
def Obligations.ResetState : Prop :=
  (∀ (a : Nat) (h : a < FB_BYTES), State.reset.readByte a = State.reset.cfg.fbReset[a]) ∧
    State.reset.cx = 0 ∧ State.reset.cy = 0 ∧ State.reset.inv = false ∧ State.reset.ist = .uninitialized ∧
    State.reset.rstatus = 0 ∧ State.reset.rval = 0 ∧ State.reset.raux = 0 ∧ State.reset.phase = .idle ∧
    State.reset.held = []

/-- Reset asserted in any state: the state of 10_state R35, collected words discarded, no transport event, and the
parameters as they were (70_reset_and_hazards R280, R282). That reset is a function beside `step` is log 17. -/
def Obligations.HostResetState : Prop :=
  ∀ s : State,
    (∀ (a : Nat) (h : a < FB_BYTES), (hostReset s).readByte a = s.cfg.fbReset[a]) ∧
      (hostReset s).cx = 0 ∧ (hostReset s).cy = 0 ∧ (hostReset s).inv = false ∧ (hostReset s).ist = .uninitialized ∧
      (hostReset s).rstatus = 0 ∧ (hostReset s).rval = 0 ∧ (hostReset s).raux = 0 ∧ (hostReset s).phase = .idle ∧
      (hostReset s).held = [] ∧ (hostReset s).trace = s.trace ∧ (hostReset s).cfg = s.cfg

/-- The invariant holds right after reset. -/
def Obligations.ResetMeetsInvariant : Prop := State.reset.Inv

/-- Every step keeps the invariant: a meaningful configuration, canonical memory inside the framebuffer, a status code of
10_state R27, the host's index inside its text, and no complete command left in the decoder. -/
def Obligations.StepKeepsInvariant : Prop := ∀ s t : State, s.Inv → step s = .next t → t.Inv

/-! ### The framebuffer -/

/-- SETPIXEL stores `c XOR INV` in its pixel, or changes nothing off the panel, and finishes OK (40_framebuffer R111). -/
def Obligations.SetpixelPlotsOnePixel : Prop :=
  ∀ (c : Color) (x y : Word) (s : State), ∃ t, exec (.setpixel c x y) s = .next t ∧ s.Draws t c [(x, y)]

/-- A drawing command's effect depends only on the set of panel pixels it plots, and a second plot of a pixel overrides
the first: the states are equal, not only their reads (40_framebuffer R119; 20_memory R67). -/
def Obligations.DrawingDependsOnlyOnTheSet : Prop :=
  ∀ s : State, Memory.wf s.cfg.fbReset s.fb = true →
    (∀ (c : Color) (ps qs : List Pixel), (∀ q, onPanel q = true → (q ∈ ps ↔ q ∈ qs)) → plotAll c ps s = plotAll c qs s) ∧
    (∀ (c d : Color) (p q : Pixel), p ≠ q → plotPixel c p (plotPixel d q s) = plotPixel d q (plotPixel c p s)) ∧
    (∀ (c d : Color) (p : Pixel), plotPixel c p (plotPixel d p s) = plotPixel c p s)

/-- THE MODEL'S FORM (log 2, DESIGN CHOICE): the framebuffer is held as a list of cells in a canonical form, of which the
spec says nothing. Two memories in that form that read alike at every address are equal. -/
def Obligations.CanonicalMemoryUnique : Prop :=
  ∀ (rst : Vector Byte FB_BYTES) (m n : Memory), Memory.wf rst m = true → Memory.wf rst n = true →
    (∀ a, memRead rst m a = memRead rst n a) → m = n

/-- The map from valid pixels to framebuffer bits is a bijection, with the inverse of 20_memory R52. -/
def Obligations.PixelAddressBijection : Prop :=
  (∀ p : Pixel, onPanel p = true → pixelAddr p < FB_BYTES ∧ pixelBit p < 8 ∧
    p = (BitVec.ofNat 16 (pixelAddr p % WIDTH), BitVec.ofNat 16 (8 * (pixelAddr p / WIDTH) + pixelBit p))) ∧
  ∀ a b : Nat, a < FB_BYTES → b < 8 →
    onPanel (BitVec.ofNat 16 (a % WIDTH), BitVec.ofNat 16 (8 * (a / WIDTH) + b)) = true ∧
      pixelAddr (BitVec.ofNat 16 (a % WIDTH), BitVec.ofNat 16 (8 * (a / WIDTH) + b)) = a ∧
      pixelBit (BitVec.ofNat 16 (a % WIDTH), BitVec.ofNat 16 (8 * (a / WIDTH) + b)) = b

/-- FILL writes 0xFF or 0x00 in all 1024 bytes, whatever `INV` is, and leaves everything else (40_framebuffer R112). -/
def Obligations.FillWritesEveryByte : Prop :=
  ∀ (c : Color) (s : State), ∃ t, exec (.fill c) s = .next t ∧ t.Results .ok 0 0 ∧ s.SameButFbAndResults t ∧
    ∀ a, a < FB_BYTES → t.readByte a = (match c with | .set => 0xFF | .clear => 0x00)

/-- Under `INV = 1`, FILL.CLEAR then SETPIXEL.CLEAR sets the one bit (70_reset_and_hazards R291). -/
def Obligations.FillThenSetpixelUnderInversion : Prop :=
  ∀ (s : State) (x y : Word), s.inv = true → onPanel (x, y) = true →
    ∃ t u, exec (.fill .clear) s = .next t ∧ exec (.setpixel .clear x y) t = .next u ∧
      ∀ q, onPanel q = true → u.pixel q = decide (q = (x, y))

/-- SETINV writes the inversion flag and touches nothing else (40_framebuffer R113). -/
def Obligations.SetinvWritesTheFlag : Prop :=
  ∀ (v : Bool) (s : State), ∃ t, exec (.setinv v) s = .next t ∧ t.Results .ok 0 0 ∧ t.inv = v ∧ s.SameBytes t ∧
    t.cx = s.cx ∧ t.cy = s.cy ∧ t.ist = s.ist ∧ t.held = s.held ∧ t.text = s.text ∧ t.index = s.index ∧
    t.answers = s.answers ∧ t.draws = s.draws ∧ t.trace = s.trace ∧ t.cfg = s.cfg

/-- RDPIX reads the stored bit and its packed address, or answers OUT_OF_RANGE, and changes only the result registers
(40_framebuffer R114). -/
def Obligations.RdpixReadsOnePixel : Prop :=
  ∀ (x y : Word) (s : State), ∃ t, exec (.rdpix x y) s = .next t ∧ s.SameButResults t ∧
    if x.toNat < 128 ∧ y.toNat < 64 then
      t.rstatus = statusCode .ok ∧
        t.rval = (if (s.readByte (x.toNat + y.toNat / 8 * 128)).getLsbD (y.toNat % 8) then 1 else 0) ∧
        (t.raux.extractLsb' 0 10).toNat = x.toNat + y.toNat / 8 * 128 ∧ t.raux.extractLsb' 10 2 = 0 ∧
        (t.raux.extractLsb' 12 3).toNat = y.toNat % 8 ∧ t.raux.getLsbD 15 = false
    else t.Results .outOfRange 0 0

/-- RDBYTE reads one byte of the framebuffer, or answers OUT_OF_RANGE, and changes only the result registers
(40_framebuffer R115). -/
def Obligations.RdbyteReadsOneByte : Prop :=
  ∀ (a : Word) (s : State), ∃ t, exec (.rdbyte a) s = .next t ∧ s.SameButResults t ∧
    if a.toNat < 1024 then t.Results .ok ((s.readByte a.toNat).setWidth 32) 0 else t.Results .outOfRange 0 0

/-! ### Lines and outlines -/

/-- LINE plots DrawLine's pixels, finishes OK and changes nothing else (41_raster R131). -/
def Obligations.LineDrawsItsPixels : Prop :=
  ∀ (c : Color) (x0 y0 x1 y1 : Word) (s : State),
    ∃ t, exec (.line c x0 y0 x1 y1) s = .next t ∧ s.Draws t c (linePixels x0 y0 x1 y1)

/-- DrawLine between points that clamp to one column, or to one row, plots exactly the points between them, whatever the
direction (41_raster R130). -/
def Obligations.StraightLinesAreIntervals : Prop :=
  ∀ (x0 y0 x1 y1 : Word) (p : Pixel),
    (clampTo WIDTH x0 = clampTo WIDTH x1 →
      (p ∈ linePixels x0 y0 x1 y1 ↔ coord p.1 = clampTo WIDTH x0 ∧
        min (clampTo HEIGHT y0) (clampTo HEIGHT y1) ≤ coord p.2 ∧
        coord p.2 ≤ max (clampTo HEIGHT y0) (clampTo HEIGHT y1))) ∧
    (clampTo HEIGHT y0 = clampTo HEIGHT y1 →
      (p ∈ linePixels x0 y0 x1 y1 ↔ coord p.2 = clampTo HEIGHT y0 ∧
        min (clampTo WIDTH x0) (clampTo WIDTH x1) ≤ coord p.1 ∧
        coord p.1 ≤ max (clampTo WIDTH x0) (clampTo WIDTH x1)))

/-- The laws of DrawLine: `max(dx, dy) + 1` distinct pixels inside the box of the clamped end points, both end points among
them, each next one a unit further on the major axis and at most one on the other; a sloped line runs from its first end
point to its second, a straight one is the same in both directions, and the two directions of the line between (0, 0) and
(1, 2) plot different sets (41_raster R132, items 1 to 7, R130). -/
def Obligations.LineLaws : Prop :=
  (linePixels 0 0 1 2 = [(0, 0), (0, 1), (1, 2)] ∧ linePixels 1 2 0 0 = [(1, 2), (1, 1), (0, 0)]) ∧
  ∀ x0 y0 x1 y1 : Word,
    let a := clampTo WIDTH x0
    let b := clampTo HEIGHT y0
    let c := clampTo WIDTH x1
    let d := clampTo HEIGHT y1
    let ps := linePixels x0 y0 x1 y1
    ps.length = max (gap a c) (gap b d) + 1 ∧ ps.Nodup ∧
      (BitVec.ofNat 16 a, BitVec.ofNat 16 b) ∈ ps ∧ (BitVec.ofNat 16 c, BitVec.ofNat 16 d) ∈ ps ∧
      (∀ p ∈ ps, min a c ≤ coord p.1 ∧ coord p.1 ≤ max a c ∧ min b d ≤ coord p.2 ∧ coord p.2 ≤ max b d) ∧
      (if a = c ∨ b = d then linePixels x1 y1 x0 y0 = ps
       else ps.head? = some (BitVec.ofNat 16 a, BitVec.ofNat 16 b) ∧
        ps.getLast? = some (BitVec.ofNat 16 c, BitVec.ofNat 16 d)) ∧
      ∀ (k : Nat) (p q : Pixel), ps[k]? = some p → ps[k + 1]? = some q →
        if gap b d ≤ gap a c then gap (coord p.1) (coord q.1) = 1 ∧ gap (coord p.2) (coord q.2) ≤ 1
        else gap (coord p.2) (coord q.2) = 1 ∧ gap (coord p.1) (coord q.1) ≤ 1

/-- The sloped loop of DrawLine ends by itself: allowing it more iterations than `max(dx, dy) + 1` adds no pixel, so the
model's bound cuts nothing off (41_raster R132, item 1; 60_exceptions R268). -/
def Obligations.LineLoopEnds : Prop :=
  ∀ x0 y0 x1 y1 more : Nat, x0 ≠ x1 → y0 ≠ y1 →
    let dx : Int := |(x1 : Int) - x0|
    let dy : Int := |(y1 : Int) - y0|
    let sx : Int := if x0 < x1 then 1 else -1
    let sy : Int := if y0 < y1 then 1 else -1
    let err : Int := (if dy < dx then dx else -dy).tdiv 2
    lineLoop dx dy sx sy x1 y1 ((max dx dy).toNat + 1 + more) x0 y0 err
      = lineLoop dx dy sx sy x1 y1 ((max dx dy).toNat + 1) x0 y0 err

/-- RECT plots exactly the outline of the clipped rectangle, and nothing when the corner is off the panel
(41_raster R133, R134). -/
def Obligations.RectDrawsTheOutline : Prop :=
  ∀ (c : Color) (x y w h : Word) (s : State), ∃ t ps, exec (.rect c x y w h) s = .next t ∧ s.Draws t c ps ∧
    ∀ p : Pixel, p ∈ ps ↔
      coord x < WIDTH ∧ coord y < HEIGHT ∧
      coord x ≤ coord p.1 ∧ coord p.1 ≤ min (coord x + coord w) (WIDTH - 1) ∧
      coord y ≤ coord p.2 ∧ coord p.2 ≤ min (coord y + coord h) (HEIGHT - 1) ∧
      (coord p.1 = coord x ∨ coord p.1 = min (coord x + coord w) (WIDTH - 1) ∨
        coord p.2 = coord y ∨ coord p.2 = min (coord y + coord h) (HEIGHT - 1))

/-- RECTF plots exactly the clipped rectangle, and nothing when the corner is off the panel (42_fill R160, R161). -/
def Obligations.RectfDrawsTheBox : Prop :=
  ∀ (c : Color) (x y w h : Word) (s : State), ∃ t ps, exec (.rectf c x y w h) s = .next t ∧ s.Draws t c ps ∧
    ∀ p : Pixel, p ∈ ps ↔
      coord x < WIDTH ∧ coord y < HEIGHT ∧
      coord x ≤ coord p.1 ∧ coord p.1 ≤ min (coord x + coord w) (WIDTH - 1) ∧
      coord y ≤ coord p.2 ∧ coord p.2 ≤ min (coord y + coord h) (HEIGHT - 1)

/-- TRI plots the lines 1-2, 2-3 and 3-1, each in that direction (41_raster R135). -/
def Obligations.TriDrawsThreeLines : Prop :=
  ∀ (c : Color) (x1 y1 x2 y2 x3 y3 : Word) (s : State), ∃ t, exec (.tri c x1 y1 x2 y2 x3 y3) s = .next t ∧
    s.Draws t c (linePixels x1 y1 x2 y2 ++ linePixels x2 y2 x3 y3 ++ linePixels x3 y3 x1 y1)

/-- CIRC plots the four axis pixels and the eight mirrored pixels of every iteration of R137's loop, all of whose variables
are 16-bit two's complement, finishes OK and changes nothing else; the loop runs at most `max(r, 0)` times
(41_raster R137). -/
def Obligations.CircDrawsItsPixels : Prop :=
  ∀ (c : Color) (x0 y0 r : Word) (s : State),
    ∃ (t : State) (n : Nat) (f ddFx ddFy x y : Nat → Int),
      CircleRun r n f ddFx ddFy x y ∧ n ≤ (max r.toInt 0).toNat ∧
      exec (.circ c x0 y0 r) s = .next t ∧ s.Draws t c (circPixels x0 y0 r) ∧
      circPixels x0 y0 r =
        [u16Pixel x0.toInt (y0.toInt + r.toInt), u16Pixel x0.toInt (y0.toInt - r.toInt),
         u16Pixel (x0.toInt + r.toInt) y0.toInt, u16Pixel (x0.toInt - r.toInt) y0.toInt] ++
        (List.range n).flatMap (fun k =>
          [u16Pixel (x0.toInt + x (k + 1)) (y0.toInt + y (k + 1)), u16Pixel (x0.toInt - x (k + 1)) (y0.toInt + y (k + 1)),
           u16Pixel (x0.toInt + x (k + 1)) (y0.toInt - y (k + 1)), u16Pixel (x0.toInt - x (k + 1)) (y0.toInt - y (k + 1)),
           u16Pixel (x0.toInt + y (k + 1)) (y0.toInt + x (k + 1)), u16Pixel (x0.toInt - y (k + 1)) (y0.toInt + x (k + 1)),
           u16Pixel (x0.toInt + y (k + 1)) (y0.toInt - x (k + 1)), u16Pixel (x0.toInt - y (k + 1)) (y0.toInt - x (k + 1))])

/-- The circle loop ends by itself after at most `max(r, 0)` iterations: allowing it more adds no offset
(41_raster R137; 60_exceptions R268). -/
def Obligations.CircleLoopEnds : Prop :=
  ∀ (r : Word) (more : Nat), (octantWalk r).length ≤ (signed r).toNat ∧
    circleOffsets ((signed r).toNat + more) (circleStart r) = octantWalk r

/-- A circle that fits the panel plots a set of panel pixels closed under the 8 reflections about its centre, given by
the three that generate them (41_raster R138). -/
def Obligations.CircleSymmetry : Prop :=
  ∀ x0 y0 r : Word, 0 < signed r → signed r ≤ signed x0 → signed r ≤ signed y0 → signed x0 + signed r ≤ 127 →
    signed y0 + signed r ≤ 63 →
    (∀ p ∈ circPixels x0 y0 r, onPanel p = true) ∧
      ∀ dx dy : Word, (x0 + dx, y0 + dy) ∈ circPixels x0 y0 r →
        (x0 - dx, y0 + dy) ∈ circPixels x0 y0 r ∧ (x0 + dx, y0 - dy) ∈ circPixels x0 y0 r ∧
          (x0 + dy, y0 + dx) ∈ circPixels x0 y0 r

/-! ### Fills -/

/-- TRIF plots the line from every point of R162's sweep, all of whose variables are 16-bit two's complement, to vertex 3,
finishes OK and changes nothing else (42_fill R162). -/
def Obligations.TrifDrawsItsFan : Prop :=
  ∀ (c : Color) (x1 y1 x2 y2 x3 y3 : Word) (s : State),
    ∃ (t : State) (n : Nat) (x y num : Nat → Int),
      SweepRun x1 y1 x2 y2 n x y num ∧
      trifPoints x1 y1 x2 y2 = (List.range n).map (fun k => u16Pixel (x k) (y k)) ∧
      exec (.trif c x1 y1 x2 y2 x3 y3) s = .next t ∧
      s.Draws t c ((trifPoints x1 y1 x2 y2).flatMap (fun p => linePixels p.1 p.2 x3 y3))

/-- TRIF sweeps `numpixels + 1` points, none when `numpixels` is negative; `numpixels` is the greater of the two
differences, each read as 16-bit two's complement (42_fill R162, R164). -/
def Obligations.TrifSweepCount : Prop :=
  ∀ x1 y1 x2 y2 : Word,
    let deltax : Int := (BitVec.ofInt 16 |(x2.toNat : Int) - x1.toNat|).toInt
    let deltay : Int := (BitVec.ofInt 16 |(y2.toNat : Int) - y1.toNat|).toInt
    (trifPoints x1 y1 x2 y2).length = (max deltax deltay + 1).toNat ∧ max deltax deltay ≤ 32767

/-- With vertices 1 and 2 on the panel, TRIF's sweep starts at vertex 1, ends at vertex 2 after `max(dx, dy)` steps, and
every step moves one unit on the major axis and at most one on the other (42_fill R163, items 1 and 2). -/
def Obligations.TrifSweepOnPanel : Prop :=
  ∀ x1 y1 x2 y2 : Word, onPanel (x1, y1) = true → onPanel (x2, y2) = true →
    let dx := gap (coord x1) (coord x2)
    let dy := gap (coord y1) (coord y2)
    let ps := trifPoints x1 y1 x2 y2
    ps.length = max dx dy + 1 ∧ ps.head? = some (x1, y1) ∧ ps.getLast? = some (x2, y2) ∧
      ∀ (k : Nat) (p q : Pixel), ps[k]? = some p → ps[k + 1]? = some q →
        if dy ≤ dx then gap (coord p.1) (coord q.1) = 1 ∧ gap (coord p.2) (coord q.2) ≤ 1
        else gap (coord p.2) (coord q.2) = 1 ∧ gap (coord p.1) (coord q.1) ≤ 1

/-- CIRCF plots the four axis pixels, the centre row and four spans in every iteration of R137's loop, finishes OK and
changes nothing else (42_fill R165). -/
def Obligations.CircfDrawsItsPixels : Prop :=
  ∀ (c : Color) (x0 y0 r : Word) (s : State),
    ∃ (t : State) (n : Nat) (f ddFx ddFy x y : Nat → Int),
      CircleRun r n f ddFx ddFy x y ∧
      exec (.circf c x0 y0 r) s = .next t ∧ s.Draws t c (circfPixels x0 y0 r) ∧
      circfPixels x0 y0 r = axisPixels x0 y0 r ++ circfSpans x0 y0 r ∧
      axisPixels x0 y0 r =
        [u16Pixel x0.toInt (y0.toInt + r.toInt), u16Pixel x0.toInt (y0.toInt - r.toInt),
         u16Pixel (x0.toInt + r.toInt) y0.toInt, u16Pixel (x0.toInt - r.toInt) y0.toInt] ∧
      circfSpans x0 y0 r =
        linePixels (BitVec.ofInt 16 (x0.toInt - r.toInt)) y0 (BitVec.ofInt 16 (x0.toInt + r.toInt)) y0 ++
        (List.range n).flatMap (fun k =>
          let left (v : Int) : Word := BitVec.ofInt 16 (x0.toInt - v)
          let right (v : Int) : Word := BitVec.ofInt 16 (x0.toInt + v)
          let below (v : Int) : Word := BitVec.ofInt 16 (y0.toInt + v)
          let above (v : Int) : Word := BitVec.ofInt 16 (y0.toInt - v)
          linePixels (left (x (k + 1))) (below (y (k + 1))) (right (x (k + 1))) (below (y (k + 1))) ++
          linePixels (right (x (k + 1))) (above (y (k + 1))) (left (x (k + 1))) (above (y (k + 1))) ++
          linePixels (right (y (k + 1))) (below (x (k + 1))) (left (y (k + 1))) (below (x (k + 1))) ++
          linePixels (right (y (k + 1))) (above (x (k + 1))) (left (y (k + 1))) (above (x (k + 1))))

/-- For a disc that fits the panel the four axis pixels add nothing to the spans (42_fill R166). -/
def Obligations.CircfAxisRedundant : Prop :=
  ∀ x0 y0 r : Word, 0 < signed r → signed r ≤ signed x0 → signed r ≤ signed y0 → signed x0 + signed r ≤ 127 →
    signed y0 + signed r ≤ 63 → ∀ p ∈ axisPixels x0 y0 r, p ∈ circfSpans x0 y0 r

/-- A disc that fits the panel is closed under the 8 reflections about its centre, given by the three that generate them
(42_fill R166). -/
def Obligations.CircfSymmetry : Prop :=
  ∀ x0 y0 r : Word, 0 < signed r → signed r ≤ signed x0 → signed r ≤ signed y0 → signed x0 + signed r ≤ 127 →
    signed y0 + signed r ≤ 63 →
    ∀ dx dy : Word, (x0 + dx, y0 + dy) ∈ circfPixels x0 y0 r →
      (x0 - dx, y0 + dy) ∈ circfPixels x0 y0 r ∧ (x0 + dx, y0 - dy) ∈ circfPixels x0 y0 r ∧
        (x0 + dy, y0 + dx) ∈ circfPixels x0 y0 r

/-- The edge behaviour of CIRCF at the examples of 42_fill R167: rows below and above the panel land on row 63, and a span
end left of the panel runs to the right edge. -/
def Obligations.CircfEdgeExamples : Prop :=
  (∀ x : Nat, x < 128 → ((BitVec.ofNat 16 x, 63) ∈ circfPixels 64 60 6 ↔ 59 ≤ x ∧ x ≤ 69)) ∧
  (∀ x : Nat, x < 128 → ((BitVec.ofNat 16 x, 63) ∈ circfPixels 64 2 5 ↔ 60 ≤ x ∧ x ≤ 68)) ∧
  (∀ x : Nat, x < 128 → ((BitVec.ofNat 16 x, 32) ∈ circfPixels 2 32 5 ↔ 7 ≤ x))

/-! ### Text -/

/-- GOTOXY stores any two words in the cursor and touches nothing else (43_text R180). -/
def Obligations.GotoxyStoresTheCursor : Prop :=
  ∀ (x y : Word) (s : State), ∃ t, exec (.gotoxy x y) s = .next t ∧ t.Results .ok 0 0 ∧ t.cx = x ∧ t.cy = y ∧
    s.SameBytes t ∧ t.inv = s.inv ∧ t.ist = s.ist ∧ t.held = s.held ∧ t.text = s.text ∧ t.index = s.index ∧
    t.answers = s.answers ∧ t.draws = s.draws ∧ t.trace = s.trace ∧ t.cfg = s.cfg

/-- PUTC refused: TEXT_OVERFLOW at the edge, which is tested first, else UNDEFINED_GLYPH outside the font's range; `RVAL` is
the character, and nothing but the result registers changes (43_text R182, R183). -/
def Obligations.PutcRefusals : Prop :=
  ∀ (c : Color) (f : BitVec 3) (ch : Byte) (s : State) (ft : Font), s.cfg.fonts[f.toNat]? = some ft →
    (s.AtEdge ft → ∃ t, exec (.putc c f ch) s = .next t ∧ s.SameButResults t ∧
      t.Results .textOverflow (ch.setWidth 32) 0) ∧
    (¬ s.AtEdge ft → ¬ hasGlyph ft ch → ∃ t, exec (.putc c f ch) s = .next t ∧ s.SameButResults t ∧
      t.Results .undefinedGlyph (ch.setWidth 32) 0)

/-- PUTC drawn: OK with the character, `CX` advanced by the font's width, every pixel of the cell painted with the colour
or its complement as the glyph's bit says, through `INV`, and nothing else changed. A cell whose rows run past 65535, which
only a font higher than 65472 rows has, wraps and is left out of the pixel law (43_text R182, R183, R186; 20_memory R55,
R56). -/
def Obligations.PutcPaintsTheCell : Prop :=
  ∀ (c : Color) (f : BitVec 3) (ch : Byte) (s : State) (ft : Font), s.cfg.fonts[f.toNat]? = some ft → fontValid ft →
    ¬ s.AtEdge ft → hasGlyph ft ch →
    ∃ t, exec (.putc c f ch) s = .next t ∧ t.Results .ok (ch.setWidth 32) 0 ∧ t.cx = s.cx + BitVec.ofNat 16 ft.fw ∧
      s.SameButTextAndResults t ∧
      (coord s.cy + ft.fh ≤ 65536 →
        (∀ i j, i < ft.fh → j < ft.fw → ∃ row, ft.rows[(ch.toNat - ft.amin) * ft.fh + i]? = some row ∧
          ∀ q : Pixel, onPanel q = true → coord q.1 = coord s.cx + j → coord q.2 = coord s.cy + i →
            t.pixel q = storedBit (if row.getLsbD (15 - j) then c else notColour c) s.inv) ∧
        (∀ q, onPanel q = true → ¬ s.InCell ft q → t.pixel q = s.pixel q) ∧
        (∀ a, (∀ q, onPanel q = true → s.InCell ft q → pixelAddr q ≠ a) → t.readByte a = s.readByte a))

/-- PUTS runs PUTC on its characters in order and stops at the first that fails: there is a `k` such that the first `k`
characters drew, with no rollback; the result is OK with 0 and `n` when that is all of them, else the failing
character's status, the character and `k` (43_text R184). -/
def Obligations.PutsRunsPutcInOrder : Prop :=
  ∀ (c : Color) (f : BitVec 3) (str : List Byte) (s : State), f.toNat < s.cfg.nfonts →
    ∃ (t : State) (k : Nat) (u : Nat → State), exec (.puts c f str) s = .next t ∧ u 0 = s ∧ k ≤ str.length ∧
      (∀ j (h : j < str.length), j < k →
        exec (.putc c f str[j]) (u j) = .next (u (j + 1)) ∧ (u (j + 1)).rstatus = statusCode .ok) ∧
      if h : k < str.length then
        ∃ v, exec (.putc c f str[k]) (u k) = .next v ∧ v.rstatus ≠ statusCode .ok ∧
          t = { u k with rstatus := v.rstatus, rval := str[k].setWidth 32, raux := BitVec.ofNat 16 k }
      else t = { u k with rstatus := statusCode .ok, rval := 0, raux := BitVec.ofNat 16 str.length }

/-- PUTS advances `CX` by the font's width for each of the `RAUX` characters it drew, leaves `CY`, and touches nothing else
but `FB` and the result registers; an OK one drew all its characters; and in `FB` no pixel and no byte changes outside the
cells of those characters (for cells whose rows do not run past 65535) (43_text R184, R187, R188). -/
def Obligations.PutsAdvancesTheCursor : Prop :=
  ∀ (c : Color) (f : BitVec 3) (str : List Byte) (s : State) (ft : Font), s.cfg.fonts[f.toNat]? = some ft →
    ∃ t, exec (.puts c f str) s = .next t ∧ t.cx = s.cx + t.raux * BitVec.ofNat 16 ft.fw ∧
      s.SameButTextAndResults t ∧
      (t.rstatus = statusCode .ok → t.rval = 0 ∧ t.raux = BitVec.ofNat 16 str.length) ∧
      (fontValid ft → coord s.cy + ft.fh ≤ 65536 →
        (∀ q, onPanel q = true → ¬ s.InRun ft t.raux.toNat q → t.pixel q = s.pixel q) ∧
        ∀ a, (∀ q, onPanel q = true → s.InRun ft t.raux.toNat q → pixelAddr q ≠ a) → t.readByte a = s.readByte a)

/-- MEASURE returns `n * fw` and `fh` and changes only the result registers (43_text R185). For a height that is no 16-bit
value the spec states no `RAUX`, and the statement says none (log 19). -/
def Obligations.MeasureReturnsTheSize : Prop :=
  ∀ (f : BitVec 3) (str : List Byte) (s : State) (ft : Font), s.cfg.fonts[f.toNat]? = some ft →
    ∃ t, exec (.measure f str) s = .next t ∧ s.SameButResults t ∧ t.rstatus = statusCode .ok ∧
      (ft.fh ≤ 65535 → t.raux.toNat = ft.fh) ∧ t.rval = BitVec.ofNat 32 (str.length * ft.fw) ∧
      (fontValid ft → str.length ≤ MAXSTR → t.rval.toNat = str.length * ft.fw ∧ t.rval.toNat ≤ 4080)

/-- THE MODEL'S CHOICE (log 11): a text command whose font index names no font, which no decoded command has, ends as the
decoder refuses it, with ILLEGAL and its header, and changes only the result registers. -/
def Obligations.MissingFontIsIllegal : Prop :=
  ∀ (c : Color) (f : BitVec 3) (ch : Byte) (str : List Byte) (s : State), s.cfg.fonts[f.toNat]? = none →
    ∀ i ∈ [Instr.putc c f ch, Instr.puts c f str, Instr.measure f str],
      ∃ t, exec i s = .next t ∧ s.SameButResults t ∧ t.Results .illegal (i.header.setWidth 32) 0

/-! ### The framer, the sequencer and the transport -/

/-- SYNC: NOT_READY and no event in Uninitialized; in Ready the 32 frames of 44_sync R215, page `p`'s data frame carrying
`FB[128p .. 128p + 127]` as it stood at the start, are offered in order whatever the answers, and the result is OK, or XFER_DROPPED with the number of frames dropped and the mask of their pages. No other state changes
(44_sync R222). -/
def Obligations.SyncOffersEveryFrame : Prop :=
  ∀ s : State, ∃ t, exec .sync s = .next t ∧ s.SameBytes t ∧ t.cx = s.cx ∧ t.cy = s.cy ∧ t.inv = s.inv ∧ t.ist = s.ist ∧
    t.held = s.held ∧ t.text = s.text ∧ t.index = s.index ∧ t.cfg = s.cfg ∧
    match s.ist with
    | .uninitialized => t.Results .notReady 0 0 ∧ t.answers = s.answers ∧ t.draws = s.draws ∧ t.trace = s.trace
    | .ready =>
      ∃ outs : List (Bool × Bool), outs.length = 32 ∧ t.trace = s.trace ++ offered (syncWireFrames s.cfg s.pageOf) outs ∧
        if drops outs = 0 then t.Results .ok 0 0
        else t.rstatus = statusCode .xferDropped ∧ t.rval = BitVec.ofNat 32 (drops outs) ∧
          ∀ b, b < 16 → t.raux.getLsbD b = (decide (b < 8) && pageDropped outs b)

/-- The transport decides: whatever 32 outcomes its next answers spell, a SYNC in Ready has exactly those outcomes and draws
exactly those answers (60_exceptions R266; 44_sync R211, R215; the list of answers to come is the model's form, log 5). -/
def Obligations.SyncFollowsTheAnswers : Prop :=
  ∀ (s : State) (outs : List (Bool × Bool)) (rest : List Bool), s.ist = .ready → outs.length = 32 →
    s.answers = answersOf outs ++ rest →
    ∃ t, exec .sync s = .next t ∧ t.trace = s.trace ++ offered (syncWireFrames s.cfg s.pageOf) outs ∧ t.answers = rest ∧
      t.draws = s.draws + (answersOf outs).length

/-- FILL.SET then SYNC in Ready with every answer positive emits 64 events, the 32 frames of 44_sync R215, every data frame
0x40 followed by 128 bytes 0xFF (44_sync R216). -/
def Obligations.FillThenSyncFrames : Prop :=
  ∀ (s : State) (rest : List Bool), s.ist = .ready → s.answers = List.replicate 64 true ++ rest →
    ∃ t u, exec (.fill .set) s = .next t ∧ exec .sync t = .next u ∧ u.Results .ok 0 0 ∧
      u.trace = s.trace ++ (List.range 8).flatMap (fun p =>
        [.probe true, .tx .cmd [0x00, s.cfg.pageCmd ||| BitVec.ofNat 8 p] true,
         .probe true, .tx .cmd [0x00, s.cfg.colLoCmd] true,
         .probe true, .tx .cmd [0x00, s.cfg.colHiCmd] true,
         .probe true, .tx .data (0x40 :: List.replicate 128 0xFF) true])

/-- INIT: a setup that fails ends INIT_FAILED with that one event and no other effect; otherwise the settle delay, the
configuration frames, the clear, the 32 frames of the blank framebuffer, the cursor home and Ready, whatever is dropped,
and the result is OK, or XFER_DROPPED with the number dropped, the page mask and bit 8 for the configuration frames
(44_sync R221). A count that is no 32-bit value, which only an `INIT_CMDS` of 2^32 bytes or so gives, has no result in the
spec, and the statement says none (log 20). -/
def Obligations.InitRunsTheSequence : Prop :=
  ∀ s : State, ∃ t, exec .init s = .next t ∧ t.inv = s.inv ∧ t.held = s.held ∧ t.text = s.text ∧ t.index = s.index ∧
    t.cfg = s.cfg ∧
    if nextAnswer s then
      t.cx = 0 ∧ t.cy = 0 ∧ t.ist = .ready ∧ (∀ a, a < FB_BYTES → t.readByte a = 0) ∧
        ∃ first pages : List (Bool × Bool), first.length = s.cfg.initCmds.length ∧ pages.length = 32 ∧
          t.trace = s.trace ++ [.setup true, .delay s.cfg.settleMs]
            ++ offered (s.cfg.initCmds.map (fun b => (.cmd, [0x00, b]))) first
            ++ offered (syncWireFrames s.cfg (fun _ => List.replicate 128 0)) pages ∧
          if drops first + drops pages = 0 then t.Results .ok 0 0
          else t.rstatus = statusCode .xferDropped ∧
            (drops first + drops pages < 2 ^ 32 → t.rval.toNat = drops first + drops pages) ∧
            ∀ b, b < 16 → t.raux.getLsbD b =
              ((decide (b < 8) && pageDropped pages b) || (decide (b = 8) && decide (drops first ≠ 0)))
    else
      t.Results .initFailed 0 0 ∧ s.SameBytes t ∧ t.cx = s.cx ∧ t.cy = s.cy ∧ t.ist = s.ist ∧
        t.trace = s.trace ++ [.setup false] ∧ t.answers = s.answers.tail ∧ t.draws = s.draws + 1

/-- INIT with 28 configuration bytes and every answer positive emits 122 events and ends OK in Ready (44_sync R221). -/
def Obligations.InitAllPositive : Prop :=
  ∀ (s : State) (rest : List Bool), s.cfg.initCmds.length = 28 → s.answers = List.replicate 121 true ++ rest →
    ∃ t evs, exec .init s = .next t ∧ t.Results .ok 0 0 ∧ t.ist = .ready ∧ t.answers = rest ∧
      t.trace = s.trace ++ evs ∧ evs.length = 122

/-- Dropped-frame accounting is exact: after SYNC or INIT, `RVAL` counts the failed probes and transmissions among the
events the command emitted, and the status is XFER_DROPPED exactly when there is one (44_sync R224); log 20 for a count that
is no 32-bit value. -/
def Obligations.DropsAreCountedExactly : Prop :=
  ∀ s : State, ∀ i ∈ [Instr.sync, Instr.init], ∃ t evs, exec i s = .next t ∧ t.trace = s.trace ++ evs ∧
    (dropCount evs < 2 ^ 32 → t.rval.toNat = dropCount evs) ∧ (t.rstatus = statusCode .xferDropped ↔ dropCount evs ≠ 0)

/-- RDSTATE returns the cursor, `INV` and `IST` and changes only the result registers (44_sync R225). -/
def Obligations.RdstateReadsTheDisplayState : Prop :=
  ∀ s : State, ∃ t, exec .rdstate s = .next t ∧ s.SameButResults t ∧ t.rstatus = statusCode .ok ∧
    t.rval.extractLsb' 0 16 = s.cx ∧ t.rval.extractLsb' 16 16 = s.cy ∧ t.raux.getLsbD 0 = s.inv ∧
    t.raux.getLsbD 1 = decide (s.ist = .ready) ∧ t.raux.extractLsb' 2 14 = 0

/-! ### The whole machine -/

/-- Only INIT and SYNC emit transport events and draw answers (44_sync R210). -/
def Obligations.OnlyInitAndSyncEmit : Prop :=
  ∀ (i : Instr) (s : State), emits i = false →
    ∃ t, exec i s = .next t ∧ t.trace = s.trace ∧ t.answers = s.answers ∧ t.draws = s.draws

/-- The Uninitialized/Ready state machine: INIT whose setup succeeds enters Ready, reset leaves it, and nothing else moves
it (44_sync R217). -/
def Obligations.ReadyStateMachine : Prop :=
  (∀ s : State, (hostReset s).ist = .uninitialized) ∧
    ∀ (i : Instr) (s : State), ∃ t, exec i s = .next t ∧
      t.ist = if i = .init ∧ nextAnswer s = true then .ready else s.ist

/-- No command writes a parameter, nor does any step, a host's word or reset (70_reset_and_hazards R282). -/
def Obligations.ConfigurationNeverWritten : Prop :=
  (∀ (i : Instr) (s : State), ∃ t, exec i s = .next t ∧ t.cfg = s.cfg) ∧
    (∀ s t : State, step s = .next t → t.cfg = s.cfg) ∧
    ∀ (s : State) (ws : List Word), (hostReset s).cfg = s.cfg ∧ (hostWrite ws s).cfg = s.cfg

/-- Which commands can write `INV`, `CX`, `CY` and the framebuffer: every other leaves them as they were
(10_state R23, R24, R30). -/
def Obligations.RegisterWriters : Prop :=
  ∀ (i : Instr) (s : State), ∃ t, exec i s = .next t ∧ (writesInv i = false → t.inv = s.inv) ∧
    (writesCx i = false → t.cx = s.cx) ∧ (writesCy i = false → t.cy = s.cy) ∧ (writesBytes i = false → s.SameBytes t)

/-- A decoded command ends with one of the status codes listed for it (60_exceptions R250). -/
def Obligations.StatusCodesByCommand : Prop :=
  ∀ (i : Instr) (s : State), i.wellFormed s.cfg.nfonts = true →
    ∃ t, exec i s = .next t ∧ ∃ st ∈ statusesOf i, t.rstatus = statusCode st

/-- The result registers are never read and always written: their contents before a command change nothing after it
(10_state R26, R29). -/
def Obligations.ResultRegistersAreNeverRead : Prop :=
  ∀ (i : Instr) (s : State) (st : Byte) (v : BitVec 32) (a : Word),
    ∃ t, exec i s = .next t ∧ exec i { s with rstatus := st, rval := v, raux := a } = .next t

/-- Every command but SYNC, INIT and RDSTATE, which reads `IST` back, behaves identically in both states of the machine
(44_sync R218; 10_state R25). -/
def Obligations.DrawingNeedsNoInit : Prop :=
  ∀ (i : Instr) (s : State) (st : SyncState), i ≠ .init → i ≠ .sync → i ≠ .rdstate →
    ∃ t, exec i s = .next t ∧ exec i { s with ist := st } = .next { t with ist := st }

/-! ### DrawLine whole -/

/-- DrawLine: the end points clamped, the vertical case first, then the horizontal one, else R130's loop with its error
term, from the first end point to the second (41_raster R130). -/
def Obligations.DrawLineFollowsTheRule : Prop :=
  ∀ x0 y0 x1 y1 : Word,
    let a : Nat := if 128 ≤ x0.toNat then 127 else x0.toNat
    let b : Nat := if 64 ≤ y0.toNat then 63 else y0.toNat
    let c : Nat := if 128 ≤ x1.toNat then 127 else x1.toNat
    let d : Nat := if 64 ≤ y1.toNat then 63 else y1.toNat
    if a = c then
      linePixels x0 y0 x1 y1 = (List.range (max b d - min b d + 1)).map (fun i => u16Pixel a (min b d + i : Nat))
    else if b = d then
      linePixels x0 y0 x1 y1 = (List.range (max a c - min a c + 1)).map (fun i => u16Pixel (min a c + i : Nat) b)
    else
      ∃ (n : Nat) (x y err : Nat → Int), LineRun a b c d n x y err ∧
        linePixels x0 y0 x1 y1 = (List.range (n + 1)).map (fun k => u16Pixel (x k) (y k))
end

