-- ==== Sys2Proof/Laws/Decode.lean ====
section
/-! SUPPORT. The fields of an encoded header, of a character word and of a string, and the operand words at the front of a
word sequence. -/

namespace Sys2Proof

/-- A header bit by bit: OP, then C, then F, then zeros (30_encoding R81). -/
theorem getLsbD_encodeHeader (op : Byte) (c : Bool) (f : BitVec 3) (i : Nat) :
    (encodeHeader op c f).getLsbD i
      = if i < 8 then op.getLsbD i else if i < 9 then c else if i < 12 then f.getLsbD (i - 9) else false := by
  refine Eq.trans (BitVec.getLsbD_append (x := 0#4 ++ f ++ BitVec.ofBool c) (y := op) (i := i)) ?_
  rw [BitVec.getLsbD_append, BitVec.getLsbD_append]
  by_cases h1 : i < 8
  · simp [h1]
  · by_cases h2 : i < 9
    · have : i = 8 := by omega
      simp [this]
    · by_cases h3 : i < 12
      · have e1 : ¬ i - 8 < 1 := by omega
        have e2 : i - 8 - 1 < 3 := by omega
        have e3 : i - 8 - 1 = i - 9 := by omega
        simp [h1, h2, h3, e1, e3, show i - 9 < 3 by omega]
      · have e1 : ¬ i - 8 < 1 := by omega
        have e2 : ¬ i - 8 - 1 < 3 := by omega
        simp [h1, h2, h3, e1, e2]

@[simp] theorem opField_encodeHeader (op : Byte) (c : Bool) (f : BitVec 3) : opField (encodeHeader op c f) = op := by
  apply BitVec.eq_of_getLsbD_eq
  intro i hi
  simp only [opField, BitVec.getLsbD_extractLsb', hi, Nat.zero_add, getLsbD_encodeHeader, if_true, decide_true,
    Bool.true_and]

@[simp] theorem colourField_encodeHeader (op : Byte) (c : Bool) (f : BitVec 3) :
    colourField (encodeHeader op c f) = c := by
  simp only [colourField, getLsbD_encodeHeader]
  rfl

@[simp] theorem fontField_encodeHeader (op : Byte) (c : Bool) (f : BitVec 3) :
    fontField (encodeHeader op c f) = f := by
  apply BitVec.eq_of_getLsbD_eq
  intro i hi
  have h1 : ¬ 9 + i < 8 := by omega
  have h2 : ¬ 9 + i < 9 := by omega
  have h3 : 9 + i < 12 := by omega
  have h4 : 9 + i - 9 = i := by omega
  simp only [fontField, BitVec.getLsbD_extractLsb', hi, getLsbD_encodeHeader, h1, h2, h3, h4, if_true, if_false,
    decide_true, Bool.true_and]

@[simp] theorem rsvField_encodeHeader (op : Byte) (c : Bool) (f : BitVec 3) :
    rsvField (encodeHeader op c f) = 0#4 := by
  apply BitVec.eq_of_getLsbD_eq
  intro i hi
  have h1 : ¬ 12 + i < 8 := by omega
  have h2 : ¬ 12 + i < 9 := by omega
  have h3 : ¬ 12 + i < 12 := by omega
  simp only [rsvField, BitVec.getLsbD_extractLsb', getLsbD_encodeHeader, h1, h2, h3, if_false, Bool.and_false,
    BitVec.getLsbD_zero]

/-- A header is the encoding of its fields when the reserved bits are 0 (30_encoding R81). -/
theorem encodeHeader_fields (h : Word) (hr : rsvField h = 0) :
    encodeHeader (opField h) (colourField h) (fontField h) = h := by
  apply BitVec.eq_of_getLsbD_eq
  intro i hi
  rw [getLsbD_encodeHeader]
  by_cases h1 : i < 8
  · simp [h1, opField]
  · by_cases h2 : i < 9
    · have : i = 8 := by omega
      simp [this, colourField]
    · by_cases h3 : i < 12
      · have e1 : i - 9 < 3 := by omega
        have e2 : 9 + (i - 9) = i := by omega
        simp [h1, h2, h3, fontField, e1, e2]
      · have hb := congrArg (fun v : BitVec 4 => v.getLsbD (i - 12)) hr
        have e1 : i - 12 < 4 := by omega
        have e2 : 12 + (i - 12) = i := by omega
        simp only [rsvField, BitVec.getLsbD_extractLsb', e1, e2, decide_true, Bool.true_and] at hb
        simp only [h1, h2, h3, if_false, hb]
        exact BitVec.getLsbD_zero.symm

/-- Every opcode's byte names it. -/
@[simp] theorem ofByte?_toByte (op : Opcode) : Opcode.ofByte? op.toByte = some op := by
  cases op <;> decide

/-- A byte that names an opcode is that opcode's. -/
theorem toByte_of_ofByte? {b : Byte} {op : Opcode} (h : Opcode.ofByte? b = some op) : op.toByte = b := by
  simpa using List.find?_some h

@[simp] theorem charField_charWord (ch : Byte) : charField (charWord ch) = ch := by
  apply BitVec.eq_of_getLsbD_eq
  intro i hi
  simp [charField, charWord, hi, show i < 16 by omega]

@[simp] theorem charHigh_charWord (ch : Byte) : charHigh (charWord ch) = 0 := by
  apply BitVec.eq_of_getLsbD_eq
  intro i hi
  simp [charHigh, charWord, hi]

@[simp] theorem isTerminator_zero : isTerminator 0#16 = true := by decide

theorem isTerminator_charWord (ch : Byte) : isTerminator (charWord ch) = decide (ch = 0) := by
  simp [isTerminator]

/-- Operand words found are those at the front, exactly `n` of them. -/
theorem fixedWords_eq_some {n : Nat} {ws args : List Word} :
    fixedWords n ws = some args ↔ n ≤ ws.length ∧ args = ws.take n := by
  induction n generalizing ws args with
  | zero => simp [fixedWords, eq_comm]
  | succ n ih =>
    cases ws with
    | nil => simp [fixedWords]
    | cons w ws =>
      simp only [fixedWords, Option.map_eq_some_iff, ih, List.length_cons, List.take_succ_cons]
      constructor
      · rintro ⟨l, ⟨h, rfl⟩, rfl⟩
        exact ⟨by omega, rfl⟩
      · rintro ⟨h, rfl⟩
        exact ⟨_, ⟨by omega, rfl⟩, rfl⟩

/-- The words of a string are found at the front, followed by anything (30_encoding R86). -/
theorem stringWords_stringCode {n : Nat} {str : List Byte} (rest : List Word) (hl : str.length < n)
    (h0 : ∀ ch ∈ str, ch ≠ 0) : stringWords n (stringCode str ++ rest) = some (stringCode str) := by
  induction str generalizing n with
  | nil =>
    cases n with
    | zero => simp at hl
    | succ n => rfl
  | cons ch str ih =>
    cases n with
    | zero => simp at hl
    | succ n =>
      have hne : isTerminator (charWord ch) = false := by
        simpa [isTerminator_charWord] using h0 ch List.mem_cons_self
      have := ih (n := n) (by simpa using hl) fun d hd => h0 d (List.mem_cons_of_mem _ hd)
      have e : stringCode (ch :: str) = charWord ch :: stringCode str := rfl
      simp only [e, List.cons_append, stringWords, hne, this, Option.map_some]
      rfl

@[simp] theorem stringOf_stringCode (str : List Byte) : stringOf (stringCode str) = str := by
  simp [stringOf, stringCode, Function.comp_def]

end Sys2Proof
end

