-- ==== Sys2Proof/Laws/State.lean ====
section
/-! SUPPORT. One lemma per field per update of the state, each true by unfolding. -/

namespace Sys2Proof.Machine

-- One small lemma after the other: a thread for each at once exhausts the memory limit of the check.
set_option Elab.async false

/-! ### finish -/

@[simp] theorem finish_fb (st : Status) (v : BitVec 32) (a : Word) (s : State) : (finish st v a s).fb = s.fb := rfl
@[simp] theorem finish_cx (st : Status) (v : BitVec 32) (a : Word) (s : State) : (finish st v a s).cx = s.cx := rfl
@[simp] theorem finish_cy (st : Status) (v : BitVec 32) (a : Word) (s : State) : (finish st v a s).cy = s.cy := rfl
@[simp] theorem finish_inv (st : Status) (v : BitVec 32) (a : Word) (s : State) : (finish st v a s).inv = s.inv := rfl
@[simp] theorem finish_ist (st : Status) (v : BitVec 32) (a : Word) (s : State) : (finish st v a s).ist = s.ist := rfl
@[simp] theorem finish_rstatus (st : Status) (v : BitVec 32) (a : Word) (s : State) : (finish st v a s).rstatus = statusCode st := rfl
@[simp] theorem finish_rval (st : Status) (v : BitVec 32) (a : Word) (s : State) : (finish st v a s).rval = v := rfl
@[simp] theorem finish_raux (st : Status) (v : BitVec 32) (a : Word) (s : State) : (finish st v a s).raux = a := rfl
@[simp] theorem finish_held (st : Status) (v : BitVec 32) (a : Word) (s : State) : (finish st v a s).held = s.held := rfl
@[simp] theorem finish_text (st : Status) (v : BitVec 32) (a : Word) (s : State) : (finish st v a s).text = s.text := rfl
@[simp] theorem finish_index (st : Status) (v : BitVec 32) (a : Word) (s : State) : (finish st v a s).index = s.index := rfl
@[simp] theorem finish_answers (st : Status) (v : BitVec 32) (a : Word) (s : State) : (finish st v a s).answers = s.answers := rfl
@[simp] theorem finish_draws (st : Status) (v : BitVec 32) (a : Word) (s : State) : (finish st v a s).draws = s.draws := rfl
@[simp] theorem finish_trace (st : Status) (v : BitVec 32) (a : Word) (s : State) : (finish st v a s).trace = s.trace := rfl
@[simp] theorem finish_cfg (st : Status) (v : BitVec 32) (a : Word) (s : State) : (finish st v a s).cfg = s.cfg := rfl

/-! ### raise -/

@[simp] theorem raise_fb (st : Status) (v : BitVec 32) (s : State) : (raise st v s).fb = s.fb := rfl
@[simp] theorem raise_cx (st : Status) (v : BitVec 32) (s : State) : (raise st v s).cx = s.cx := rfl
@[simp] theorem raise_cy (st : Status) (v : BitVec 32) (s : State) : (raise st v s).cy = s.cy := rfl
@[simp] theorem raise_inv (st : Status) (v : BitVec 32) (s : State) : (raise st v s).inv = s.inv := rfl
@[simp] theorem raise_ist (st : Status) (v : BitVec 32) (s : State) : (raise st v s).ist = s.ist := rfl
@[simp] theorem raise_rstatus (st : Status) (v : BitVec 32) (s : State) : (raise st v s).rstatus = statusCode st := rfl
@[simp] theorem raise_rval (st : Status) (v : BitVec 32) (s : State) : (raise st v s).rval = v := rfl
@[simp] theorem raise_raux (st : Status) (v : BitVec 32) (s : State) : (raise st v s).raux = 0 := rfl
@[simp] theorem raise_held (st : Status) (v : BitVec 32) (s : State) : (raise st v s).held = s.held := rfl
@[simp] theorem raise_text (st : Status) (v : BitVec 32) (s : State) : (raise st v s).text = s.text := rfl
@[simp] theorem raise_index (st : Status) (v : BitVec 32) (s : State) : (raise st v s).index = s.index := rfl
@[simp] theorem raise_answers (st : Status) (v : BitVec 32) (s : State) : (raise st v s).answers = s.answers := rfl
@[simp] theorem raise_draws (st : Status) (v : BitVec 32) (s : State) : (raise st v s).draws = s.draws := rfl
@[simp] theorem raise_trace (st : Status) (v : BitVec 32) (s : State) : (raise st v s).trace = s.trace := rfl
@[simp] theorem raise_cfg (st : Status) (v : BitVec 32) (s : State) : (raise st v s).cfg = s.cfg := rfl

/-! ### writeByte -/

@[simp] theorem writeByte_fb (s : State) (a : Nat) (v : Byte) : (s.writeByte a v).fb = memWrite s.cfg.fbReset s.fb a v := rfl
@[simp] theorem writeByte_cx (s : State) (a : Nat) (v : Byte) : (s.writeByte a v).cx = s.cx := rfl
@[simp] theorem writeByte_cy (s : State) (a : Nat) (v : Byte) : (s.writeByte a v).cy = s.cy := rfl
@[simp] theorem writeByte_inv (s : State) (a : Nat) (v : Byte) : (s.writeByte a v).inv = s.inv := rfl
@[simp] theorem writeByte_ist (s : State) (a : Nat) (v : Byte) : (s.writeByte a v).ist = s.ist := rfl
@[simp] theorem writeByte_rstatus (s : State) (a : Nat) (v : Byte) : (s.writeByte a v).rstatus = s.rstatus := rfl
@[simp] theorem writeByte_rval (s : State) (a : Nat) (v : Byte) : (s.writeByte a v).rval = s.rval := rfl
@[simp] theorem writeByte_raux (s : State) (a : Nat) (v : Byte) : (s.writeByte a v).raux = s.raux := rfl
@[simp] theorem writeByte_held (s : State) (a : Nat) (v : Byte) : (s.writeByte a v).held = s.held := rfl
@[simp] theorem writeByte_text (s : State) (a : Nat) (v : Byte) : (s.writeByte a v).text = s.text := rfl
@[simp] theorem writeByte_index (s : State) (a : Nat) (v : Byte) : (s.writeByte a v).index = s.index := rfl
@[simp] theorem writeByte_answers (s : State) (a : Nat) (v : Byte) : (s.writeByte a v).answers = s.answers := rfl
@[simp] theorem writeByte_draws (s : State) (a : Nat) (v : Byte) : (s.writeByte a v).draws = s.draws := rfl
@[simp] theorem writeByte_trace (s : State) (a : Nat) (v : Byte) : (s.writeByte a v).trace = s.trace := rfl
@[simp] theorem writeByte_cfg (s : State) (a : Nat) (v : Byte) : (s.writeByte a v).cfg = s.cfg := rfl

/-! ### fillBytes -/

@[simp] theorem fillBytes_fb (s : State) (v : Byte) : (s.fillBytes v).fb = memFill s.cfg.fbReset v := rfl
@[simp] theorem fillBytes_cx (s : State) (v : Byte) : (s.fillBytes v).cx = s.cx := rfl
@[simp] theorem fillBytes_cy (s : State) (v : Byte) : (s.fillBytes v).cy = s.cy := rfl
@[simp] theorem fillBytes_inv (s : State) (v : Byte) : (s.fillBytes v).inv = s.inv := rfl
@[simp] theorem fillBytes_ist (s : State) (v : Byte) : (s.fillBytes v).ist = s.ist := rfl
@[simp] theorem fillBytes_rstatus (s : State) (v : Byte) : (s.fillBytes v).rstatus = s.rstatus := rfl
@[simp] theorem fillBytes_rval (s : State) (v : Byte) : (s.fillBytes v).rval = s.rval := rfl
@[simp] theorem fillBytes_raux (s : State) (v : Byte) : (s.fillBytes v).raux = s.raux := rfl
@[simp] theorem fillBytes_held (s : State) (v : Byte) : (s.fillBytes v).held = s.held := rfl
@[simp] theorem fillBytes_text (s : State) (v : Byte) : (s.fillBytes v).text = s.text := rfl
@[simp] theorem fillBytes_index (s : State) (v : Byte) : (s.fillBytes v).index = s.index := rfl
@[simp] theorem fillBytes_answers (s : State) (v : Byte) : (s.fillBytes v).answers = s.answers := rfl
@[simp] theorem fillBytes_draws (s : State) (v : Byte) : (s.fillBytes v).draws = s.draws := rfl
@[simp] theorem fillBytes_trace (s : State) (v : Byte) : (s.fillBytes v).trace = s.trace := rfl
@[simp] theorem fillBytes_cfg (s : State) (v : Byte) : (s.fillBytes v).cfg = s.cfg := rfl

/-! ### drawn -/

@[simp] theorem drawn_fb (s : State) : (drawn s).fb = s.fb := rfl
@[simp] theorem drawn_cx (s : State) : (drawn s).cx = s.cx := rfl
@[simp] theorem drawn_cy (s : State) : (drawn s).cy = s.cy := rfl
@[simp] theorem drawn_inv (s : State) : (drawn s).inv = s.inv := rfl
@[simp] theorem drawn_ist (s : State) : (drawn s).ist = s.ist := rfl
@[simp] theorem drawn_rstatus (s : State) : (drawn s).rstatus = s.rstatus := rfl
@[simp] theorem drawn_rval (s : State) : (drawn s).rval = s.rval := rfl
@[simp] theorem drawn_raux (s : State) : (drawn s).raux = s.raux := rfl
@[simp] theorem drawn_held (s : State) : (drawn s).held = s.held := rfl
@[simp] theorem drawn_text (s : State) : (drawn s).text = s.text := rfl
@[simp] theorem drawn_index (s : State) : (drawn s).index = s.index := rfl
@[simp] theorem drawn_answers (s : State) : (drawn s).answers = s.answers.tail := rfl
@[simp] theorem drawn_draws (s : State) : (drawn s).draws = s.draws + 1 := rfl
@[simp] theorem drawn_trace (s : State) : (drawn s).trace = s.trace := rfl
@[simp] theorem drawn_cfg (s : State) : (drawn s).cfg = s.cfg := rfl

/-! ### emit -/

@[simp] theorem emit_fb (e : Event) (s : State) : (emit e s).fb = s.fb := rfl
@[simp] theorem emit_cx (e : Event) (s : State) : (emit e s).cx = s.cx := rfl
@[simp] theorem emit_cy (e : Event) (s : State) : (emit e s).cy = s.cy := rfl
@[simp] theorem emit_inv (e : Event) (s : State) : (emit e s).inv = s.inv := rfl
@[simp] theorem emit_ist (e : Event) (s : State) : (emit e s).ist = s.ist := rfl
@[simp] theorem emit_rstatus (e : Event) (s : State) : (emit e s).rstatus = s.rstatus := rfl
@[simp] theorem emit_rval (e : Event) (s : State) : (emit e s).rval = s.rval := rfl
@[simp] theorem emit_raux (e : Event) (s : State) : (emit e s).raux = s.raux := rfl
@[simp] theorem emit_held (e : Event) (s : State) : (emit e s).held = s.held := rfl
@[simp] theorem emit_text (e : Event) (s : State) : (emit e s).text = s.text := rfl
@[simp] theorem emit_index (e : Event) (s : State) : (emit e s).index = s.index := rfl
@[simp] theorem emit_answers (e : Event) (s : State) : (emit e s).answers = s.answers := rfl
@[simp] theorem emit_draws (e : Event) (s : State) : (emit e s).draws = s.draws := rfl
@[simp] theorem emit_trace (e : Event) (s : State) : (emit e s).trace = s.trace ++ [e] := rfl
@[simp] theorem emit_cfg (e : Event) (s : State) : (emit e s).cfg = s.cfg := rfl

/-! ### delay -/

@[simp] theorem delay_fb (ms : Nat) (s : State) : (delay ms s).fb = s.fb := rfl
@[simp] theorem delay_cx (ms : Nat) (s : State) : (delay ms s).cx = s.cx := rfl
@[simp] theorem delay_cy (ms : Nat) (s : State) : (delay ms s).cy = s.cy := rfl
@[simp] theorem delay_inv (ms : Nat) (s : State) : (delay ms s).inv = s.inv := rfl
@[simp] theorem delay_ist (ms : Nat) (s : State) : (delay ms s).ist = s.ist := rfl
@[simp] theorem delay_rstatus (ms : Nat) (s : State) : (delay ms s).rstatus = s.rstatus := rfl
@[simp] theorem delay_rval (ms : Nat) (s : State) : (delay ms s).rval = s.rval := rfl
@[simp] theorem delay_raux (ms : Nat) (s : State) : (delay ms s).raux = s.raux := rfl
@[simp] theorem delay_held (ms : Nat) (s : State) : (delay ms s).held = s.held := rfl
@[simp] theorem delay_text (ms : Nat) (s : State) : (delay ms s).text = s.text := rfl
@[simp] theorem delay_index (ms : Nat) (s : State) : (delay ms s).index = s.index := rfl
@[simp] theorem delay_answers (ms : Nat) (s : State) : (delay ms s).answers = s.answers := rfl
@[simp] theorem delay_draws (ms : Nat) (s : State) : (delay ms s).draws = s.draws := rfl
@[simp] theorem delay_trace (ms : Nat) (s : State) : (delay ms s).trace = s.trace ++ [.delay ms] := rfl
@[simp] theorem delay_cfg (ms : Nat) (s : State) : (delay ms s).cfg = s.cfg := rfl

/-! ### consume -/

@[simp] theorem consume_fb (s : State) (n : Nat) : (s.consume n).fb = s.fb := rfl
@[simp] theorem consume_cx (s : State) (n : Nat) : (s.consume n).cx = s.cx := rfl
@[simp] theorem consume_cy (s : State) (n : Nat) : (s.consume n).cy = s.cy := rfl
@[simp] theorem consume_inv (s : State) (n : Nat) : (s.consume n).inv = s.inv := rfl
@[simp] theorem consume_ist (s : State) (n : Nat) : (s.consume n).ist = s.ist := rfl
@[simp] theorem consume_rstatus (s : State) (n : Nat) : (s.consume n).rstatus = s.rstatus := rfl
@[simp] theorem consume_rval (s : State) (n : Nat) : (s.consume n).rval = s.rval := rfl
@[simp] theorem consume_raux (s : State) (n : Nat) : (s.consume n).raux = s.raux := rfl
@[simp] theorem consume_held (s : State) (n : Nat) : (s.consume n).held = s.held.drop n := rfl
@[simp] theorem consume_text (s : State) (n : Nat) : (s.consume n).text = s.text := rfl
@[simp] theorem consume_index (s : State) (n : Nat) : (s.consume n).index = s.index + (n - s.held.length) := rfl
@[simp] theorem consume_answers (s : State) (n : Nat) : (s.consume n).answers = s.answers := rfl
@[simp] theorem consume_draws (s : State) (n : Nat) : (s.consume n).draws = s.draws := rfl
@[simp] theorem consume_trace (s : State) (n : Nat) : (s.consume n).trace = s.trace := rfl
@[simp] theorem consume_cfg (s : State) (n : Nat) : (s.consume n).cfg = s.cfg := rfl

/-! ### collect -/

@[simp] theorem collect_fb (s : State) : s.collect.fb = s.fb := rfl
@[simp] theorem collect_cx (s : State) : s.collect.cx = s.cx := rfl
@[simp] theorem collect_cy (s : State) : s.collect.cy = s.cy := rfl
@[simp] theorem collect_inv (s : State) : s.collect.inv = s.inv := rfl
@[simp] theorem collect_ist (s : State) : s.collect.ist = s.ist := rfl
@[simp] theorem collect_rstatus (s : State) : s.collect.rstatus = s.rstatus := rfl
@[simp] theorem collect_rval (s : State) : s.collect.rval = s.rval := rfl
@[simp] theorem collect_raux (s : State) : s.collect.raux = s.raux := rfl
@[simp] theorem collect_held (s : State) : s.collect.held = s.available := rfl
@[simp] theorem collect_text (s : State) : s.collect.text = s.text := rfl
@[simp] theorem collect_index (s : State) : s.collect.index = s.index + (s.text.drop s.index).length := rfl
@[simp] theorem collect_answers (s : State) : s.collect.answers = s.answers := rfl
@[simp] theorem collect_draws (s : State) : s.collect.draws = s.draws := rfl
@[simp] theorem collect_trace (s : State) : s.collect.trace = s.trace := rfl
@[simp] theorem collect_cfg (s : State) : s.collect.cfg = s.cfg := rfl

/-! ### rejectCommand -/

@[simp] theorem rejectCommand_fb (why : Reject) (h : Word) (s : State) : (rejectCommand why h s).fb = s.fb := rfl
@[simp] theorem rejectCommand_cx (why : Reject) (h : Word) (s : State) : (rejectCommand why h s).cx = s.cx := rfl
@[simp] theorem rejectCommand_cy (why : Reject) (h : Word) (s : State) : (rejectCommand why h s).cy = s.cy := rfl
@[simp] theorem rejectCommand_inv (why : Reject) (h : Word) (s : State) : (rejectCommand why h s).inv = s.inv := rfl
@[simp] theorem rejectCommand_ist (why : Reject) (h : Word) (s : State) : (rejectCommand why h s).ist = s.ist := rfl
@[simp] theorem rejectCommand_rstatus (why : Reject) (h : Word) (s : State) : (rejectCommand why h s).rstatus = statusCode (rejectStatus why) := rfl
@[simp] theorem rejectCommand_rval (why : Reject) (h : Word) (s : State) : (rejectCommand why h s).rval = h.setWidth 32 := rfl
@[simp] theorem rejectCommand_raux (why : Reject) (h : Word) (s : State) : (rejectCommand why h s).raux = 0 := rfl
@[simp] theorem rejectCommand_held (why : Reject) (h : Word) (s : State) : (rejectCommand why h s).held = s.held := rfl
@[simp] theorem rejectCommand_text (why : Reject) (h : Word) (s : State) : (rejectCommand why h s).text = s.text := rfl
@[simp] theorem rejectCommand_index (why : Reject) (h : Word) (s : State) : (rejectCommand why h s).index = s.index := rfl
@[simp] theorem rejectCommand_answers (why : Reject) (h : Word) (s : State) : (rejectCommand why h s).answers = s.answers := rfl
@[simp] theorem rejectCommand_draws (why : Reject) (h : Word) (s : State) : (rejectCommand why h s).draws = s.draws := rfl
@[simp] theorem rejectCommand_trace (why : Reject) (h : Word) (s : State) : (rejectCommand why h s).trace = s.trace := rfl
@[simp] theorem rejectCommand_cfg (why : Reject) (h : Word) (s : State) : (rejectCommand why h s).cfg = s.cfg := rfl

/-! ### hostWrite -/

@[simp] theorem hostWrite_fb (ws : List Word) (s : State) : (hostWrite ws s).fb = s.fb := rfl
@[simp] theorem hostWrite_cx (ws : List Word) (s : State) : (hostWrite ws s).cx = s.cx := rfl
@[simp] theorem hostWrite_cy (ws : List Word) (s : State) : (hostWrite ws s).cy = s.cy := rfl
@[simp] theorem hostWrite_inv (ws : List Word) (s : State) : (hostWrite ws s).inv = s.inv := rfl
@[simp] theorem hostWrite_ist (ws : List Word) (s : State) : (hostWrite ws s).ist = s.ist := rfl
@[simp] theorem hostWrite_rstatus (ws : List Word) (s : State) : (hostWrite ws s).rstatus = s.rstatus := rfl
@[simp] theorem hostWrite_rval (ws : List Word) (s : State) : (hostWrite ws s).rval = s.rval := rfl
@[simp] theorem hostWrite_raux (ws : List Word) (s : State) : (hostWrite ws s).raux = s.raux := rfl
@[simp] theorem hostWrite_held (ws : List Word) (s : State) : (hostWrite ws s).held = s.held := rfl
@[simp] theorem hostWrite_text (ws : List Word) (s : State) : (hostWrite ws s).text = s.text ++ ws := rfl
@[simp] theorem hostWrite_index (ws : List Word) (s : State) : (hostWrite ws s).index = s.index := rfl
@[simp] theorem hostWrite_answers (ws : List Word) (s : State) : (hostWrite ws s).answers = s.answers := rfl
@[simp] theorem hostWrite_draws (ws : List Word) (s : State) : (hostWrite ws s).draws = s.draws := rfl
@[simp] theorem hostWrite_trace (ws : List Word) (s : State) : (hostWrite ws s).trace = s.trace := rfl
@[simp] theorem hostWrite_cfg (ws : List Word) (s : State) : (hostWrite ws s).cfg = s.cfg := rfl

/-! ### hostReset -/

@[simp] theorem hostReset_fb (s : State) : (hostReset s).fb = [] := rfl
@[simp] theorem hostReset_cx (s : State) : (hostReset s).cx = 0 := rfl
@[simp] theorem hostReset_cy (s : State) : (hostReset s).cy = 0 := rfl
@[simp] theorem hostReset_inv (s : State) : (hostReset s).inv = false := rfl
@[simp] theorem hostReset_ist (s : State) : (hostReset s).ist = .uninitialized := rfl
@[simp] theorem hostReset_rstatus (s : State) : (hostReset s).rstatus = 0 := rfl
@[simp] theorem hostReset_rval (s : State) : (hostReset s).rval = 0 := rfl
@[simp] theorem hostReset_raux (s : State) : (hostReset s).raux = 0 := rfl
@[simp] theorem hostReset_held (s : State) : (hostReset s).held = [] := rfl
@[simp] theorem hostReset_text (s : State) : (hostReset s).text = s.text := rfl
@[simp] theorem hostReset_index (s : State) : (hostReset s).index = s.index := rfl
@[simp] theorem hostReset_answers (s : State) : (hostReset s).answers = s.answers := rfl
@[simp] theorem hostReset_draws (s : State) : (hostReset s).draws = s.draws := rfl
@[simp] theorem hostReset_trace (s : State) : (hostReset s).trace = s.trace := rfl
@[simp] theorem hostReset_cfg (s : State) : (hostReset s).cfg = s.cfg := rfl

end Sys2Proof.Machine
end

