-- ==== Sys2Proof/Laws/Memory.lean ====
section
/-! SUPPORT. The framebuffer's cells: a read after a write, and every operation keeps the canonical form. -/

namespace Sys2Proof.Machine

-- One small lemma after the other: a thread for each at once exhausts the memory limit of the check.
set_option Elab.async false

variable {rst : Vector Byte FB_BYTES} {m : Memory} {a b : Nat} {v : Byte}

theorem lookup_insertCell_self (m : Memory) (a : Nat) (v : Byte) : lookup (insertCell m a v) a = some v := by
  induction m with
  | nil => simp [insertCell, lookup]
  | cons cell m ih =>
    obtain ⟨b, w⟩ := cell
    simp only [insertCell]
    split
    · simp [lookup]
    · split
      · simp [lookup]
      · next h => simp [lookup, Ne.symm h, ih]

theorem lookup_insertCell_other (h : b ≠ a) : lookup (insertCell m a v) b = lookup m b := by
  induction m with
  | nil => simp [insertCell, lookup, Ne.symm h]
  | cons cell m ih =>
    obtain ⟨d, w⟩ := cell
    simp only [insertCell]
    split
    · simp [lookup, Ne.symm h]
    · split
      · next e => subst e; simp [lookup, Ne.symm h]
      · simp [lookup, ih]

theorem lookup_eraseCell_self (m : Memory) (a : Nat) : lookup (eraseCell m a) a = none := by
  induction m with
  | nil => rfl
  | cons cell m ih =>
    obtain ⟨b, w⟩ := cell
    by_cases h : b = a
    · simpa [eraseCell, h] using ih
    · simpa [eraseCell, h, lookup] using ih

theorem lookup_eraseCell_other (h : b ≠ a) : lookup (eraseCell m a) b = lookup m b := by
  induction m with
  | nil => rfl
  | cons cell m ih =>
    obtain ⟨d, w⟩ := cell
    by_cases e : d = a
    · subst e
      simpa [eraseCell, lookup, Ne.symm h] using ih
    · have : eraseCell ((d, w) :: m) a = (d, w) :: eraseCell m a := by simp [eraseCell, e]
      rw [this]
      simp [lookup, ih]

/-- A read after a write to the same address gives the byte written. -/
@[simp] theorem memRead_memWrite_self (rst : Vector Byte FB_BYTES) (m : Memory) (a : Nat) (v : Byte) :
    memRead rst (memWrite rst m a v) a = v := by
  unfold memRead memWrite
  split
  · next h => simp [lookup_eraseCell_self, h]
  · simp [lookup_insertCell_self]

/-- A write leaves every other address alone. -/
theorem memRead_memWrite_other (h : b ≠ a) : memRead rst (memWrite rst m a v) b = memRead rst m b := by
  unfold memRead memWrite
  split
  · rw [lookup_eraseCell_other h]
  · rw [lookup_insertCell_other h]

/-- What a write does to every read. -/
theorem memRead_memWrite (rst : Vector Byte FB_BYTES) (m : Memory) (a b : Nat) (v : Byte) :
    memRead rst (memWrite rst m a v) b = if b = a then v else memRead rst m b := by
  split
  · next h => rw [h, memRead_memWrite_self]
  · next h => exact memRead_memWrite_other h

theorem lookup_filterMap_range' (g : Nat → Option Byte) (lo n a : Nat) :
    lookup ((List.range' lo n).filterMap (fun k => (g k).map (fun w => (k, w)))) a
      = if lo ≤ a ∧ a < lo + n then g a else none := by
  induction n generalizing lo with
  | zero =>
    have : ¬ (lo ≤ a ∧ a < lo + 0) := by omega
    simp only [List.range'_zero, List.filterMap_nil, lookup, this, if_false]
  | succ n ih =>
    rw [List.range'_succ, List.filterMap_cons]
    cases hg : g lo with
    | none =>
      simp only [Option.map_none, ih]
      by_cases h : lo = a
      · subst h
        simp [hg]
      · have : (lo + 1 ≤ a ∧ a < lo + 1 + n) ↔ (lo ≤ a ∧ a < lo + (n + 1)) := by omega
        simp only [this]
    | some w =>
      simp only [Option.map_some, lookup, ih]
      by_cases h : lo = a
      · subst h
        simp [hg]
      · have : (lo + 1 ≤ a ∧ a < lo + 1 + n) ↔ (lo ≤ a ∧ a < lo + (n + 1)) := by omega
        simp only [h, if_false, this]

theorem memFill_eq (rst : Vector Byte FB_BYTES) (v : Byte) :
    memFill rst v = (List.range' 0 FB_BYTES).filterMap
      (fun k => (if v = unlisted rst k then none else some v).map (fun w => (k, w))) := by
  unfold memFill
  rw [List.range_eq_range']
  congr 1
  funext k
  split <;> rfl

/-- After a fill every byte of the framebuffer reads as the value filled (40_framebuffer R118). -/
theorem memRead_memFill (rst : Vector Byte FB_BYTES) (v : Byte) (h : a < FB_BYTES) :
    memRead rst (memFill rst v) a = v := by
  rw [memRead, memFill_eq, lookup_filterMap_range']
  simp only [Nat.zero_le, true_and, Nat.zero_add, h, if_true]
  split
  · next e => simp [e]
  · simp

/-! ### The canonical form -/

theorem rising_mono {lo hi : Nat} (h : lo ≤ hi) (hr : rising hi m = true) : rising lo m = true := by
  cases m with
  | nil => rfl
  | cons cell m =>
    simp only [rising, Bool.and_eq_true, decide_eq_true_eq] at hr ⊢
    exact ⟨by omega, hr.2⟩

theorem rising_insertCell {lo : Nat} (h : lo ≤ a) (hr : rising lo m = true) :
    rising lo (insertCell m a v) = true := by
  induction m generalizing lo with
  | nil => simp [insertCell, rising, h]
  | cons cell m ih =>
    obtain ⟨b, w⟩ := cell
    simp only [rising, Bool.and_eq_true, decide_eq_true_eq] at hr
    simp only [insertCell]
    split
    · simp only [rising, Bool.and_eq_true, decide_eq_true_eq]
      exact ⟨h, by omega, hr.2⟩
    · split
      · next e => subst e; simpa [rising, h] using hr.2
      · simp only [rising, Bool.and_eq_true, decide_eq_true_eq]
        exact ⟨hr.1, ih (by omega) hr.2⟩

theorem rising_eraseCell {lo : Nat} (hr : rising lo m = true) : rising lo (eraseCell m a) = true := by
  induction m generalizing lo with
  | nil => rfl
  | cons cell m ih =>
    obtain ⟨b, w⟩ := cell
    simp only [rising, Bool.and_eq_true, decide_eq_true_eq] at hr
    by_cases h : b = a
    · have : eraseCell ((b, w) :: m) a = eraseCell m a := by simp [eraseCell, h]
      rw [this]
      exact rising_mono (by omega) (ih hr.2)
    · have : eraseCell ((b, w) :: m) a = (b, w) :: eraseCell m a := by simp [eraseCell, h]
      rw [this]
      simp only [rising, Bool.and_eq_true, decide_eq_true_eq]
      exact ⟨hr.1, ih hr.2⟩

theorem mem_insertCell {cell : Host.Cell} (h : cell ∈ insertCell m a v) : cell = (a, v) ∨ cell ∈ m := by
  induction m with
  | nil => simpa [insertCell] using h
  | cons d m ih =>
    obtain ⟨b, w⟩ := d
    simp only [insertCell] at h
    split at h
    · simpa using h
    · split at h
      · simp only [List.mem_cons] at h ⊢
        tauto
      · simp only [List.mem_cons] at h ⊢
        rcases h with h | h
        · exact .inr (.inl h)
        · rcases ih h with h | h <;> tauto

/-- The empty list of cells is canonical. -/
@[simp] theorem Memory.wf_nil (rst : Vector Byte FB_BYTES) : Memory.wf rst [] = true := rfl

/-- A write inside the framebuffer keeps the canonical form. -/
theorem memWrite_wf (ha : a < FB_BYTES) (h : Memory.wf rst m = true) : Memory.wf rst (memWrite rst m a v) = true := by
  simp only [Memory.wf, Bool.and_eq_true, List.all_eq_true, decide_eq_true_eq] at h ⊢
  unfold memWrite
  split
  · refine ⟨rising_eraseCell h.1, fun cell hc => h.2 cell ?_⟩
    exact (List.mem_filter.mp hc).1
  · next hv =>
    refine ⟨rising_insertCell (Nat.zero_le _) h.1, fun cell hc => ?_⟩
    rcases mem_insertCell hc with rfl | hc
    · exact ⟨ha, hv⟩
    · exact h.2 cell hc

theorem rising_filterMap_range' (g : Nat → Option Byte) (lo n : Nat) :
    rising lo ((List.range' lo n).filterMap (fun k => (g k).map (fun w => (k, w)))) = true := by
  induction n generalizing lo with
  | zero => rfl
  | succ n ih =>
    rw [List.range'_succ, List.filterMap_cons]
    cases g lo with
    | none => exact rising_mono (by omega) (ih (lo + 1))
    | some w => simpa [rising] using ih (lo + 1)

/-- The cells a fill lists. -/
theorem mem_memFill {cell : Host.Cell} (h : cell ∈ memFill rst v) : cell.1 < FB_BYTES ∧ cell.2 ≠ unlisted rst cell.1 := by
  rw [memFill_eq] at h
  obtain ⟨k, hk, hw⟩ := List.mem_filterMap.mp h
  obtain ⟨w, hg, rfl⟩ := Option.map_eq_some_iff.mp hw
  have hlt := (List.mem_range'_1.mp hk).2
  split at hg
  · cases hg
  · next hne => cases hg; exact ⟨by simpa using hlt, hne⟩

/-- A fill is canonical. -/
theorem memFill_wf (rst : Vector Byte FB_BYTES) (v : Byte) : Memory.wf rst (memFill rst v) = true := by
  have hr : rising 0 (memFill rst v) = true := memFill_eq rst v ▸ rising_filterMap_range' _ 0 FB_BYTES
  have ha : (memFill rst v).all (fun cell => decide (cell.1 < FB_BYTES) && decide (cell.2 ≠ unlisted rst cell.1)) = true :=
    List.all_eq_true.mpr fun cell hc => by
      simpa only [Bool.and_eq_true, decide_eq_true_eq] using mem_memFill hc
  rw [Memory.wf, hr, ha]
  rfl

/-! ### The same of the state -/

@[simp] theorem readByte_writeByte_self (s : State) (a : Nat) (v : Byte) : (s.writeByte a v).readByte a = v :=
  memRead_memWrite_self _ _ _ _

theorem readByte_writeByte_other (s : State) (h : b ≠ a) : (s.writeByte a v).readByte b = s.readByte b :=
  memRead_memWrite_other h

/-- A byte written reads back, and every other byte is as before. -/
theorem readByte_writeByte (s : State) (a b : Nat) (v : Byte) :
    (s.writeByte a v).readByte b = if b = a then v else s.readByte b :=
  memRead_memWrite _ _ _ _ _

theorem readByte_fillBytes (s : State) (v : Byte) (h : a < FB_BYTES) : (s.fillBytes v).readByte a = v :=
  memRead_memFill _ _ h

/-- What a read depends on. -/
theorem readByte_congr {s t : State} (hf : t.fb = s.fb) (hc : t.cfg = s.cfg) (a : Nat) : t.readByte a = s.readByte a := by
  simp [State.readByte, hf, hc]

@[simp] theorem readByte_finish (st : Status) (w : BitVec 32) (x : Word) (s : State) (a : Nat) :
    (finish st w x s).readByte a = s.readByte a := rfl

@[simp] theorem readByte_raise (st : Status) (w : BitVec 32) (s : State) (a : Nat) :
    (raise st w s).readByte a = s.readByte a := rfl

end Sys2Proof.Machine
end

