-- ==== Sys2Proof/Laws/PerInstr.lean ====
section
/-! SUPPORT. Statements made once per command: its header is a legal header of its row of the opcode map. -/

namespace Sys2Proof.Laws.HeaderMatchesRow

/-- Column header match of the opcode map (30_encoding R88). -/
def rowMatch : Opcode → Word
  | .init => 0x0001
  | .fill => 0x0002
  | .sync => 0x0003
  | .setinv => 0x0004
  | .setpixel => 0x0010
  | .line => 0x0011
  | .rect => 0x0012
  | .rectf => 0x0013
  | .tri => 0x0014
  | .trif => 0x0015
  | .circ => 0x0016
  | .circf => 0x0017
  | .gotoxy => 0x0020
  | .putc => 0x0021
  | .puts => 0x0022
  | .measure => 0x0023
  | .rdpix => 0x0030
  | .rdbyte => 0x0031
  | .rdstate => 0x0032

/-- Column header mask of the opcode map (30_encoding R88). -/
def rowMask : Opcode → Word
  | .init | .sync | .gotoxy | .rdpix | .rdbyte | .rdstate => 0xFFFF
  | .fill | .setinv | .setpixel | .line | .rect | .rectf | .tri | .trif | .circ | .circf => 0xFEFF
  | .putc | .puts => 0xF0FF
  | .measure => 0xF1FF

/-- The command's header selects its row: `(H AND mask) = match` (30_encoding R88). -/
def Statement (i : Instr) : Prop := i.header &&& rowMask i.opcode = rowMatch i.opcode

/-- A header with only an opcode is selected under the whole mask. -/
theorem plain_header (op : Byte) : encodeHeader op false 0 &&& 0xFFFF = op.setWidth 16 := by
  revert op; decide +kernel

/-- A header with only an opcode and a colour is selected under a mask that leaves out bit 8. -/
theorem colour_header (op : Byte) (c : Bool) : encodeHeader op c 0 &&& 0xFEFF = op.setWidth 16 := by
  revert op c; decide +kernel

/-- A header with an opcode, a colour and a font is selected under a mask that leaves out bits 11 to 8. -/
theorem font_header (op : Byte) (c : Bool) (f : BitVec 3) : encodeHeader op c f &&& 0xF0FF = op.setWidth 16 := by
  revert op c f; decide +kernel

theorem init : Statement .init := plain_header _
theorem fill (c : Color) : Statement (.fill c) := colour_header _ _
theorem sync : Statement .sync := plain_header _
theorem setinv (v : Bool) : Statement (.setinv v) := colour_header _ _
theorem setpixel (c : Color) (x y : Word) : Statement (.setpixel c x y) := colour_header _ _
theorem line (c : Color) (x0 y0 x1 y1 : Word) : Statement (.line c x0 y0 x1 y1) := colour_header _ _
theorem rect (c : Color) (x y w h : Word) : Statement (.rect c x y w h) := colour_header _ _
theorem rectf (c : Color) (x y w h : Word) : Statement (.rectf c x y w h) := colour_header _ _
theorem tri (c : Color) (x1 y1 x2 y2 x3 y3 : Word) : Statement (.tri c x1 y1 x2 y2 x3 y3) := colour_header _ _
theorem trif (c : Color) (x1 y1 x2 y2 x3 y3 : Word) : Statement (.trif c x1 y1 x2 y2 x3 y3) := colour_header _ _
theorem circ (c : Color) (x0 y0 r : Word) : Statement (.circ c x0 y0 r) := colour_header _ _
theorem circf (c : Color) (x0 y0 r : Word) : Statement (.circf c x0 y0 r) := colour_header _ _
theorem gotoxy (x y : Word) : Statement (.gotoxy x y) := plain_header _
theorem putc (c : Color) (f : BitVec 3) (ch : Byte) : Statement (.putc c f ch) := font_header _ _ _
theorem puts (c : Color) (f : BitVec 3) (str : List Byte) : Statement (.puts c f str) := font_header _ _ _
theorem measure (f : BitVec 3) (str : List Byte) : Statement (.measure f str) := by
  have : ∀ g : BitVec 3, encodeHeader 0x23 false g &&& 0xF1FF = 0x23 := by decide
  exact this f
theorem rdpix (x y : Word) : Statement (.rdpix x y) := plain_header _
theorem rdbyte (a : Word) : Statement (.rdbyte a) := plain_header _
theorem rdstate : Statement .rdstate := plain_header _

end Sys2Proof.Laws.HeaderMatchesRow
end

