-- ==== Sys2Proof/Laws/Pixels.lean ====
section
/-! SUPPORT. The pixel-write primitive and lists of pixels: what they write, and that they write nothing else. -/

namespace Sys2Proof.Machine

-- One small lemma after the other: a thread for each at once exhausts the memory limit of the check.
set_option Elab.async false

variable {c : Color} {p q : Pixel} {s : State} {a : Nat}

theorem onPanel_iff : onPanel p = true ↔ coord p.1 < WIDTH ∧ coord p.2 < HEIGHT := by
  simp [onPanel]

/-- A valid pixel has an address inside the framebuffer (20_memory R51). -/
theorem pixelAddr_lt (h : onPanel p = true) : pixelAddr p < FB_BYTES := by
  rw [onPanel_iff] at h
  simp only [WIDTH, HEIGHT] at h
  simp only [pixelAddr, WIDTH, FB_BYTES]
  omega

theorem pixelBit_lt (p : Pixel) : pixelBit p < 8 := Nat.mod_lt _ (by decide)

theorem coord_inj {x y : Word} (h : coord x = coord y) : x = y := BitVec.eq_of_toNat_eq h

/-- Distinct valid pixels have distinct bits (20_memory R52). -/
theorem pixel_ext (hp : onPanel p = true) (hq : onPanel q = true) (ha : pixelAddr p = pixelAddr q)
    (hb : pixelBit p = pixelBit q) : p = q := by
  rw [onPanel_iff] at hp hq
  simp only [WIDTH, HEIGHT] at hp hq
  simp only [pixelAddr, pixelBit, WIDTH] at ha hb
  exact Prod.ext (coord_inj (by omega)) (coord_inj (by omega))

/-- Painting one bit gives that bit the colour and leaves the other seven. -/
theorem getLsbD_paint (e : Color) (v : Byte) {b k : Nat} (hb : b < 8) (hk : k < 8) :
    (paint e v (1#8 <<< b)).getLsbD k = if k = b then colourBit e else v.getLsbD k := by
  have h1 : (1#8 <<< b).getLsbD k = decide (k = b) := by
    simp only [BitVec.getLsbD_shiftLeft, BitVec.getLsbD_one, hk, decide_true, Bool.true_and]
    by_cases h : k < b
    · simp [h, Nat.ne_of_lt h]
    · by_cases e : k = b
      · simp [e]
      · have : k - b ≠ 0 := by omega
        simp [h, e, this]
  by_cases h : k = b
  · subst h
    cases e <;> simp [paint, colourBit, hk]
  · have h2 : (1#8 <<< b).getLsbD k = false := by simp [h1, h]
    cases e with
    | set => simp only [paint, BitVec.getLsbD_or, h2, Bool.or_false, if_neg h]
    | clear => simp only [paint, BitVec.getLsbD_and, BitVec.getLsbD_not, h2, hk, decide_true, Bool.not_false,
        Bool.and_true, if_neg h]

/-! ### plotPixel changes nothing but the framebuffer -/

@[simp] theorem plotPixel_cx (c : Color) (p : Pixel) (s : State) : (plotPixel c p s).cx = s.cx := by
  unfold plotPixel; split <;> rfl

@[simp] theorem plotPixel_cy (c : Color) (p : Pixel) (s : State) : (plotPixel c p s).cy = s.cy := by
  unfold plotPixel; split <;> rfl

@[simp] theorem plotPixel_inv (c : Color) (p : Pixel) (s : State) : (plotPixel c p s).inv = s.inv := by
  unfold plotPixel; split <;> rfl

@[simp] theorem plotPixel_ist (c : Color) (p : Pixel) (s : State) : (plotPixel c p s).ist = s.ist := by
  unfold plotPixel; split <;> rfl

@[simp] theorem plotPixel_rstatus (c : Color) (p : Pixel) (s : State) : (plotPixel c p s).rstatus = s.rstatus := by
  unfold plotPixel; split <;> rfl

@[simp] theorem plotPixel_rval (c : Color) (p : Pixel) (s : State) : (plotPixel c p s).rval = s.rval := by
  unfold plotPixel; split <;> rfl

@[simp] theorem plotPixel_raux (c : Color) (p : Pixel) (s : State) : (plotPixel c p s).raux = s.raux := by
  unfold plotPixel; split <;> rfl

@[simp] theorem plotPixel_held (c : Color) (p : Pixel) (s : State) : (plotPixel c p s).held = s.held := by
  unfold plotPixel; split <;> rfl

@[simp] theorem plotPixel_text (c : Color) (p : Pixel) (s : State) : (plotPixel c p s).text = s.text := by
  unfold plotPixel; split <;> rfl

@[simp] theorem plotPixel_index (c : Color) (p : Pixel) (s : State) : (plotPixel c p s).index = s.index := by
  unfold plotPixel; split <;> rfl

@[simp] theorem plotPixel_answers (c : Color) (p : Pixel) (s : State) : (plotPixel c p s).answers = s.answers := by
  unfold plotPixel; split <;> rfl

@[simp] theorem plotPixel_draws (c : Color) (p : Pixel) (s : State) : (plotPixel c p s).draws = s.draws := by
  unfold plotPixel; split <;> rfl

@[simp] theorem plotPixel_trace (c : Color) (p : Pixel) (s : State) : (plotPixel c p s).trace = s.trace := by
  unfold plotPixel; split <;> rfl

@[simp] theorem plotPixel_cfg (c : Color) (p : Pixel) (s : State) : (plotPixel c p s).cfg = s.cfg := by
  unfold plotPixel; split <;> rfl

/-! ### plotCells changes nothing but the framebuffer -/

@[simp] theorem plotCells_cx (ps : List (Pixel × Color)) (s : State) : (plotCells ps s).cx = s.cx := by
  induction ps generalizing s with
  | nil => rfl
  | cons pc ps ih => simp [plotCells, ih]

@[simp] theorem plotCells_cy (ps : List (Pixel × Color)) (s : State) : (plotCells ps s).cy = s.cy := by
  induction ps generalizing s with
  | nil => rfl
  | cons pc ps ih => simp [plotCells, ih]

@[simp] theorem plotCells_inv (ps : List (Pixel × Color)) (s : State) : (plotCells ps s).inv = s.inv := by
  induction ps generalizing s with
  | nil => rfl
  | cons pc ps ih => simp [plotCells, ih]

@[simp] theorem plotCells_ist (ps : List (Pixel × Color)) (s : State) : (plotCells ps s).ist = s.ist := by
  induction ps generalizing s with
  | nil => rfl
  | cons pc ps ih => simp [plotCells, ih]

@[simp] theorem plotCells_rstatus (ps : List (Pixel × Color)) (s : State) : (plotCells ps s).rstatus = s.rstatus := by
  induction ps generalizing s with
  | nil => rfl
  | cons pc ps ih => simp [plotCells, ih]

@[simp] theorem plotCells_rval (ps : List (Pixel × Color)) (s : State) : (plotCells ps s).rval = s.rval := by
  induction ps generalizing s with
  | nil => rfl
  | cons pc ps ih => simp [plotCells, ih]

@[simp] theorem plotCells_raux (ps : List (Pixel × Color)) (s : State) : (plotCells ps s).raux = s.raux := by
  induction ps generalizing s with
  | nil => rfl
  | cons pc ps ih => simp [plotCells, ih]

@[simp] theorem plotCells_held (ps : List (Pixel × Color)) (s : State) : (plotCells ps s).held = s.held := by
  induction ps generalizing s with
  | nil => rfl
  | cons pc ps ih => simp [plotCells, ih]

@[simp] theorem plotCells_text (ps : List (Pixel × Color)) (s : State) : (plotCells ps s).text = s.text := by
  induction ps generalizing s with
  | nil => rfl
  | cons pc ps ih => simp [plotCells, ih]

@[simp] theorem plotCells_index (ps : List (Pixel × Color)) (s : State) : (plotCells ps s).index = s.index := by
  induction ps generalizing s with
  | nil => rfl
  | cons pc ps ih => simp [plotCells, ih]

@[simp] theorem plotCells_answers (ps : List (Pixel × Color)) (s : State) : (plotCells ps s).answers = s.answers := by
  induction ps generalizing s with
  | nil => rfl
  | cons pc ps ih => simp [plotCells, ih]

@[simp] theorem plotCells_draws (ps : List (Pixel × Color)) (s : State) : (plotCells ps s).draws = s.draws := by
  induction ps generalizing s with
  | nil => rfl
  | cons pc ps ih => simp [plotCells, ih]

@[simp] theorem plotCells_trace (ps : List (Pixel × Color)) (s : State) : (plotCells ps s).trace = s.trace := by
  induction ps generalizing s with
  | nil => rfl
  | cons pc ps ih => simp [plotCells, ih]

@[simp] theorem plotCells_cfg (ps : List (Pixel × Color)) (s : State) : (plotCells ps s).cfg = s.cfg := by
  induction ps generalizing s with
  | nil => rfl
  | cons pc ps ih => simp [plotCells, ih]

/-! ### plotAll changes nothing but the framebuffer -/

@[simp] theorem plotAll_cx (c : Color) (ps : List Pixel) (s : State) : (plotAll c ps s).cx = s.cx := plotCells_cx _ _

@[simp] theorem plotAll_cy (c : Color) (ps : List Pixel) (s : State) : (plotAll c ps s).cy = s.cy := plotCells_cy _ _

@[simp] theorem plotAll_inv (c : Color) (ps : List Pixel) (s : State) : (plotAll c ps s).inv = s.inv := plotCells_inv _ _

@[simp] theorem plotAll_ist (c : Color) (ps : List Pixel) (s : State) : (plotAll c ps s).ist = s.ist := plotCells_ist _ _

@[simp] theorem plotAll_rstatus (c : Color) (ps : List Pixel) (s : State) : (plotAll c ps s).rstatus = s.rstatus := plotCells_rstatus _ _

@[simp] theorem plotAll_rval (c : Color) (ps : List Pixel) (s : State) : (plotAll c ps s).rval = s.rval := plotCells_rval _ _

@[simp] theorem plotAll_raux (c : Color) (ps : List Pixel) (s : State) : (plotAll c ps s).raux = s.raux := plotCells_raux _ _

@[simp] theorem plotAll_held (c : Color) (ps : List Pixel) (s : State) : (plotAll c ps s).held = s.held := plotCells_held _ _

@[simp] theorem plotAll_text (c : Color) (ps : List Pixel) (s : State) : (plotAll c ps s).text = s.text := plotCells_text _ _

@[simp] theorem plotAll_index (c : Color) (ps : List Pixel) (s : State) : (plotAll c ps s).index = s.index := plotCells_index _ _

@[simp] theorem plotAll_answers (c : Color) (ps : List Pixel) (s : State) : (plotAll c ps s).answers = s.answers := plotCells_answers _ _

@[simp] theorem plotAll_draws (c : Color) (ps : List Pixel) (s : State) : (plotAll c ps s).draws = s.draws := plotCells_draws _ _

@[simp] theorem plotAll_trace (c : Color) (ps : List Pixel) (s : State) : (plotAll c ps s).trace = s.trace := plotCells_trace _ _

@[simp] theorem plotAll_cfg (c : Color) (ps : List Pixel) (s : State) : (plotAll c ps s).cfg = s.cfg := plotCells_cfg _ _

/-! ### What they write -/

/-- PlotPixel off the panel changes nothing (40_framebuffer R117). -/
theorem plotPixel_off (h : onPanel p = false) : plotPixel c p s = s := by
  simp [plotPixel, h]

/-- PlotPixel writes at most the byte of its pixel. -/
theorem readByte_plotPixel_other (h : onPanel p = true → pixelAddr p ≠ a) :
    (plotPixel c p s).readByte a = s.readByte a := by
  unfold plotPixel
  split
  · next hp => exact readByte_writeByte_other _ (Ne.symm (h hp))
  · rfl

/-- PlotPixel gives its pixel the effective colour and leaves every other pixel (40_framebuffer R116). -/
theorem pixel_plotPixel (c : Color) (p : Pixel) (s : State) (hq : onPanel q = true) :
    (plotPixel c p s).pixel q = if q = p then colourBit (effective c s.inv) else s.pixel q := by
  cases hp : onPanel p with
  | false =>
    have : q ≠ p := fun e => by simp [e, hp] at hq
    rw [plotPixel_off hp, if_neg this]
  | true =>
    simp only [plotPixel, hp, if_true, State.pixel]
    by_cases ha : pixelAddr q = pixelAddr p
    · rw [ha, readByte_writeByte_self, getLsbD_paint _ _ (pixelBit_lt p) (pixelBit_lt q)]
      by_cases e : q = p
      · simp [e]
      · have : pixelBit q ≠ pixelBit p := fun hb => e (pixel_ext hq hp ha hb)
        simp [e, this]
    · have : q ≠ p := fun e => ha (by rw [e])
      rw [readByte_writeByte_other _ ha, if_neg this]

/-- A list of cells writes only bytes of its pixels. -/
theorem readByte_plotCells_other (ps : List (Pixel × Color)) (s : State)
    (h : ∀ pc ∈ ps, onPanel pc.1 = true → pixelAddr pc.1 ≠ a) : (plotCells ps s).readByte a = s.readByte a := by
  induction ps generalizing s with
  | nil => rfl
  | cons pc ps ih =>
    rw [plotCells, ih _ fun d hd => h d (List.mem_cons_of_mem _ hd)]
    exact readByte_plotPixel_other (h pc List.mem_cons_self)

/-- A pixel no cell names is left alone. -/
theorem pixel_plotCells_other (ps : List (Pixel × Color)) (s : State) (hq : onPanel q = true)
    (h : ∀ pc ∈ ps, pc.1 ≠ q) : (plotCells ps s).pixel q = s.pixel q := by
  induction ps generalizing s with
  | nil => rfl
  | cons pc ps ih =>
    rw [plotCells, ih _ fun d hd => h d (List.mem_cons_of_mem _ hd), pixel_plotPixel _ _ _ hq,
      if_neg (Ne.symm (h pc List.mem_cons_self))]

/-- A pixel that cells name, all with one colour, takes its effective colour. -/
theorem pixel_plotCells_mem (ps : List (Pixel × Color)) (s : State) (hq : onPanel q = true)
    (hm : ∃ pc ∈ ps, pc.1 = q) (hc : ∀ pc ∈ ps, pc.1 = q → pc.2 = c) :
    (plotCells ps s).pixel q = colourBit (effective c s.inv) := by
  induction ps generalizing s with
  | nil => simp at hm
  | cons pc ps ih =>
    rw [plotCells]
    by_cases hr : ∃ d ∈ ps, d.1 = q
    · rw [ih _ hr fun d hd => hc d (List.mem_cons_of_mem _ hd), plotPixel_inv]
    · push Not at hr
      rw [pixel_plotCells_other _ _ hq hr]
      obtain ⟨d, hd, e⟩ := hm
      rcases List.mem_cons.mp hd with rfl | hd
      · rw [pixel_plotPixel _ _ _ hq, if_pos e.symm, hc d List.mem_cons_self e]
      · exact absurd e (hr d hd)

/-- Everything a drawing command's pixels do: each listed pixel of the panel takes the effective colour, every other pixel
keeps its own (40_framebuffer R119, 20_memory R67). -/
theorem pixel_plotAll (c : Color) (ps : List Pixel) (s : State) (hq : onPanel q = true) :
    (plotAll c ps s).pixel q = if q ∈ ps then colourBit (effective c s.inv) else s.pixel q := by
  split
  · next h =>
    refine pixel_plotCells_mem _ _ hq ⟨(q, c), List.mem_map.mpr ⟨q, h, rfl⟩, rfl⟩ fun pc hpc _ => ?_
    obtain ⟨d, -, rfl⟩ := List.mem_map.mp hpc
    rfl
  · next h =>
    refine pixel_plotCells_other _ _ hq fun pc hpc e => h ?_
    obtain ⟨d, hd, rfl⟩ := List.mem_map.mp hpc
    exact e ▸ hd

/-- A drawing command writes only bytes of its pixels. -/
theorem readByte_plotAll_other (ps : List Pixel) (h : ∀ p ∈ ps, onPanel p = true → pixelAddr p ≠ a) :
    (plotAll c ps s).readByte a = s.readByte a := by
  refine readByte_plotCells_other _ _ fun pc hpc => ?_
  obtain ⟨d, hd, rfl⟩ := List.mem_map.mp hpc
  exact h d hd

theorem plotCells_append (ps qs : List (Pixel × Color)) (s : State) :
    plotCells (ps ++ qs) s = plotCells qs (plotCells ps s) := by
  induction ps generalizing s with
  | nil => rfl
  | cons pc ps ih => simp [plotCells, ih]

theorem plotAll_append (c : Color) (ps qs : List Pixel) (s : State) :
    plotAll c (ps ++ qs) s = plotAll c qs (plotAll c ps s) := by
  simp [plotAll, plotCells_append]

@[simp] theorem plotAll_nil (c : Color) (s : State) : plotAll c [] s = s := rfl

@[simp] theorem pixel_finish (st : Status) (v : BitVec 32) (w : Word) (s : State) (q : Pixel) :
    (finish st v w s).pixel q = s.pixel q := rfl

/-! ### The canonical form -/

theorem plotPixel_wf (h : Memory.wf s.cfg.fbReset s.fb = true) :
    Memory.wf s.cfg.fbReset (plotPixel c p s).fb = true := by
  unfold plotPixel
  split
  · next hp => exact memWrite_wf (pixelAddr_lt hp) h
  · exact h

theorem plotCells_wf (ps : List (Pixel × Color)) (s : State) (h : Memory.wf s.cfg.fbReset s.fb = true) :
    Memory.wf s.cfg.fbReset (plotCells ps s).fb = true := by
  induction ps generalizing s with
  | nil => exact h
  | cons pc ps ih =>
    have h1 : Memory.wf (plotPixel pc.2 pc.1 s).cfg.fbReset (plotPixel pc.2 pc.1 s).fb = true := by
      rw [plotPixel_cfg]
      exact plotPixel_wf h
    simpa [plotCells] using ih _ h1

theorem plotAll_wf (c : Color) (ps : List Pixel) (s : State) (h : Memory.wf s.cfg.fbReset s.fb = true) :
    Memory.wf s.cfg.fbReset (plotAll c ps s).fb = true := plotCells_wf _ _ h

end Sys2Proof.Machine
end

