-- ==== Sys2Proof/Laws/Step.lean ====
section
/-! SUPPORT. What a step can do, that every command answers a next state, and what a drawing leaves. -/

namespace Sys2Proof.Machine

/-- Every command answers a next state (60_exceptions R268). -/
theorem exec_next (i : Instr) (s : State) : ∃ t, exec i s = .next t := by
  cases i <;> exact ⟨_, rfl⟩

/-- What a step that answers a next state did: it held an incomplete command's words, refused a command, or ran one. -/
theorem step_cases {s t : State} (h : step s = .next t) :
    s.cfg.wf = true ∧
      ((s.fetch = .incomplete ∧ t = s.collect) ∨
        (∃ why w n, s.fetch = .reject why w n ∧ t = rejectCommand why w (s.consume n)) ∨
        ∃ i n, s.fetch = .command i n ∧ exec i (s.consume n) = .next t) := by
  unfold step at h
  split at h
  · next hw =>
    refine ⟨hw, ?_⟩
    split at h
    · next hf => exact .inl ⟨hf, by simpa using h.symm⟩
    · next why w n hf => exact .inr (.inl ⟨why, w, n, hf, by simpa using h.symm⟩)
    · next i n hf => exact .inr (.inr ⟨i, n, hf, h⟩)
  · cases h

/-- The effective colour's bit is `c XOR INV` (40_framebuffer R110). -/
@[simp] theorem colourBit_effective (c : Color) (inv : Bool) : colourBit (effective c inv) = storedBit c inv := by
  cases c <;> cases inv <;> rfl

/-- The complement's stored bit is the complement of the stored bit (00_scope R14). -/
@[simp] theorem storedBit_notColour (c : Color) (inv : Bool) : storedBit (notColour c) inv = !storedBit c inv := by
  cases c <;> cases inv <;> rfl

end Sys2Proof.Machine
end

