-- ==== Sys2Proof/Laws/Text.lean ====
section
/-! SUPPORT. What drawing a glyph and PutChar can do, and the frame of a drawn glyph. -/

namespace Sys2Proof.Machine

variable (ft : Font) (ch : Byte) (c : Color) (s : State)

/-! ### drawGlyph changes nothing but the framebuffer and CX -/

@[simp] theorem drawGlyph_cx : (drawGlyph ft ch c s).cx = s.cx + BitVec.ofNat 16 ft.fw := rfl

@[simp] theorem drawGlyph_cy : (drawGlyph ft ch c s).cy = s.cy := by simp [drawGlyph]

@[simp] theorem drawGlyph_inv : (drawGlyph ft ch c s).inv = s.inv := by simp [drawGlyph]

@[simp] theorem drawGlyph_ist : (drawGlyph ft ch c s).ist = s.ist := by simp [drawGlyph]

@[simp] theorem drawGlyph_rstatus : (drawGlyph ft ch c s).rstatus = s.rstatus := by simp [drawGlyph]

@[simp] theorem drawGlyph_rval : (drawGlyph ft ch c s).rval = s.rval := by simp [drawGlyph]

@[simp] theorem drawGlyph_raux : (drawGlyph ft ch c s).raux = s.raux := by simp [drawGlyph]

@[simp] theorem drawGlyph_held : (drawGlyph ft ch c s).held = s.held := by simp [drawGlyph]

@[simp] theorem drawGlyph_text : (drawGlyph ft ch c s).text = s.text := by simp [drawGlyph]

@[simp] theorem drawGlyph_index : (drawGlyph ft ch c s).index = s.index := by simp [drawGlyph]

@[simp] theorem drawGlyph_answers : (drawGlyph ft ch c s).answers = s.answers := by simp [drawGlyph]

@[simp] theorem drawGlyph_draws : (drawGlyph ft ch c s).draws = s.draws := by simp [drawGlyph]

@[simp] theorem drawGlyph_trace : (drawGlyph ft ch c s).trace = s.trace := by simp [drawGlyph]

@[simp] theorem drawGlyph_cfg : (drawGlyph ft ch c s).cfg = s.cfg := by simp [drawGlyph]

/-- A drawn glyph keeps the canonical form. -/
theorem drawGlyph_wf (h : Memory.wf s.cfg.fbReset s.fb = true) :
    Memory.wf s.cfg.fbReset (drawGlyph ft ch c s).fb = true := plotCells_wf _ _ h

/-- A height that is a 16-bit value is reported as it is (43_text R185). -/
theorem heightResult_toNat {fh : Nat} (h : fh < 65536) : (heightResult fh).toNat = fh := by
  rw [heightResult, if_pos h, BitVec.toNat_ofNat, Nat.mod_eq_of_lt h]

/-- The edge check in the words of 43_text R182. -/
theorem edgeRefuses_iff : edgeRefuses ft s = true ↔ s.AtEdge ft := by
  unfold edgeRefuses State.AtEdge
  cases s.cfg.putcFit <;> simp

/-- The glyph check in the words of 43_text R181. -/
theorem glyphMissing_iff : glyphMissing ft ch = true ↔ ¬ hasGlyph ft ch := by
  simp only [glyphMissing, hasGlyph, Bool.or_eq_true, decide_eq_true_eq]
  omega

/-- What PutChar can do: refuse at the edge, refuse the character, or draw the cell (43_text R182). -/
theorem putChar_cases :
    (s.AtEdge ft ∧ putChar ft ch c s = (.textOverflow, s)) ∨
      (¬ s.AtEdge ft ∧ ¬ hasGlyph ft ch ∧ putChar ft ch c s = (.undefinedGlyph, s)) ∨
      (¬ s.AtEdge ft ∧ hasGlyph ft ch ∧ putChar ft ch c s = (.ok, drawGlyph ft ch c s)) := by
  by_cases he : s.AtEdge ft
  · exact .inl ⟨he, by simp [putChar, putStatus, (edgeRefuses_iff ft s).mpr he]⟩
  · have e : edgeRefuses ft s = false := by
      rw [← Bool.not_eq_true]
      exact fun h => he ((edgeRefuses_iff ft s).mp h)
    by_cases hg : hasGlyph ft ch
    · have g : glyphMissing ft ch = false := by
        rw [← Bool.not_eq_true]
        exact fun h => (glyphMissing_iff ft ch).mp h hg
      exact .inr (.inr ⟨he, hg, by simp [putChar, putStatus, e, g]⟩)
    · exact .inr (.inl ⟨he, hg, by simp [putChar, putStatus, e, (glyphMissing_iff ft ch).mpr hg]⟩)

end Sys2Proof.Machine
end

