-- ==== Sys2Proof/Laws/Transport.lean ====
section
/-! SUPPORT. The transport primitives and the framer: they draw answers and emit events, and change nothing else. -/

namespace Sys2Proof.Machine

-- One small lemma after the other: a thread for each at once exhausts the memory limit of the check.
set_option Elab.async false

/-! ### setup -/

@[simp] theorem setup_fb (s : State) : (setup s).2.fb = s.fb := rfl

@[simp] theorem setup_cx (s : State) : (setup s).2.cx = s.cx := rfl

@[simp] theorem setup_cy (s : State) : (setup s).2.cy = s.cy := rfl

@[simp] theorem setup_inv (s : State) : (setup s).2.inv = s.inv := rfl

@[simp] theorem setup_ist (s : State) : (setup s).2.ist = s.ist := rfl

@[simp] theorem setup_rstatus (s : State) : (setup s).2.rstatus = s.rstatus := rfl

@[simp] theorem setup_rval (s : State) : (setup s).2.rval = s.rval := rfl

@[simp] theorem setup_raux (s : State) : (setup s).2.raux = s.raux := rfl

@[simp] theorem setup_held (s : State) : (setup s).2.held = s.held := rfl

@[simp] theorem setup_text (s : State) : (setup s).2.text = s.text := rfl

@[simp] theorem setup_index (s : State) : (setup s).2.index = s.index := rfl

@[simp] theorem setup_cfg (s : State) : (setup s).2.cfg = s.cfg := rfl

/-! ### probe -/

@[simp] theorem probe_fb (s : State) : (probe s).2.fb = s.fb := rfl

@[simp] theorem probe_cx (s : State) : (probe s).2.cx = s.cx := rfl

@[simp] theorem probe_cy (s : State) : (probe s).2.cy = s.cy := rfl

@[simp] theorem probe_inv (s : State) : (probe s).2.inv = s.inv := rfl

@[simp] theorem probe_ist (s : State) : (probe s).2.ist = s.ist := rfl

@[simp] theorem probe_rstatus (s : State) : (probe s).2.rstatus = s.rstatus := rfl

@[simp] theorem probe_rval (s : State) : (probe s).2.rval = s.rval := rfl

@[simp] theorem probe_raux (s : State) : (probe s).2.raux = s.raux := rfl

@[simp] theorem probe_held (s : State) : (probe s).2.held = s.held := rfl

@[simp] theorem probe_text (s : State) : (probe s).2.text = s.text := rfl

@[simp] theorem probe_index (s : State) : (probe s).2.index = s.index := rfl

@[simp] theorem probe_cfg (s : State) : (probe s).2.cfg = s.cfg := rfl

/-! ### transmit -/

@[simp] theorem transmit_fb (k : FrameKind) (bs : List Byte) (s : State) : (transmit k bs s).2.fb = s.fb := rfl

@[simp] theorem transmit_cx (k : FrameKind) (bs : List Byte) (s : State) : (transmit k bs s).2.cx = s.cx := rfl

@[simp] theorem transmit_cy (k : FrameKind) (bs : List Byte) (s : State) : (transmit k bs s).2.cy = s.cy := rfl

@[simp] theorem transmit_inv (k : FrameKind) (bs : List Byte) (s : State) : (transmit k bs s).2.inv = s.inv := rfl

@[simp] theorem transmit_ist (k : FrameKind) (bs : List Byte) (s : State) : (transmit k bs s).2.ist = s.ist := rfl

@[simp] theorem transmit_rstatus (k : FrameKind) (bs : List Byte) (s : State) : (transmit k bs s).2.rstatus = s.rstatus := rfl

@[simp] theorem transmit_rval (k : FrameKind) (bs : List Byte) (s : State) : (transmit k bs s).2.rval = s.rval := rfl

@[simp] theorem transmit_raux (k : FrameKind) (bs : List Byte) (s : State) : (transmit k bs s).2.raux = s.raux := rfl

@[simp] theorem transmit_held (k : FrameKind) (bs : List Byte) (s : State) : (transmit k bs s).2.held = s.held := rfl

@[simp] theorem transmit_text (k : FrameKind) (bs : List Byte) (s : State) : (transmit k bs s).2.text = s.text := rfl

@[simp] theorem transmit_index (k : FrameKind) (bs : List Byte) (s : State) : (transmit k bs s).2.index = s.index := rfl

@[simp] theorem transmit_cfg (k : FrameKind) (bs : List Byte) (s : State) : (transmit k bs s).2.cfg = s.cfg := rfl

/-! ### sendFrame -/

@[simp] theorem sendFrame_fb (p : Payload) (s : State) : (sendFrame p s).2.fb = s.fb := by
  unfold sendFrame; split <;> rfl

@[simp] theorem sendFrame_cx (p : Payload) (s : State) : (sendFrame p s).2.cx = s.cx := by
  unfold sendFrame; split <;> rfl

@[simp] theorem sendFrame_cy (p : Payload) (s : State) : (sendFrame p s).2.cy = s.cy := by
  unfold sendFrame; split <;> rfl

@[simp] theorem sendFrame_inv (p : Payload) (s : State) : (sendFrame p s).2.inv = s.inv := by
  unfold sendFrame; split <;> rfl

@[simp] theorem sendFrame_ist (p : Payload) (s : State) : (sendFrame p s).2.ist = s.ist := by
  unfold sendFrame; split <;> rfl

@[simp] theorem sendFrame_rstatus (p : Payload) (s : State) : (sendFrame p s).2.rstatus = s.rstatus := by
  unfold sendFrame; split <;> rfl

@[simp] theorem sendFrame_rval (p : Payload) (s : State) : (sendFrame p s).2.rval = s.rval := by
  unfold sendFrame; split <;> rfl

@[simp] theorem sendFrame_raux (p : Payload) (s : State) : (sendFrame p s).2.raux = s.raux := by
  unfold sendFrame; split <;> rfl

@[simp] theorem sendFrame_held (p : Payload) (s : State) : (sendFrame p s).2.held = s.held := by
  unfold sendFrame; split <;> rfl

@[simp] theorem sendFrame_text (p : Payload) (s : State) : (sendFrame p s).2.text = s.text := by
  unfold sendFrame; split <;> rfl

@[simp] theorem sendFrame_index (p : Payload) (s : State) : (sendFrame p s).2.index = s.index := by
  unfold sendFrame; split <;> rfl

@[simp] theorem sendFrame_cfg (p : Payload) (s : State) : (sendFrame p s).2.cfg = s.cfg := by
  unfold sendFrame; split <;> rfl

/-! ### sendAll -/

@[simp] theorem sendAll_fb (ps : List Payload) (s : State) : (sendAll ps s).2.fb = s.fb := by
  induction ps generalizing s with
  | nil => rfl
  | cons p ps ih => simp [sendAll, ih]

@[simp] theorem sendAll_cx (ps : List Payload) (s : State) : (sendAll ps s).2.cx = s.cx := by
  induction ps generalizing s with
  | nil => rfl
  | cons p ps ih => simp [sendAll, ih]

@[simp] theorem sendAll_cy (ps : List Payload) (s : State) : (sendAll ps s).2.cy = s.cy := by
  induction ps generalizing s with
  | nil => rfl
  | cons p ps ih => simp [sendAll, ih]

@[simp] theorem sendAll_inv (ps : List Payload) (s : State) : (sendAll ps s).2.inv = s.inv := by
  induction ps generalizing s with
  | nil => rfl
  | cons p ps ih => simp [sendAll, ih]

@[simp] theorem sendAll_ist (ps : List Payload) (s : State) : (sendAll ps s).2.ist = s.ist := by
  induction ps generalizing s with
  | nil => rfl
  | cons p ps ih => simp [sendAll, ih]

@[simp] theorem sendAll_rstatus (ps : List Payload) (s : State) : (sendAll ps s).2.rstatus = s.rstatus := by
  induction ps generalizing s with
  | nil => rfl
  | cons p ps ih => simp [sendAll, ih]

@[simp] theorem sendAll_rval (ps : List Payload) (s : State) : (sendAll ps s).2.rval = s.rval := by
  induction ps generalizing s with
  | nil => rfl
  | cons p ps ih => simp [sendAll, ih]

@[simp] theorem sendAll_raux (ps : List Payload) (s : State) : (sendAll ps s).2.raux = s.raux := by
  induction ps generalizing s with
  | nil => rfl
  | cons p ps ih => simp [sendAll, ih]

@[simp] theorem sendAll_held (ps : List Payload) (s : State) : (sendAll ps s).2.held = s.held := by
  induction ps generalizing s with
  | nil => rfl
  | cons p ps ih => simp [sendAll, ih]

@[simp] theorem sendAll_text (ps : List Payload) (s : State) : (sendAll ps s).2.text = s.text := by
  induction ps generalizing s with
  | nil => rfl
  | cons p ps ih => simp [sendAll, ih]

@[simp] theorem sendAll_index (ps : List Payload) (s : State) : (sendAll ps s).2.index = s.index := by
  induction ps generalizing s with
  | nil => rfl
  | cons p ps ih => simp [sendAll, ih]

@[simp] theorem sendAll_cfg (ps : List Payload) (s : State) : (sendAll ps s).2.cfg = s.cfg := by
  induction ps generalizing s with
  | nil => rfl
  | cons p ps ih => simp [sendAll, ih]

/-! ### syncPages -/

@[simp] theorem syncPages_fb (ps : List Nat) (s : State) : (syncPages ps s).2.2.fb = s.fb := by
  induction ps generalizing s with
  | nil => rfl
  | cons p ps ih => simp [syncPages, ih]

@[simp] theorem syncPages_cx (ps : List Nat) (s : State) : (syncPages ps s).2.2.cx = s.cx := by
  induction ps generalizing s with
  | nil => rfl
  | cons p ps ih => simp [syncPages, ih]

@[simp] theorem syncPages_cy (ps : List Nat) (s : State) : (syncPages ps s).2.2.cy = s.cy := by
  induction ps generalizing s with
  | nil => rfl
  | cons p ps ih => simp [syncPages, ih]

@[simp] theorem syncPages_inv (ps : List Nat) (s : State) : (syncPages ps s).2.2.inv = s.inv := by
  induction ps generalizing s with
  | nil => rfl
  | cons p ps ih => simp [syncPages, ih]

@[simp] theorem syncPages_ist (ps : List Nat) (s : State) : (syncPages ps s).2.2.ist = s.ist := by
  induction ps generalizing s with
  | nil => rfl
  | cons p ps ih => simp [syncPages, ih]

@[simp] theorem syncPages_rstatus (ps : List Nat) (s : State) : (syncPages ps s).2.2.rstatus = s.rstatus := by
  induction ps generalizing s with
  | nil => rfl
  | cons p ps ih => simp [syncPages, ih]

@[simp] theorem syncPages_rval (ps : List Nat) (s : State) : (syncPages ps s).2.2.rval = s.rval := by
  induction ps generalizing s with
  | nil => rfl
  | cons p ps ih => simp [syncPages, ih]

@[simp] theorem syncPages_raux (ps : List Nat) (s : State) : (syncPages ps s).2.2.raux = s.raux := by
  induction ps generalizing s with
  | nil => rfl
  | cons p ps ih => simp [syncPages, ih]

@[simp] theorem syncPages_held (ps : List Nat) (s : State) : (syncPages ps s).2.2.held = s.held := by
  induction ps generalizing s with
  | nil => rfl
  | cons p ps ih => simp [syncPages, ih]

@[simp] theorem syncPages_text (ps : List Nat) (s : State) : (syncPages ps s).2.2.text = s.text := by
  induction ps generalizing s with
  | nil => rfl
  | cons p ps ih => simp [syncPages, ih]

@[simp] theorem syncPages_index (ps : List Nat) (s : State) : (syncPages ps s).2.2.index = s.index := by
  induction ps generalizing s with
  | nil => rfl
  | cons p ps ih => simp [syncPages, ih]

@[simp] theorem syncPages_cfg (ps : List Nat) (s : State) : (syncPages ps s).2.2.cfg = s.cfg := by
  induction ps generalizing s with
  | nil => rfl
  | cons p ps ih => simp [syncPages, ih]

/-! ### syncFrames -/

@[simp] theorem syncFrames_fb (s : State) : (syncFrames s).2.2.fb = s.fb := syncPages_fb _ _

@[simp] theorem syncFrames_cx (s : State) : (syncFrames s).2.2.cx = s.cx := syncPages_cx _ _

@[simp] theorem syncFrames_cy (s : State) : (syncFrames s).2.2.cy = s.cy := syncPages_cy _ _

@[simp] theorem syncFrames_inv (s : State) : (syncFrames s).2.2.inv = s.inv := syncPages_inv _ _

@[simp] theorem syncFrames_ist (s : State) : (syncFrames s).2.2.ist = s.ist := syncPages_ist _ _

@[simp] theorem syncFrames_rstatus (s : State) : (syncFrames s).2.2.rstatus = s.rstatus := syncPages_rstatus _ _

@[simp] theorem syncFrames_rval (s : State) : (syncFrames s).2.2.rval = s.rval := syncPages_rval _ _

@[simp] theorem syncFrames_raux (s : State) : (syncFrames s).2.2.raux = s.raux := syncPages_raux _ _

@[simp] theorem syncFrames_held (s : State) : (syncFrames s).2.2.held = s.held := syncPages_held _ _

@[simp] theorem syncFrames_text (s : State) : (syncFrames s).2.2.text = s.text := syncPages_text _ _

@[simp] theorem syncFrames_index (s : State) : (syncFrames s).2.2.index = s.index := syncPages_index _ _

@[simp] theorem syncFrames_cfg (s : State) : (syncFrames s).2.2.cfg = s.cfg := syncPages_cfg _ _

/-! ### The frames offered -/

/-- The frame SendFrame makes of a payload, with its kind (44_sync R211). -/
def wireFrame (p : Payload) : WireFrame := (p.1, frameOf p)

/-- What SendFrame can do: it offers its frame once, and its Boolean says whether the frame was delivered
(44_sync R211). -/
theorem sendFrame_spec (p : Payload) (s : State) :
    ∃ o : Bool × Bool, (sendFrame p s).2.trace = s.trace ++ frameEvents (wireFrame p) o.1 o.2 ∧ (sendFrame p s).1 = (o.1 && o.2) := by
  unfold sendFrame
  split
  · next h =>
    refine ⟨(true, (transmit p.1 (frameOf p) (probe s).2).1), ?_, by simp⟩
    have h1 : nextAnswer s = true := h
    simp [transmit, probe, frameEvents, wireFrame, h1]
  · next h =>
    refine ⟨(false, false), ?_, by simp⟩
    have h1 : nextAnswer s = false := by simpa [probe] using h
    simp [probe, frameEvents, h1]

/-- What a list of frames can do: each is offered once, in order, whatever the answers (44_sync R211, R214). -/
theorem sendAll_spec (ps : List Payload) (s : State) :
    ∃ outs : List (Bool × Bool), outs.length = ps.length ∧ (sendAll ps s).2.trace = s.trace ++ offered (ps.map wireFrame) outs ∧
      (sendAll ps s).1 = outs.countP (fun o => !(o.1 && o.2)) := by
  induction ps generalizing s with
  | nil => exact ⟨[], rfl, by simp [sendAll, offered], rfl⟩
  | cons p ps ih =>
    obtain ⟨o, ht, hd⟩ := sendFrame_spec p s
    obtain ⟨outs, hl, ht', hd'⟩ := ih (sendFrame p s).2
    refine ⟨o :: outs, by simp [hl], ?_, ?_⟩
    · simp [sendAll, ht', ht, offered]
    · simp only [sendAll, hd', hd, List.countP_cons]
      cases o.1 && o.2 <;> simp [Nat.add_comm]

/-- The drops among the events of a frame: one unless it was delivered. -/
theorem dropCount_frameEvents (w : WireFrame) (o : Bool × Bool) :
    dropCount (frameEvents w o.1 o.2) = if o.1 && o.2 then 0 else 1 := by
  obtain ⟨r, t⟩ := o
  cases r <;> cases t <;> rfl

/-- Reading a page does not depend on the transport. -/
theorem pageFrames_congr {s t : State} (hf : t.fb = s.fb) (hc : t.cfg = s.cfg) (p : Nat) :
    pageFrames t p = pageFrames s p := by
  simp [pageFrames, pageBytes, readByte_congr hf hc, hc]

/-- The frames that SyncFrames offers are the 32 of 44_sync R215, each page's bytes in address order. -/
theorem wireFrames_pages (s : State) :
    ((List.range PAGES).flatMap (pageFrames s)).map wireFrame = syncWireFrames s.cfg s.pageOf := by
  have page (p : Nat) : pageBytes s p = s.pageOf p := by
    simp only [pageBytes, State.pageOf, WIDTH, Nat.mul_comm p]
  simp [syncWireFrames, List.map_flatMap, pageFrames, page, wireFrame, frameOf, commandPayload, CMD_PREFIX, DATA_PREFIX]

/-- How a command that offered frames ends: OK when none was dropped, else XFER_DROPPED with the count and the mask
(44_sync R221, R222). -/
theorem finishFrames_cases (dropped : Nat) (mask : Word) (s : State) :
    (dropped = 0 ∧ finishFrames dropped mask s = finish .ok 0 0 s) ∨
      (dropped ≠ 0 ∧ finishFrames dropped mask s = finish .xferDropped (dropResult dropped) mask s) := by
  unfold finishFrames
  split <;> simp_all

/-- A count that is a 32-bit value is reported as it is (44_sync R224). -/
theorem dropResult_toNat {n : Nat} (h : n < 2 ^ 32) : (dropResult n).toNat = n := by
  rw [dropResult, if_pos h, BitVec.toNat_ofNat, Nat.mod_eq_of_lt h]

end Sys2Proof.Machine
end

