-- ==== Sys2Proof/Laws/Widths.lean ====
section
/-! SUPPORT. The 16-bit two's complement of 00_scope R11 on words: `s16` is the signed reading of a word that wrapped. -/

namespace Sys2Proof.Machine

/-- `s16` is the signed value of the wrapped word (00_scope R11). -/
theorem s16_eq (v : Int) : s16 v = (BitVec.ofInt 16 v).toInt := by
  rw [BitVec.toInt_ofInt, Int.bmod_def, s16]
  split <;> omega

/-- A word is the wrapped word of its signed value. -/
theorem ofInt_signed (w : Word) : BitVec.ofInt 16 w.toInt = w := BitVec.ofInt_toInt

/-- Addition of words is exact addition reduced with `s16`. -/
theorem toInt_add_s16 (a b : Word) : (a + b).toInt = s16 (a.toInt + b.toInt) := by
  rw [s16_eq, BitVec.ofInt_add, ofInt_signed, ofInt_signed]

/-- A sum of words as a pixel coordinate: `u16` of the exact sum. -/
theorem ofInt_add_signed (a b : Word) : BitVec.ofInt 16 (a.toInt + b.toInt) = a + b := by
  rw [BitVec.ofInt_add, ofInt_signed, ofInt_signed]

/-- A difference of words as a pixel coordinate: `u16` of the exact difference. -/
theorem ofInt_sub_signed (a b : Word) : BitVec.ofInt 16 (a.toInt - b.toInt) = a - b := by
  rw [Int.sub_eq_add_neg, BitVec.ofInt_add, BitVec.ofInt_neg, ofInt_signed, ofInt_signed, BitVec.sub_eq_add_neg]

/-- Subtraction of words is exact subtraction reduced with `s16`. -/
theorem toInt_sub_s16 (a b : Word) : (a - b).toInt = s16 (a.toInt - b.toInt) := by
  rw [s16_eq, ofInt_sub_signed]

end Sys2Proof.Machine
end

