-- ==== Sys2Proof/Tests/Slice0.lean ====
section
/-! SUPPORT. Tests of the model against the spec's vectors (95_test_vectors), ill-formed commands refused, words decoded,
and for each statement with hypotheses a state and operands that meet them. -/

namespace Sys2Proof.Tests

open Sys2Proof Sys2Proof.Machine

-- One test after the other: many kernel evaluations at once exhaust the memory limit of the check.
set_option Elab.async false

/-! ### Ill-formed commands -/

theorem test_illformed_putc_font : (Instr.putc .set 3 0x41).wellFormed 3 = false := by decide
theorem test_illformed_puts_font : (Instr.puts .set 7 [0x41]).wellFormed 3 = false := by decide
theorem test_illformed_puts_zero : (Instr.puts .set 0 [0x41, 0, 0x42]).wellFormed 3 = false := by decide
theorem test_illformed_puts_long : (Instr.puts .set 0 (List.replicate 256 0x41)).wellFormed 3 = false := by decide +kernel
theorem test_illformed_measure_font : (Instr.measure 3 []).wellFormed 3 = false := by decide
theorem test_illformed_measure_zero : (Instr.measure 0 [0]).wellFormed 3 = false := by decide
theorem test_illformed_measure_long : (Instr.measure 0 (List.replicate 256 0x41)).wellFormed 3 = false := by decide +kernel
theorem test_wellformed_puts_longest : (Instr.puts .set 2 (List.replicate 255 0x41)).wellFormed 3 = true := by decide +kernel

/-! ### Words written out from 30_encoding R81, R88 and R89 and the vectors of 95_test_vectors -/

theorem test_decode_init : decode 3 [0x0001] = .command .init 1 := by decide
theorem test_decode_fill : decode 3 [0x0102] = .command (.fill .set) 1 := by decide
theorem test_decode_sync : decode 3 [0x0003] = .command .sync 1 := by decide
theorem test_decode_setinv : decode 3 [0x0104] = .command (.setinv true) 1 := by decide
theorem test_decode_setpixel : decode 3 [0x0110, 0x0005, 0x000D] = .command (.setpixel .set 5 13) 3 := by decide
theorem test_decode_line :
    decode 3 [0x0111, 0x0000, 0x0001, 0x0002, 0x000A] = .command (.line .set 0 1 2 10) 5 := by decide
theorem test_decode_rect :
    decode 3 [0x0012, 0x0001, 0x0002, 0x0003, 0xFFFF] = .command (.rect .clear 1 2 3 65535) 5 := by decide
theorem test_decode_rectf :
    decode 3 [0x0113, 0x000A, 0x000B, 0x0014, 0x0015] = .command (.rectf .set 10 11 20 21) 5 := by decide
theorem test_decode_tri :
    decode 3 [0x0114, 1, 2, 3, 4, 5, 6] = .command (.tri .set 1 2 3 4 5 6) 7 := by decide
theorem test_decode_trif :
    decode 3 [0x0015, 1, 2, 3, 4, 5, 6] = .command (.trif .clear 1 2 3 4 5 6) 7 := by decide
theorem test_decode_circ :
    decode 3 [0x0116, 0x0040, 0x0020, 0xFFFE] = .command (.circ .set 64 32 (-2)) 4 := by decide
theorem test_decode_circf :
    decode 3 [0x0117, 0x000A, 0x000B, 0x0003] = .command (.circf .set 10 11 3) 4 := by decide
theorem test_decode_gotoxy : decode 3 [0x0020, 0x00C8, 0x0001] = .command (.gotoxy 200 1) 3 := by decide
theorem test_decode_putc : decode 3 [0x0521, 0x0041] = .command (.putc .set 2 0x41) 2 := by decide
theorem test_decode_puts :
    decode 3 [0x0322, 0x0048, 0x0049, 0x0000] = .command (.puts .set 1 [0x48, 0x49]) 4 := by decide
theorem test_decode_measure :
    decode 3 [0x0223, 0x0048, 0x0000, 0x0001] = .command (.measure 1 [0x48]) 3 := by decide
theorem test_decode_rdpix : decode 3 [0x0030, 0x0005, 0x000D] = .command (.rdpix 5 13) 3 := by decide
theorem test_decode_rdbyte : decode 3 [0x0031, 0x03FF] = .command (.rdbyte 1023) 2 := by decide
theorem test_decode_rdstate : decode 3 [0x0032] = .command .rdstate 1 := by decide

/-- The header 0x0000 is no no-op (30_encoding R90). -/
theorem test_decode_zero : decode 3 [0x0000] = .reject .unassignedOpcode 0 1 := by decide

/-- A stray colour is refused after the whole command (30_encoding R88). -/
theorem test_decode_stray_colour : decode 3 [0x0120, 1, 2, 9] = .reject .strayColour 0x0120 3 := by decide

/-- The table word of a row whose operand is a string reads the empty string. -/
theorem test_table_word : decodeTableWord 16 0x0322 = some (.puts .set 1 []) := by decide

/-! ### One command on a small state, with the spec's test font TF -/

/-- Font TF of 95_test_vectors: row `k` of font `f`. -/
def tf (f k : Nat) : Word :=
  let fh := [10, 18, 26].getD f 1
  BitVec.ofNat 16 (((32 + k / fh) <<< 8) ||| (k % fh))

/-- The default configuration with TF, a settle delay of 1 and `FB_RESET` all zeros. -/
def cfg : Config := { Config.withOpen tf 1 (fun _ => 0) with fbReset := Vector.replicate 1024 0 }

/-- The reset state of that configuration. -/
def s0 : State := { State.reset with cfg := cfg }

/-- The same in Ready, with so many positive answers to come. -/
def ready (n : Nat) : State := { s0 with ist := .ready, answers := List.replicate n true }

/-- What one step makes of the words. -/
def after (ws : List Word) (s : State) : State :=
  match step (hostWrite ws s) with
  | .next t => t
  | .fault _ => s
  | .refused _ => s

/-- The columns of the pixels of one row. -/
def columns (ps : List Pixel) (y : Word) : List Nat := (ps.filter (fun p => decide (p.2 = y))).map (fun p => p.1.toNat)

/-- V1.1a. -/
theorem test_setpixel : (after [0x0110, 5, 13] s0).readByte 133 = 0x20 := by decide +kernel

/-- V2.2c: with `INV = 1`, SETPIXEL.CLEAR sets the bit. -/
theorem test_setpixel_inverted : (after [0x0010, 0, 0] { s0 with inv := true }).readByte 0 = 0x01 := by decide +kernel

/-- V1.2c: FILL does not read `INV`. -/
theorem test_fill : (after [0x0102] { s0 with inv := true }).readByte 0 = 0xFF := by decide +kernel

/-- V2.3b. -/
theorem test_setinv : (after [0x0104] s0).inv = true := by decide +kernel

/-- V1.1b. -/
theorem test_rdpix :
    hostResults (after [0x0030, 5, 13] { s0 with fb := [(133, 0x20)] }) = (0, 1, 0x5085) := by decide +kernel

/-- V2.4. -/
theorem test_rdpix_range : hostResults (after [0x0030, 0x80, 0] s0) = (7, 0, 0) := by decide +kernel

/-- V2.2a. -/
theorem test_rdbyte : hostResults (after [0x0031, 0x03FF] { s0 with fb := [(1023, 0x80)] }) = (0, 0x80, 0) := by
  decide +kernel

/-- V2.4. -/
theorem test_rdbyte_range : hostResults (after [0x0031, 0x0400] s0) = (7, 0, 0) := by decide +kernel

/-- 41_raster R132, item 7. -/
theorem test_line : linePixels 0 0 1 2 = [(0, 0), (0, 1), (1, 2)] := by decide +kernel

/-- 41_raster R132, item 7: the other direction. -/
theorem test_line_back : linePixels 1 2 0 0 = [(1, 2), (1, 1), (0, 0)] := by decide +kernel

/-- 41_raster R133: `w = h = 0` plots the one pixel of the corner. -/
theorem test_rect_corner : (after [0x0112, 3, 4, 0, 0] s0).fb = [(3, 0x10)] := by decide +kernel

/-- The example of 41_raster R133: row 15 holds the two sides. -/
theorem test_rect : columns (rectPixels 10 10 20 20) 15 = [10, 30] := by decide +kernel

/-- 42_fill R160: `w = 2` plots three columns. -/
theorem test_rectf : columns (rectfPixels 125 60 2 0xFFFF) 62 = [125, 126, 127] := by decide +kernel

/-- The example of 41_raster R135. -/
theorem test_tri : columns (triPixels 0 0 4 0 0 4) 2 = [2, 0] := by decide +kernel

/-- The example of 42_fill R162. -/
theorem test_trif : (columns (trifPixels 0 0 4 0 0 4) 1).dedup = [0, 1, 2, 3] := by decide +kernel

/-- V3.1. -/
theorem test_circ : columns (circPixels 10 10 3) 7 = [10, 11, 9] := by decide +kernel

/-- V3.3: a negative radius skips the loop. -/
theorem test_circ_negative : columns (circPixels 64 32 0xFFFE) 32 = [62, 66] := by decide +kernel

/-- The example of 42_fill R165. -/
theorem test_circf : (columns (circfPixels 10 10 3) 8).dedup = [8, 9, 10, 11, 12] := by decide +kernel

/-- The example of 43_text R180. -/
theorem test_gotoxy : (after [0x0020, 5, 7] s0).cx = 5 ∧ (after [0x0020, 5, 7] s0).cy = 7 := by decide +kernel

/-- 'A' of TF in F0 is set in column 1 only (95_test_vectors, the test font): byte 1 holds rows 0 to 7. -/
theorem test_putc : (after [0x0121, 0x41] s0).readByte 1 = 0xFF := by decide +kernel

/-- 43_text R183: character 127 has no glyph. -/
theorem test_putc_glyph : hostResults (after [0x0121, 127] s0) = (3, 127, 0) := by decide +kernel

/-- 43_text R184: a string stops at its first character without a glyph. -/
theorem test_puts_stops : hostResults (after [0x0322, 0x48, 0x7F, 0x49, 0] s0) = (3, 0x7F, 1) := by decide +kernel

/-- V1.5: the cursor and the results. -/
theorem test_puts_results :
    (after [0x0322, 0x48, 0x49, 0] s0).cx = 22 ∧ hostResults (after [0x0322, 0x48, 0x49, 0] s0) = (0, 0, 2) := by
  decide +kernel

/-- The example of 43_text R185. -/
theorem test_measure : hostResults (after [0x0223, 0x48, 0x49, 0] s0) = (0, 22, 18) := by decide +kernel

/-- 44_sync R222: refused in Uninitialized with no event; with the first probe false, one frame of page 0 is dropped. -/
theorem test_sync_results :
    hostResults (after [0x0003] s0) = (4, 0, 0) ∧ (after [0x0003] s0).trace = [] ∧
      hostResults (after [0x0003] { ready 0 with answers := false :: List.replicate 62 true }) = (5, 1, 1) := by
  decide +kernel

/-- 44_sync R215, 20_memory R57: the last frame carries bytes 896 to 1023 in increasing address order after 0x40. -/
theorem test_sync_data_frame :
    (after [0x0003] { ready 64 with fb := [(895, 0x11), (896, 0x22), (897, 0x33), (1023, 0x80)] }).trace[63]?
      = some (.tx .data (0x40 :: 0x22 :: 0x33 :: (List.replicate 125 0 ++ [0x80])) true) := by decide +kernel

/-- 44_sync R221: a setup that fails is the whole trace. -/
theorem test_init_failed :
    (after [0x0001] { s0 with answers := [false] }).trace = [.setup false] ∧
      hostResults (after [0x0001] { s0 with answers := [false] }) = (6, 0, 0) := by decide +kernel

/-- 44_sync R221: 122 events when every answer is positive. -/
theorem test_init : (after [0x0001] { s0 with answers := List.replicate 121 true }).trace.length = 122 := by
  decide +kernel

/-- The example of 44_sync R225. -/
theorem test_rdstate :
    hostResults (after [0x0032] { s0 with cx := 22, cy := 5, inv := true, ist := .ready }) = (0, 0x00050016, 3) := by
  decide +kernel

/-! ### The hypotheses of every statement can be met -/

theorem witness_DecodeEncodeRoundTrip :
    (Instr.puts .set 2 (List.replicate 255 0xFF)).wellFormed 3 = true ∧ (Instr.measure 0 []).wellFormed 1 = true := by
  decide +kernel

theorem witness_EncodeDecodeRoundTrip : decode 3 [0x0322, 0x48, 0, 0x0032] = .command (.puts .set 1 [0x48]) 3 := by decide

theorem witness_DecoderChecksInOrder_unassigned : Opcode.ofByte? (opField 0x0000) = none := by decide

theorem witness_DecoderChecksInOrder_assigned :
    Opcode.ofByte? (opField 0xF121) = some .putc ∧ operandWords Opcode.putc.shape [0xFFFF] = some [0xFFFF] := by decide

theorem witness_DecoderChecksInOrder_reserved : decode 3 [0x1101] = .reject .reservedBits 0x1101 1 := by decide

theorem witness_DecoderChecksInOrder_stray_font : decode 3 [0x0202] = .reject .strayFont 0x0202 1 := by decide

theorem witness_DecoderChecksInOrder_terminator :
    decode 3 (0x0822 :: List.replicate 257 0x0141) = .reject .noTerminator 0x0822 257 := by decide +kernel

theorem witness_DecoderChecksInOrder_high_byte : decode 3 [0x0822, 0x0100] = .reject .characterHighByte 0x0822 2 := by decide

theorem witness_DecoderChecksInOrder_font_index : decode 3 [0x0621, 0x0041] = .reject .fontIndex 0x0621 2 := by decide

theorem witness_StepRunsDecodedCommand :
    s0.cfg.wf = true ∧ { s0 with held := [0x0010], text := [5, 6, 7] }.fetch = .command (.setpixel .clear 5 6) 3 := by
  decide +kernel

theorem witness_IncompleteCommandWaits :
    s0.cfg.wf = true ∧ s0.fetch = .incomplete ∧ { s0 with held := [0x0010], text := [5] }.fetch = .incomplete := by
  decide +kernel

theorem witness_RefusedCommandWritesOnlyResults :
    s0.cfg.wf = true ∧ { s0 with text := [0x0000, 5] }.fetch = .reject .unassignedOpcode 0 1 ∧
      { s0 with held := 0x0022 :: List.replicate 255 0x41, text := [0x41] }.fetch = .reject .noTerminator 0x0022 257 := by
  decide +kernel

theorem witness_StepRefusesExactlyMalformedConfigurations :
    ((∀ ft ∈ s0.cfg.fonts, fontValid ft) ∧ 1 ≤ s0.cfg.settleMs) ∧
      ¬ ((∀ ft ∈ ({ cfg with settleMs := 0 } : Config).fonts, fontValid ft) ∧ 1 ≤ ({ cfg with settleMs := 0 } : Config).settleMs) ∧
      ¬ (∀ ft ∈ [Config.defaultFont tf 0 17 10], fontValid ft) := by
  decide +kernel

theorem witness_StepKeepsInvariant :
    { s0 with text := [0x0010, 5] }.Inv ∧
      step { s0 with text := [0x0010, 5] } = .next { s0 with held := [0x0010, 5], text := [0x0010, 5], index := 2 } := by
  constructor
  · decide +kernel
  · rfl

theorem witness_DrawingDependsOnlyOnTheSet :
    Memory.wf s0.cfg.fbReset [(0, 0x01), (1023, 0x80)] = true ∧ ((127, 63) : Pixel) ≠ (127, 62) := by decide +kernel

theorem witness_DrawingDependsOnlyOnTheSet_lists :
    ∀ q : Pixel, onPanel q = true → (q ∈ [((0, 0) : Pixel), (128, 0), (0, 0)] ↔ q ∈ [((0, 0) : Pixel)]) := by
  intro q hq
  have h : q ≠ (128, 0) := by rintro rfl; revert hq; decide
  simp only [List.mem_cons, List.not_mem_nil, or_false]
  tauto

theorem witness_CanonicalMemoryUnique :
    Memory.wf cfg.fbReset [(3, 0x01), (1023, 0x80)] = true ∧ Memory.wf cfg.fbReset [(0, 0x00)] = false ∧
      Memory.wf cfg.fbReset [(1024, 0x01)] = false := by decide +kernel

theorem witness_PixelAddressBijection :
    onPanel (127, 63) = true ∧ pixelAddr (127, 63) = 1023 ∧ pixelBit (127, 63) = 7 ∧ onPanel (128, 0) = false ∧
      onPanel (0, 64) = false := by decide

theorem witness_FillThenSetpixelUnderInversion :
    { s0 with inv := true }.inv = true ∧ onPanel (127, 63) = true := by decide +kernel

theorem witness_RdpixReadsOnePixel :
    ((127 : Word).toNat < 128 ∧ (63 : Word).toNat < 64) ∧ ¬ ((128 : Word).toNat < 128 ∧ (63 : Word).toNat < 64) ∧
      ¬ ((127 : Word).toNat < 128 ∧ (64 : Word).toNat < 64) := by decide

theorem witness_RdbyteReadsOneByte : (1023 : Word).toNat < 1024 ∧ ¬ (1024 : Word).toNat < 1024 := by decide

theorem witness_StraightLinesAreIntervals :
    clampTo WIDTH 127 = clampTo WIDTH 65535 ∧ clampTo HEIGHT 63 = clampTo HEIGHT 64 := by decide

theorem witness_LineLaws : (linePixels 0 0 2 1)[1]? = some (1, 0) ∧ (linePixels 0 0 2 1)[2]? = some (2, 1) := by
  decide +kernel

theorem witness_LineLaws_directions :
    (clampTo WIDTH 127 = clampTo WIDTH 128 ∨ clampTo HEIGHT 0 = clampTo HEIGHT 63) ∧
      ¬ (clampTo WIDTH 126 = clampTo WIDTH 127 ∨ clampTo HEIGHT 62 = clampTo HEIGHT 63) := by decide

theorem witness_LineLoopEnds : (0 : Nat) ≠ 127 ∧ (63 : Nat) ≠ 0 := by decide

theorem witness_CircleSymmetry :
    0 < signed 31 ∧ signed 31 ≤ signed 31 ∧ signed 31 ≤ signed 32 ∧ signed 31 + signed 31 ≤ 127 ∧
      signed 32 + signed 31 ≤ 63 ∧ (((31 : Word) + 0, (32 : Word) + 31) : Pixel) ∈ circPixels 31 32 31 := by decide +kernel

theorem witness_TrifSweepOnPanel :
    onPanel (0, 0) = true ∧ onPanel (127, 63) = true ∧ (trifPoints 0 0 2 1)[0]? = some (0, 0) ∧
      (trifPoints 0 0 2 1)[1]? = some (1, 1) := by decide +kernel

theorem witness_CircfAxisRedundant :
    0 < signed 1 ∧ signed 1 ≤ signed 126 ∧ signed 1 ≤ signed 62 ∧ signed 126 + signed 1 ≤ 127 ∧
      signed 62 + signed 1 ≤ 63 ∧ ((126, 63) : Pixel) ∈ axisPixels 126 62 1 := by decide +kernel

theorem witness_CircfSymmetry :
    0 < signed 3 ∧ signed 3 ≤ signed 10 ∧ signed 3 ≤ signed 10 ∧ signed 10 + signed 3 ≤ 127 ∧
      signed 10 + signed 3 ≤ 63 ∧ (((10 : Word) + 2, (10 : Word) + 1) : Pixel) ∈ circfPixels 10 10 3 := by decide +kernel

theorem witness_PutcRefusals_edge :
    s0.cfg.fonts[(2 : BitVec 3).toNat]? = some (Config.defaultFont tf 2 16 26) ∧
      { s0 with cx := 128 }.AtEdge (Config.defaultFont tf 2 16 26) ∧
      { s0 with cy := 64 }.AtEdge (Config.defaultFont tf 2 16 26) ∧
      { s0 with cx := 112, cfg := { cfg with putcFit := .glyphFit } }.AtEdge (Config.defaultFont tf 2 16 26) := by
  refine ⟨rfl, ?_⟩
  decide +kernel

theorem witness_PutcRefusals_glyph :
    ¬ { s0 with cx := 127, cy := 63 }.AtEdge (Config.defaultFont tf 2 16 26) ∧
      ¬ hasGlyph (Config.defaultFont tf 2 16 26) 31 ∧ ¬ hasGlyph (Config.defaultFont tf 2 16 26) 127 := by
  decide +kernel

theorem witness_PutcPaintsTheCell :
    s0.cfg.fonts[(0 : BitVec 3).toNat]? = some (Config.defaultFont tf 0 7 10) ∧
      fontValid (Config.defaultFont tf 0 7 10) ∧ ¬ { s0 with cx := 127, cy := 63 }.AtEdge (Config.defaultFont tf 0 7 10) ∧
      hasGlyph (Config.defaultFont tf 0 7 10) 32 ∧ hasGlyph (Config.defaultFont tf 0 7 10) 126 ∧
      coord { s0 with cx := 127, cy := 63 }.cy + 10 ≤ 65536 := by
  refine ⟨rfl, ?_⟩
  decide +kernel

theorem witness_PutsRunsPutcInOrder : (2 : BitVec 3).toNat < s0.cfg.nfonts := by decide +kernel

theorem witness_PutsAdvancesTheCursor :
    s0.cfg.fonts[(1 : BitVec 3).toNat]? = some (Config.defaultFont tf 1 11 18) ∧
      (after [0x0322, 0x48, 0] s0).rstatus = statusCode .ok ∧ fontValid (Config.defaultFont tf 1 11 18) ∧
      coord s0.cy + 18 ≤ 65536 := by
  refine ⟨rfl, ?_⟩
  decide +kernel

theorem witness_MeasureReturnsTheSize :
    s0.cfg.fonts[(2 : BitVec 3).toNat]? = some (Config.defaultFont tf 2 16 26) ∧
      fontValid (Config.defaultFont tf 2 16 26) ∧ (List.replicate 255 (0x41 : Byte)).length ≤ MAXSTR ∧
      (Config.defaultFont tf 2 16 26).fh ≤ 65535 := by
  refine ⟨rfl, ?_⟩
  decide +kernel

theorem witness_MissingFontIsIllegal : s0.cfg.fonts[(3 : BitVec 3).toNat]? = none := by decide +kernel

theorem witness_SyncOffersEveryFrame : s0.ist = .uninitialized ∧ (ready 0).ist = .ready := by decide +kernel

theorem witness_SyncFollowsTheAnswers :
    (ready 64).ist = .ready ∧ (List.replicate 32 (true, true)).length = 32 ∧
      (ready 64).answers = answersOf (List.replicate 32 (true, true)) ++ [] := by decide +kernel

theorem witness_FillThenSyncFrames :
    (ready 65).ist = .ready ∧ (ready 65).answers = List.replicate 64 true ++ [true] := by decide +kernel

theorem witness_InitRunsTheSequence :
    nextAnswer (ready 1) = true ∧ nextAnswer { s0 with answers := [false] } = false := by decide +kernel

theorem witness_InitAllPositive :
    (ready 122).cfg.initCmds.length = 28 ∧ (ready 122).answers = List.replicate 121 true ++ [true] := by decide +kernel

theorem witness_OnlyInitAndSyncEmit : emits .rdstate = false ∧ emits (.fill .set) = false := by decide

theorem witness_DropsAreCountedExactly :
    dropCount (after [0x0003] { ready 0 with answers := false :: List.replicate 62 true }).trace < 2 ^ 32 ∧
      dropCount [.probe false, .tx .cmd [0x00, 0xB0] false, .probe true] = 2 := by decide +kernel

theorem witness_ReadyStateMachine :
    (Instr.init = .init ∧ nextAnswer (ready 1) = true) ∧ ¬ (Instr.sync = .init ∧ nextAnswer (ready 1) = true) := by
  decide +kernel

theorem witness_ConfigurationNeverWritten : step s0 = .next s0 := by rfl

theorem witness_RegisterWriters :
    writesInv .init = false ∧ writesCx .sync = false ∧ writesCy (.putc .set 0 0x41) = false ∧ writesBytes .sync = false := by
  decide

theorem witness_StatusCodesByCommand : (Instr.putc .set 2 0).wellFormed s0.cfg.nfonts = true := by decide +kernel

theorem witness_DrawingNeedsNoInit :
    Instr.fill .set ≠ .init ∧ Instr.fill .set ≠ .sync ∧ Instr.fill .set ≠ .rdstate := by decide

/-- One word pair for each of the three cases, at the clamp's edge. -/
theorem witness_DrawLineFollowsTheRule :
    linePixels 128 0 127 1 = [u16Pixel 127 0, u16Pixel 127 1] ∧ linePixels 126 64 128 63 = [u16Pixel 126 63, u16Pixel 127 63] ∧
      linePixels 126 62 128 64 = [u16Pixel 126 62, u16Pixel 127 63] := by decide +kernel

end Sys2Proof.Tests
end

section
/-! SUPPORT. What a command leaves alone whatever it does: the words it is read from, the parameters, and the canonical
form of the framebuffer. -/

namespace Sys2Proof.Machine

/-- `u` has the command port and the parameters of `s`, and a canonical framebuffer when `s` has one. Every move a command
makes before it writes its results keeps these (10_state R22, 20_memory R63, 70_reset_and_hazards R282). -/
structure State.Keeps (s u : State) : Prop where
  held : u.held = s.held
  text : u.text = s.text
  index : u.index = s.index
  cfg : u.cfg = s.cfg
  fb_wf : Memory.wf s.cfg.fbReset s.fb = true → Memory.wf s.cfg.fbReset u.fb = true

/-- `t` is how a command that starts in `s` ends: its last write is the result registers (00_scope R12). -/
def State.Finishes (s t : State) : Prop := ∃ st v a u, t = finish st v a u ∧ s.Keeps u

variable {s u t : State}

theorem State.Keeps.refl (s : State) : s.Keeps s := ⟨rfl, rfl, rfl, rfl, id⟩

theorem State.Keeps.trans (h : s.Keeps u) (k : u.Keeps t) : s.Keeps t where
  held := k.held.trans h.held
  text := k.text.trans h.text
  index := k.index.trans h.index
  cfg := k.cfg.trans h.cfg
  fb_wf hw := h.cfg ▸ k.fb_wf (h.cfg.symm ▸ h.fb_wf hw)

/-- A move that does not touch the framebuffer. -/
theorem State.Keeps.of_fb_eq (held : u.held = s.held) (text : u.text = s.text) (index : u.index = s.index)
    (cfg : u.cfg = s.cfg) (fb : u.fb = s.fb) : s.Keeps u :=
  ⟨held, text, index, cfg, fun hw => fb.symm ▸ hw⟩

theorem State.Keeps.finishes (h : s.Keeps u) (st : Status) (v : BitVec 32) (a : Word) :
    s.Finishes (finish st v a u) := ⟨st, v, a, u, rfl, h⟩

theorem State.Finishes.of_keeps (h : s.Keeps u) : u.Finishes t → s.Finishes t
  | ⟨st, v, a, w, ht, k⟩ => ⟨st, v, a, w, ht, h.trans k⟩

/-! ### The moves of a command -/

theorem plotPixel_keeps (c : Color) (p : Pixel) (s : State) : s.Keeps (plotPixel c p s) :=
  ⟨by simp, by simp, by simp, by simp, plotPixel_wf⟩

theorem plotAll_keeps (c : Color) (ps : List Pixel) (s : State) : s.Keeps (plotAll c ps s) :=
  ⟨by simp, by simp, by simp, by simp, plotAll_wf c ps s⟩

theorem drawGlyph_keeps (ft : Font) (ch : Byte) (c : Color) (s : State) : s.Keeps (drawGlyph ft ch c s) :=
  ⟨by simp, by simp, by simp, by simp, drawGlyph_wf ft ch c s⟩

theorem fillBytes_keeps (v : Byte) (s : State) : s.Keeps (s.fillBytes v) :=
  ⟨rfl, rfl, rfl, rfl, fun _ => memFill_wf _ v⟩

theorem setup_keeps (s : State) : s.Keeps (setup s).2 := .of_fb_eq rfl rfl rfl rfl rfl

theorem delay_keeps (ms : Nat) (s : State) : s.Keeps (delay ms s) := .of_fb_eq rfl rfl rfl rfl rfl

theorem sendAll_keeps (ps : List Payload) (s : State) : s.Keeps (sendAll ps s).2 :=
  .of_fb_eq (by simp) (by simp) (by simp) (by simp) (by simp)

theorem syncFrames_keeps (s : State) : s.Keeps (syncFrames s).2.2 :=
  .of_fb_eq (by simp) (by simp) (by simp) (by simp) (by simp)

/-- The moves outside the framebuffer and the port that no named operation makes: cursor, `INV` and `IST`. -/
theorem registers_keep (s : State) (cx cy : Word) (inv : Bool) (ist : SyncState) :
    s.Keeps { s with cx := cx, cy := cy, inv := inv, ist := ist } := .of_fb_eq rfl rfl rfl rfl rfl

/-! ### How the commands with more than one ending end -/

theorem rejectCommand_finishes (why : Reject) (h : Word) (s : State) : s.Finishes (rejectCommand why h s) :=
  (State.Keeps.refl s).finishes _ _ _

theorem finishFrames_finishes (h : s.Keeps u) (dropped : Nat) (mask : Word) :
    s.Finishes (finishFrames dropped mask u) := by
  obtain ⟨-, e⟩ | ⟨-, e⟩ := finishFrames_cases dropped mask u <;> exact e ▸ h.finishes _ _ _

theorem initReady_finishes (s : State) : s.Finishes (initReady s) := by
  have settled := (delay_keeps s.cfg.settleMs s).trans (sendAll_keeps (initFrames s.cfg) _)
  have synced := (settled.trans (fillBytes_keeps 0 _)).trans (syncFrames_keeps _)
  exact finishFrames_finishes (synced.trans (registers_keep _ 0 0 _ .ready)) _ _

theorem putChar_keeps (ft : Font) (ch : Byte) (c : Color) (s : State) : s.Keeps (putChar ft ch c s).2 := by
  obtain ⟨-, e⟩ | ⟨-, -, e⟩ | ⟨-, -, e⟩ := putChar_cases ft ch c s
  · exact e ▸ .refl s
  · exact e ▸ .refl s
  · exact e ▸ drawGlyph_keeps ft ch c s

theorem putString_finishes (ft : Font) (c : Color) (k : Nat) (str : List Byte) (s : State) :
    s.Finishes (putString ft c k str s) := by
  induction str generalizing k s with
  | nil => exact (State.Keeps.refl s).finishes _ _ _
  | cons ch str ih =>
    simp only [putString]
    split
    · exact (ih (k + 1) _).of_keeps (drawGlyph_keeps ft ch c s)
    · exact (State.Keeps.refl s).finishes _ _ _

/-- What a command can do: whatever moves it makes, it keeps the port, the parameters and the canonical framebuffer, and
its last write is the result registers (00_scope R12, 10_state R26). -/
theorem exec_finishes {i : Instr} (h : exec i s = .next t) : s.Finishes t := by
  cases i <;> cases h
  case init =>
    split
    · exact (initReady_finishes _).of_keeps (setup_keeps s)
    · exact (setup_keeps s).finishes _ _ _
  case fill => exact (fillBytes_keeps _ s).finishes _ _ _
  case sync =>
    split
    · exact (State.Keeps.refl s).finishes _ _ _
    · exact finishFrames_finishes (syncFrames_keeps s) _ _
  case setinv v => exact (registers_keep s _ _ v _).finishes _ _ _
  case setpixel => exact (plotPixel_keeps _ _ s).finishes _ _ _
  case gotoxy x y => exact (registers_keep s x y _ _).finishes _ _ _
  case putc =>
    split
    · exact (putChar_keeps _ _ _ s).finishes _ _ _
    · exact rejectCommand_finishes _ _ s
  case puts =>
    split
    · exact putString_finishes _ _ _ _ s
    · exact rejectCommand_finishes _ _ s
  case measure =>
    split
    · exact (State.Keeps.refl s).finishes _ _ _
    · exact rejectCommand_finishes _ _ s
  case rdpix | rdbyte => split <;> exact (State.Keeps.refl s).finishes _ _ _
  case rdstate => exact (State.Keeps.refl s).finishes _ _ _
  case line | rect | rectf | tri | trif | circ | circf => exact (plotAll_keeps _ _ s).finishes _ _ _

end Sys2Proof.Machine
end

section
/-! SUPPORT. How many words the decoder consumes (30_encoding R87): never more than are at hand, and more than were held
when the words held were no complete command. -/

namespace Sys2Proof

variable {ws rest args : List Word}

theorem stringWords_length_le {n : Nat} (h : stringWords n ws = some args) : args.length ≤ ws.length := by
  induction n generalizing ws args with
  | zero => cases h; exact Nat.zero_le _
  | succ n ih =>
    cases ws with
    | nil => cases h
    | cons w ws =>
      simp only [stringWords] at h
      split at h
      · cases h; simp
      · obtain ⟨l, hl, rfl⟩ := Option.map_eq_some_iff.mp h
        simpa using ih hl

theorem operandWords_length_le {sh : Shape} (h : operandWords sh ws = some args) : args.length ≤ ws.length := by
  cases sh with
  | words n => rw [(fixedWords_eq_some.mp h).2]; exact List.length_take_le' _ _
  | character => rw [(fixedWords_eq_some.mp h).2]; exact List.length_take_le' _ _
  | string => exact stringWords_length_le h

/-- Fixed operands that had not all come reach past the words that had. -/
theorem fixedWords_passes {n : Nat} (h0 : fixedWords n ws = none) (h : fixedWords n (ws ++ rest) = some args) :
    ws.length < args.length := by
  obtain ⟨hn, rfl⟩ := fixedWords_eq_some.mp h
  have short : ws.length < n := by
    by_contra hle
    simp [fixedWords_eq_some.mpr ⟨Nat.le_of_not_lt hle, rfl⟩] at h0
  rw [List.length_take]
  omega

/-- A string that had not ended reaches past the words that had come. -/
theorem stringWords_passes {n : Nat} (h0 : stringWords n ws = none) (h : stringWords n (ws ++ rest) = some args) :
    ws.length < args.length := by
  induction n generalizing ws args with
  | zero => cases h0
  | succ n ih =>
    cases ws with
    | nil =>
      cases rest with
      | nil => cases h
      | cons w rest =>
        simp only [List.nil_append, stringWords] at h
        split at h
        · cases h; simp
        · obtain ⟨l, -, rfl⟩ := Option.map_eq_some_iff.mp h
          simp
    | cons w ws =>
      simp only [List.cons_append, stringWords] at h0 h
      split at h
      · next ht => simp [ht] at h0
      · next ht =>
        obtain ⟨l, hl, rfl⟩ := Option.map_eq_some_iff.mp h
        have h0' : stringWords n ws = none := by simpa [ht] using h0
        simpa using ih h0' hl

theorem operandWords_passes {sh : Shape} (h0 : operandWords sh ws = none) (h : operandWords sh (ws ++ rest) = some args) :
    ws.length < args.length := by
  cases sh with
  | words n => exact fixedWords_passes h0 h
  | character => exact fixedWords_passes h0 h
  | string => exact stringWords_passes h0 h

/-- What the decoder makes of a header and the words after it, as far as their number goes: a complete command has the
header and its operand words; an unassigned opcode the header alone (30_encoding R87). -/
theorem decode_cons_cases (nfonts : Nat) (h : Word) (ws : List Word) :
    (Opcode.ofByte? (opField h) = none ∧ decode nfonts (h :: ws) = .reject .unassignedOpcode h 1) ∨
      ∃ op, Opcode.ofByte? (opField h) = some op ∧
        ((operandWords op.shape ws = none ∧ decode nfonts (h :: ws) = .incomplete) ∨
          ∃ args, operandWords op.shape ws = some args ∧ decode nfonts (h :: ws) ≠ .incomplete ∧
            (decode nfonts (h :: ws)).length = 1 + args.length) := by
  cases ho : Opcode.ofByte? (opField h) with
  | none => exact .inl ⟨rfl, by simp only [decode, ho]⟩
  | some op =>
    refine .inr ⟨op, rfl, ?_⟩
    cases ha : operandWords op.shape ws with
    | none => exact .inl ⟨rfl, by simp only [decode, ho, ha]⟩
    | some args =>
      refine .inr ⟨args, rfl, ?_⟩
      cases hf : firstFailure nfonts op h args <;> simp [decode, ho, ha, hf, Decoded.length]

/-- The decoder consumes no word that is not at hand. -/
theorem decode_length_le (nfonts : Nat) (ws : List Word) : (decode nfonts ws).length ≤ ws.length := by
  cases ws with
  | nil => exact Nat.le_refl 0
  | cons h ws =>
    obtain ⟨-, e⟩ | ⟨op, -, ⟨-, e⟩ | ⟨args, ha, -, e⟩⟩ := decode_cons_cases nfonts h ws
    · simp [e, Decoded.length]
    · simp [e, Decoded.length]
    · have := operandWords_length_le ha
      simp only [e, List.length_cons]
      omega

/-- Words that were no complete command are all consumed, and at least one more, once the command is complete. -/
theorem length_lt_of_decode_append {nfonts : Nat} (h0 : decode nfonts ws = .incomplete)
    (h : decode nfonts (ws ++ rest) ≠ .incomplete) : ws.length < (decode nfonts (ws ++ rest)).length := by
  cases ws with
  | nil =>
    cases rest with
    | nil => exact absurd rfl h
    | cons w rest =>
      rw [List.nil_append] at h ⊢
      obtain ⟨-, e⟩ | ⟨op, -, ⟨-, e⟩ | ⟨args, -, -, e⟩⟩ := decode_cons_cases nfonts w rest
      · simp [e, Decoded.length]
      · exact absurd e h
      · simp [e]
  | cons w ws =>
    rw [List.cons_append] at h ⊢
    obtain ⟨-, e⟩ | ⟨op, ho, ⟨ha, -⟩ | ⟨_, -, hne, -⟩⟩ := decode_cons_cases nfonts w ws
    · simp [h0] at e
    · obtain ⟨hn, -⟩ | ⟨op', ho', ⟨-, e⟩ | ⟨args, ha', -, e⟩⟩ := decode_cons_cases nfonts w (ws ++ rest)
      · simp [ho] at hn
      · exact absurd e h
      · obtain rfl : op = op' := Option.some.inj (ho.symm.trans ho')
        have := operandWords_passes ha ha'
        simp only [e, List.length_cons]
        omega
    · exact absurd h0 hne

end Sys2Proof
end

section
/-! PROOF. Every step keeps the invariant (O12). -/

namespace Sys2Proof.Machine

variable {s t : State}

theorem statusCode_le (st : Status) : (statusCode st).toNat ≤ 8 := by cases st <;> decide

/-- A command that ends keeps the invariant: its results hold one of the nine codes, the rest it keeps. -/
theorem State.Finishes.inv (hf : s.Finishes t) (hs : s.Inv) : t.Inv := by
  obtain ⟨st, v, a, u, rfl, k⟩ := hf
  obtain ⟨hcfg, hfb, -, hindex, hheld⟩ := hs
  simp only [State.Inv, finish_cfg, finish_fb, finish_rstatus, finish_index, finish_text, finish_held, k.cfg, k.index,
    k.text, k.held]
  exact ⟨hcfg, k.fb_wf hfb, statusCode_le st, hindex, hheld⟩

/-- Holding the words of an incomplete command keeps the invariant (70_reset_and_hazards R284). -/
theorem collect_keeps_inv (hs : s.Inv) (hf : s.fetch = .incomplete) : s.collect.Inv := by
  obtain ⟨hcfg, hfb, hstatus, hindex, -⟩ := hs
  refine ⟨hcfg, hfb, hstatus, ?_, hf⟩
  simp only [collect_index, collect_text, List.length_drop]
  omega

/-- A complete command takes every word held, and the index moves past no more words than the host has sent
(10_state R22). -/
theorem consume_keeps_inv {n : Nat} (hs : s.Inv) (hf : s.fetch ≠ .incomplete) (hn : s.fetch.length = n) :
    (s.consume n).Inv := by
  subst hn
  obtain ⟨hcfg, hfb, hstatus, hindex, hheld⟩ := hs
  have all_held : s.held.length < s.fetch.length := length_lt_of_decode_append hheld hf
  have at_hand : s.fetch.length ≤ s.held.length + (s.text.length - s.index) := by
    simpa [State.fetch, State.available] using decode_length_le s.cfg.nfonts s.available
  refine ⟨hcfg, hfb, hstatus, ?_, ?_⟩
  · simp only [consume_index, consume_text]
    omega
  · rw [consume_held, List.drop_eq_nil_of_le all_held.le]
    rfl

end Sys2Proof.Machine

open Sys2Proof Sys2Proof.Machine

/-- Settles O12: a step holds the words of an incomplete command, or consumes a complete one and finishes it. -/
theorem stepKeepsInvariant : Obligations.StepKeepsInvariant := by
  intro s t hs h
  obtain ⟨-, ⟨hf, rfl⟩ | ⟨why, w, n, hf, rfl⟩ | ⟨i, n, hf, he⟩⟩ := step_cases h
  · exact collect_keeps_inv hs hf
  · exact (rejectCommand_finishes why w _).inv (consume_keeps_inv hs (by simp [hf]) (by rw [hf, Decoded.length]))
  · exact (exec_finishes he).inv (consume_keeps_inv hs (by simp [hf]) (by rw [hf, Decoded.length]))

end

section
/-! PROOF. Malformed configurations, and no others, are refused (O8). -/

namespace Sys2Proof.Machine

theorem font_wf_iff (ft : Font) : ft.wf = true ↔ fontValid ft := by
  simp [Font.wf, and_assoc]

/-- A configuration the model has a meaning for, in the words of 00_scope R9 and 92 D18. -/
theorem config_wf_iff (c : Config) : c.wf = true ↔ (∀ ft ∈ c.fonts, fontValid ft) ∧ 1 ≤ c.settleMs := by
  simp only [Config.wf, Bool.and_eq_true, List.all_eq_true, decide_eq_true_eq, font_wf_iff]

variable {s : State}

/-- Under a meaningful configuration a step is what the decoder makes of the words at hand, which always has a next
state. -/
theorem step_next (h : s.cfg.wf = true) : ∃ t, step s = .next t := by
  rw [step, if_pos h]
  cases s.fetch with
  | incomplete => exact ⟨_, rfl⟩
  | reject why w n => exact ⟨_, rfl⟩
  | command i n => exact exec_next i _

theorem step_refused (h : ¬ s.cfg.wf = true) : step s = .refused .malformedConfiguration := by
  rw [step, if_neg h]

end Sys2Proof.Machine

open Sys2Proof Sys2Proof.Machine

/-- Settles O8: the configuration's check is the condition of R9 and D18, and every arm of a step answers a next state. -/
theorem stepRefusesExactlyMalformedConfigurations : Obligations.StepRefusesExactlyMalformedConfigurations := by
  intro s
  split
  · next h => exact step_next ((config_wf_iff s.cfg).mpr h)
  · next h => exact step_refused (mt (config_wf_iff s.cfg).mp h)

end

section
/-! PROOF. The state right after reset, and that it meets the invariant (O9, O11). -/

namespace Sys2Proof.Machine

/-- A framebuffer that lists no cell reads as `FB_RESET` (10_state R35, log 2). -/
theorem memRead_nil (rst : Vector Byte FB_BYTES) {a : Nat} (h : a < FB_BYTES) : memRead rst [] a = rst[a] := by
  simp only [memRead, lookup, unlisted, Option.getD_none, Vector.getElem?_eq_getElem h, Option.getD_some]

/-- With no words held the engine is IDLE (10_state R32). -/
theorem phase_eq_idle {s : State} (h : s.held = []) : s.phase = .idle := by
  simp only [State.phase, h]

/-- The defaults of 00_scope R8 are a meaningful configuration, whatever the glyphs and `FB_RESET` are, under any
positive settle delay. -/
theorem config_withOpen_wf (row : Nat → Nat → Word) {settle : Nat} (h : 1 ≤ settle) (fbByte : Nat → Byte) :
    (Config.withOpen row settle fbByte).wf = true := by
  refine (config_wf_iff _).mpr ⟨?_, h⟩
  simp [Config.withOpen, Config.defaultFont, fontValid]

end Sys2Proof.Machine

open Sys2Proof Sys2Proof.Machine

/-- Settles O9: no cell is listed after reset, so every byte reads as `FB_RESET`; the registers are literal. -/
theorem resetState : Obligations.ResetState :=
  ⟨fun _ h => memRead_nil _ h, rfl, rfl, rfl, rfl, rfl, rfl, rfl, phase_eq_idle rfl, rfl⟩

/-- Settles O11: the defaults are a meaningful configuration, and no cell, word or status is there to break the rest. -/
theorem resetMeetsInvariant : Obligations.ResetMeetsInvariant :=
  ⟨config_withOpen_wf _ (Nat.succ_pos _) _, rfl, Nat.zero_le _, Nat.le_refl _, rfl⟩

end

section
/-! PROOF. The commands that write `INV`, `CX`, `CY` and the framebuffer (O56). -/

namespace Sys2Proof.Machine

/-- From `s` to `u`, only the registers and the memory that `i` is listed to write have changed (10_state R23, R24,
R30). -/
structure WritesOnly (i : Instr) (s u : State) : Prop where
  inv : writesInv i = false → u.inv = s.inv
  cx : writesCx i = false → u.cx = s.cx
  cy : writesCy i = false → u.cy = s.cy
  bytes : writesBytes i = false → s.SameBytes u

variable {i : Instr} {s u t : State}

theorem WritesOnly.refl (i : Instr) (s : State) : WritesOnly i s s :=
  ⟨fun _ => rfl, fun _ => rfl, fun _ => rfl, fun _ _ => rfl⟩

theorem WritesOnly.trans (h : WritesOnly i s u) (k : WritesOnly i u t) : WritesOnly i s t where
  inv hw := (k.inv hw).trans (h.inv hw)
  cx hw := (k.cx hw).trans (h.cx hw)
  cy hw := (k.cy hw).trans (h.cy hw)
  bytes hw a := (k.bytes hw a).trans (h.bytes hw a)

/-- Every command may write the result registers. -/
theorem WritesOnly.finishes (h : WritesOnly i s u) (st : Status) (v : BitVec 32) (a : Word) :
    WritesOnly i s (finish st v a u) := ⟨h.inv, h.cx, h.cy, h.bytes⟩

theorem WritesOnly.finishesFrames (h : WritesOnly i s u) (dropped : Nat) (mask : Word) :
    WritesOnly i s (finishFrames dropped mask u) := by
  obtain ⟨-, e⟩ | ⟨-, e⟩ := finishFrames_cases dropped mask u <;> exact e ▸ h.finishes _ _ _

/-! ### The moves of a command -/

theorem plotAll_writesOnly (hb : writesBytes i = true) (c : Color) (ps : List Pixel) (s : State) :
    WritesOnly i s (plotAll c ps s) :=
  ⟨fun _ => plotAll_inv c ps s, fun _ => plotAll_cx c ps s, fun _ => plotAll_cy c ps s, by simp [hb]⟩

theorem drawGlyph_writesOnly (hx : writesCx i = true) (hb : writesBytes i = true) (ft : Font) (ch : Byte) (c : Color)
    (s : State) : WritesOnly i s (drawGlyph ft ch c s) :=
  ⟨fun _ => drawGlyph_inv ft ch c s, by simp [hx], fun _ => drawGlyph_cy ft ch c s, by simp [hb]⟩

theorem putChar_writesOnly (hx : writesCx i = true) (hb : writesBytes i = true) (ft : Font) (ch : Byte) (c : Color)
    (s : State) : WritesOnly i s (putChar ft ch c s).2 := by
  obtain ⟨-, e⟩ | ⟨-, -, e⟩ | ⟨-, -, e⟩ := putChar_cases ft ch c s
  · exact e ▸ .refl i s
  · exact e ▸ .refl i s
  · exact e ▸ drawGlyph_writesOnly hx hb ft ch c s

theorem putString_writesOnly (hx : writesCx i = true) (hb : writesBytes i = true) (ft : Font) (c : Color) (k : Nat)
    (str : List Byte) (s : State) : WritesOnly i s (putString ft c k str s) := by
  induction str generalizing k s with
  | nil => exact (WritesOnly.refl i s).finishes _ _ _
  | cons ch str ih =>
    simp only [putString]
    split
    · exact (drawGlyph_writesOnly hx hb ft ch c s).trans (ih (k + 1) _)
    · exact (WritesOnly.refl i s).finishes _ _ _

theorem setup_writesOnly (i : Instr) (s : State) : WritesOnly i s (setup s).2 :=
  ⟨fun _ => rfl, fun _ => rfl, fun _ => rfl, fun _ _ => rfl⟩

theorem syncFrames_writesOnly (i : Instr) (s : State) : WritesOnly i s (syncFrames s).2.2 :=
  ⟨fun _ => syncFrames_inv s, fun _ => syncFrames_cx s, fun _ => syncFrames_cy s,
    fun _ => readByte_congr (syncFrames_fb s) (syncFrames_cfg s)⟩

/-- INIT writes all of them but `INV` (44_sync R221). -/
theorem initReady_writesOnly (s : State) : WritesOnly .init s (initReady s) :=
  WritesOnly.finishesFrames (i := .init) ⟨fun _ => by simp, nofun, nofun, nofun⟩ _ _

/-- A command leaves whatever it is not listed to write. -/
theorem exec_writesOnly (h : exec i s = .next t) : WritesOnly i s t := by
  have unchanged : WritesOnly i s s := .refl i s
  cases i <;> cases h
  case init =>
    split
    · exact (setup_writesOnly _ s).trans (initReady_writesOnly _)
    · exact (setup_writesOnly _ s).finishes _ _ _
  case sync =>
    split
    · exact unchanged.finishes _ _ _
    · exact (syncFrames_writesOnly _ s).finishesFrames _ _
  case fill => exact ⟨fun _ => rfl, fun _ => rfl, fun _ => rfl, nofun⟩
  case setinv => exact ⟨nofun, fun _ => rfl, fun _ => rfl, fun _ _ => rfl⟩
  case gotoxy => exact ⟨fun _ => rfl, nofun, nofun, fun _ _ => rfl⟩
  case putc =>
    split
    · exact (putChar_writesOnly rfl rfl _ _ _ s).finishes _ _ _
    · exact unchanged.finishes _ _ _
  case puts =>
    split
    · exact putString_writesOnly rfl rfl _ _ _ _ s
    · exact unchanged.finishes _ _ _
  case measure | rdpix | rdbyte => split <;> exact unchanged.finishes _ _ _
  case rdstate => exact unchanged.finishes _ _ _
  case setpixel c x y => exact (plotAll_writesOnly rfl c [(x, y)] s).finishes _ _ _
  case line | rect | rectf | tri | trif | circ | circf => exact (plotAll_writesOnly rfl _ _ s).finishes _ _ _

end Sys2Proof.Machine

open Sys2Proof Sys2Proof.Machine

/-- Settles O56: every command completes, and each move it makes is one it is listed for. -/
theorem registerWriters : Obligations.RegisterWriters := by
  intro i s
  obtain ⟨t, h⟩ := exec_next i s
  obtain ⟨inv, cx, cy, bytes⟩ := exec_writesOnly h
  exact ⟨t, h, inv, cx, cy, bytes⟩

end

section
/-! PROOF. The result registers are never read and always written (O58): every move of a command commutes with a change of
their contents, and the command's last write covers it. -/

namespace Sys2Proof.Machine

/-- `s` with other contents of the result registers, in the order the host reads them (10_state R26). -/
def State.withResults (r : Byte × BitVec 32 × Word) (s : State) : State :=
  { s with rstatus := r.1, rval := r.2.1, raux := r.2.2 }

/-- The host reads back what was put there, and nothing else differs (70_reset_and_hazards R285). -/
theorem withResults_spec (r : Byte × BitVec 32 × Word) (s : State) :
    hostResults (s.withResults r) = r ∧ s.SameButResults (s.withResults r) :=
  ⟨rfl, fun _ => rfl, rfl, rfl, rfl, rfl, rfl, rfl, rfl, rfl, rfl, rfl, rfl⟩

variable (r : Byte × BitVec 32 × Word) (s : State)

/-! ### What overwrites the result registers -/

@[simp] theorem finish_withResults (st : Status) (v : BitVec 32) (a : Word) :
    finish st v a (s.withResults r) = finish st v a s := rfl

@[simp] theorem finishFrames_withResults (dropped : Nat) (mask : Word) :
    finishFrames dropped mask (s.withResults r) = finishFrames dropped mask s := rfl

@[simp] theorem raise_withResults (st : Status) (v : BitVec 32) :
    raise st v (s.withResults r) = raise st v s := rfl

@[simp] theorem refuseFont_withResults (i : Instr) : refuseFont i (s.withResults r) = refuseFont i s := rfl

/-! ### The moves that leave them as they were -/

@[simp] theorem cfg_withResults : (s.withResults r).cfg = s.cfg := rfl

@[simp] theorem ist_withResults : (s.withResults r).ist = s.ist := rfl

@[simp] theorem fontAt_withResults (f : BitVec 3) : fontAt (s.withResults r) f = fontAt s f := rfl

/-- The cursor and `IST`, which no named operation writes. -/
theorem registers_withResults (cx cy : Word) (ist : SyncState) :
    { s.withResults r with cx := cx, cy := cy, ist := ist }
      = State.withResults r { s with cx := cx, cy := cy, ist := ist } := rfl

@[simp] theorem fillBytes_withResults (v : Byte) :
    (s.withResults r).fillBytes v = (s.fillBytes v).withResults r := rfl

@[simp] theorem plotPixel_withResults (c : Color) (p : Pixel) :
    plotPixel c p (s.withResults r) = (plotPixel c p s).withResults r := by
  unfold plotPixel
  split <;> rfl

@[simp] theorem plotCells_withResults (ps : List (Pixel × Color)) :
    plotCells ps (s.withResults r) = (plotCells ps s).withResults r := by
  induction ps generalizing s with
  | nil => rfl
  | cons pc ps ih => simp only [plotCells, plotPixel_withResults, ih]

@[simp] theorem plotAll_withResults (c : Color) (ps : List Pixel) :
    plotAll c ps (s.withResults r) = (plotAll c ps s).withResults r := plotCells_withResults r s _

@[simp] theorem drawGlyph_withResults (ft : Font) (ch : Byte) (c : Color) :
    drawGlyph ft ch c (s.withResults r) = (drawGlyph ft ch c s).withResults r :=
  congrArg (fun u : State => { u with cx := s.cx + BitVec.ofNat 16 ft.fw }) (plotCells_withResults r s _)

@[simp] theorem putStatus_withResults (ft : Font) (ch : Byte) :
    putStatus ft ch (s.withResults r) = putStatus ft ch s := rfl

@[simp] theorem putChar_withResults (ft : Font) (ch : Byte) (c : Color) :
    putChar ft ch c (s.withResults r) = ((putChar ft ch c s).1, (putChar ft ch c s).2.withResults r) := by
  simp only [putChar, putStatus_withResults, drawGlyph_withResults, apply_ite (State.withResults r)]

@[simp] theorem setup_withResults : setup (s.withResults r) = ((setup s).1, (setup s).2.withResults r) := rfl

@[simp] theorem delay_withResults (ms : Nat) : delay ms (s.withResults r) = (delay ms s).withResults r := rfl

@[simp] theorem sendFrame_withResults (p : Payload) :
    sendFrame p (s.withResults r) = ((sendFrame p s).1, (sendFrame p s).2.withResults r) := by
  have asked : (probe (s.withResults r)).1 = (probe s).1 := rfl
  unfold sendFrame
  rw [asked]
  split <;> rfl

@[simp] theorem sendAll_withResults (ps : List Payload) :
    sendAll ps (s.withResults r) = ((sendAll ps s).1, (sendAll ps s).2.withResults r) := by
  induction ps generalizing s with
  | nil => rfl
  | cons p ps ih => simp only [sendAll, sendFrame_withResults, ih]

@[simp] theorem pageFrames_withResults (p : Nat) : pageFrames (s.withResults r) p = pageFrames s p := rfl

@[simp] theorem syncPages_withResults (ps : List Nat) :
    syncPages ps (s.withResults r)
      = ((syncPages ps s).1, (syncPages ps s).2.1, (syncPages ps s).2.2.withResults r) := by
  induction ps generalizing s with
  | nil => rfl
  | cons p ps ih => simp only [syncPages, pageFrames_withResults, sendAll_withResults, ih]

@[simp] theorem syncFrames_withResults :
    syncFrames (s.withResults r) = ((syncFrames s).1, (syncFrames s).2.1, (syncFrames s).2.2.withResults r) :=
  syncPages_withResults r s _

/-! ### The commands -/

theorem draw_withResults (c : Color) (ps : List Pixel) :
    finish .ok 0 0 (plotAll c ps (s.withResults r)) = finish .ok 0 0 (plotAll c ps s) := by
  rw [plotAll_withResults, finish_withResults]

theorem putcWith_withResults (ft : Font) (c : Color) (ch : Byte) :
    putcWith ft c ch (s.withResults r) = putcWith ft c ch s := by
  simp only [putcWith, putChar_withResults, finish_withResults]

theorem putString_withResults (ft : Font) (c : Color) (k : Nat) (str : List Byte) :
    putString ft c k str (s.withResults r) = putString ft c k str s := by
  induction str generalizing k s with
  | nil => rfl
  | cons ch str ih => simp only [putString, putStatus_withResults, drawGlyph_withResults, finish_withResults, ih]

theorem initReady_withResults : initReady (s.withResults r) = initReady s := by
  simp only [initReady, cfg_withResults r s, delay_withResults, sendAll_withResults, fillBytes_withResults,
    syncFrames_withResults, registers_withResults, finishFrames_withResults]

theorem syncReady_withResults : syncReady (s.withResults r) = syncReady s := by
  simp only [syncReady, syncFrames_withResults, finishFrames_withResults]

/-- A command ends in the same state whatever the result registers held before it (10_state R26, R29). -/
theorem exec_withResults (i : Instr) : exec i (s.withResults r) = exec i s := by
  cases i
  case init => simp only [exec, execInit, setup_withResults, initReady_withResults, raise_withResults]
  case sync => simp only [exec, execSync, ist_withResults, syncReady_withResults, raise_withResults]
  case setpixel c x y => exact congrArg Host.Outcome.next (draw_withResults r s c [(x, y)])
  case line | rect | rectf | tri | trif | circ | circf => exact congrArg Host.Outcome.next (draw_withResults r s _ _)
  case putc => simp only [exec, execPutc, fontAt_withResults, putcWith_withResults, refuseFont_withResults]
  case puts => simp only [exec, execPuts, fontAt_withResults, putString_withResults, refuseFont_withResults]
  case fill | setinv | gotoxy | measure | rdpix | rdbyte | rdstate => rfl

end Sys2Proof.Machine

open Sys2Proof Sys2Proof.Machine

/-- Settles O58: the state a command ends in is one it also ends in from other contents of the result registers. -/
theorem resultRegistersAreNeverRead : Obligations.ResultRegistersAreNeverRead := by
  intro i s st v a
  obtain ⟨t, h⟩ := exec_next i s
  exact ⟨t, h, (exec_withResults (st, v, a) s i).trans h⟩

end

section
/-! PROOF. The canonical form has one list of cells per contents (O15), and the inverse of the pixel map (O16). -/

namespace Sys2Proof.Machine

variable {rst : Vector Byte FB_BYTES} {m n : Memory} {lo a b : Nat} {v w : Byte}

/-! ### A canonical memory is determined by its reads -/

theorem Memory.wf_iff : Memory.wf rst m = true ↔
    rising 0 m = true ∧ ∀ cell ∈ m, cell.1 < FB_BYTES ∧ cell.2 ≠ unlisted rst cell.1 := by
  simp [Memory.wf]

theorem rising_cons : rising lo ((a, v) :: m) = true ↔ lo ≤ a ∧ rising (a + 1) m = true := by
  simp [rising]

theorem lookup_cons_self : lookup ((a, v) :: m) a = some v := if_pos rfl

theorem mem_of_lookup (h : lookup m a = some v) : (a, v) ∈ m := by
  induction m with
  | nil => cases h
  | cons cell m ih =>
    obtain ⟨b, w⟩ := cell
    rw [lookup] at h
    split at h
    · next hb =>
      cases h
      exact hb ▸ List.mem_cons_self
    · exact List.mem_cons_of_mem _ (ih h)

theorem lookup_eq_none_of_rising (hr : rising lo m = true) (h : a < lo) : lookup m a = none := by
  induction m generalizing lo with
  | nil => rfl
  | cons cell m ih =>
    obtain ⟨b, w⟩ := cell
    obtain ⟨hb, hr⟩ := rising_cons.mp hr
    rw [lookup, if_neg (by omega), ih hr (by omega)]

/-- The first address of a rising memory is the least one it lists. -/
theorem head_le_of_lookup (hr : rising lo ((b, w) :: m) = true) (h : lookup ((b, w) :: m) a = some v) : b ≤ a := by
  by_contra hlt
  have unlisted_below : lookup ((b, w) :: m) a = none :=
    lookup_eq_none_of_rising (rising_cons.mpr ⟨le_rfl, (rising_cons.mp hr).2⟩) (Nat.lt_of_not_le hlt)
  simp [h] at unlisted_below

/-- What follows the first cell of a rising memory lists what the whole does, but for that cell. -/
theorem lookup_tail_of_rising (hr : rising lo ((b, w) :: m) = true) (a : Nat) :
    lookup m a = if a = b then none else lookup ((b, w) :: m) a := by
  split
  · next h => exact lookup_eq_none_of_rising (rising_cons.mp hr).2 (by omega)
  · next h => rw [lookup, if_neg (Ne.symm h)]

/-- Rising memories that list the same byte at every address are the same list of cells. -/
theorem rising_ext (hm : rising lo m = true) (hn : rising lo n = true) (h : ∀ a, lookup m a = lookup n a) : m = n := by
  induction m generalizing lo n with
  | nil =>
    cases n with
    | nil => rfl
    | cons d n => exact absurd ((h d.1).trans lookup_cons_self) nofun
  | cons c m ih =>
    cases n with
    | nil => exact absurd ((h c.1).symm.trans lookup_cons_self) nofun
    | cons d n =>
      obtain ⟨a, v⟩ := c
      obtain ⟨b, w⟩ := d
      obtain rfl : a = b := Nat.le_antisymm (head_le_of_lookup hm ((h b).trans lookup_cons_self))
        (head_le_of_lookup hn ((h a).symm.trans lookup_cons_self))
      obtain rfl : v = w := Option.some.inj (lookup_cons_self.symm.trans ((h a).trans lookup_cons_self))
      have tails : ∀ k, lookup m k = lookup n k := fun k => by
        rw [lookup_tail_of_rising hm, lookup_tail_of_rising hn, h]
      rw [ih (rising_cons.mp hm).2 (rising_cons.mp hn).2 tails]

/-- A canonical memory lists a byte exactly where it reads as something else than `FB_RESET` (log 2). -/
theorem lookup_eq_of_wf (h : Memory.wf rst m = true) (a : Nat) :
    lookup m a = if memRead rst m a = unlisted rst a then none else some (memRead rst m a) := by
  cases hl : lookup m a with
  | none => simp [memRead, hl]
  | some v =>
    have hv : v ≠ unlisted rst a := ((Memory.wf_iff.mp h).2 _ (mem_of_lookup hl)).2
    simp [memRead, hl, hv]

/-! ### The inverse of the pixel map -/

/-- The pixel held in bit `b` of byte `a` (20_memory R52). -/
def bitPixel (a b : Nat) : Pixel := (BitVec.ofNat 16 (a % WIDTH), BitVec.ofNat 16 (8 * (a / WIDTH) + b))

theorem coord_ofNat {k : Nat} (h : k < 2 ^ 16) : coord (BitVec.ofNat 16 k) = k :=
  (BitVec.toNat_ofNat k 16).trans (Nat.mod_eq_of_lt h)

/-- Bit `b` of byte `a` lies in the column and the row that 20_memory R52 gives. -/
theorem coord_bitPixel (ha : a < FB_BYTES) (hb : b < 8) :
    coord (bitPixel a b).1 = a % WIDTH ∧ coord (bitPixel a b).2 = 8 * (a / WIDTH) + b := by
  simp only [FB_BYTES] at ha
  constructor <;> exact coord_ofNat (by simp only [WIDTH]; omega)

theorem onPanel_bitPixel (ha : a < FB_BYTES) (hb : b < 8) : onPanel (bitPixel a b) = true := by
  obtain ⟨hx, hy⟩ := coord_bitPixel ha hb
  simp only [FB_BYTES] at ha
  rw [onPanel_iff, hx, hy]
  simp only [WIDTH, HEIGHT]
  omega

theorem pixelAddr_bitPixel (ha : a < FB_BYTES) (hb : b < 8) : pixelAddr (bitPixel a b) = a := by
  obtain ⟨hx, hy⟩ := coord_bitPixel ha hb
  rw [pixelAddr, hx, hy]
  simp only [WIDTH]
  omega

theorem pixelBit_bitPixel (ha : a < FB_BYTES) (hb : b < 8) : pixelBit (bitPixel a b) = b := by
  obtain ⟨-, hy⟩ := coord_bitPixel ha hb
  rw [pixelBit, hy]
  omega

/-- A valid pixel is recovered from its byte and bit: no other valid pixel has them. -/
theorem eq_bitPixel {p : Pixel} (hp : onPanel p = true) : p = bitPixel (pixelAddr p) (pixelBit p) :=
  have ha := pixelAddr_lt hp
  have hb := pixelBit_lt p
  pixel_ext hp (onPanel_bitPixel ha hb) (pixelAddr_bitPixel ha hb).symm (pixelBit_bitPixel ha hb).symm

end Sys2Proof.Machine

open Sys2Proof Sys2Proof.Machine

/-- Settles O15: what a canonical memory lists is a function of its reads, and rising cells are determined by what they
list. -/
theorem canonicalMemoryUnique : Obligations.CanonicalMemoryUnique := by
  intro rst m n hm hn h
  refine rising_ext (Memory.wf_iff.mp hm).1 (Memory.wf_iff.mp hn).1 fun a => ?_
  rw [lookup_eq_of_wf hm, lookup_eq_of_wf hn, h]

/-- Settles O16: the inverse map is `bitPixel`, which lands on the panel and has the byte and bit it was given. -/
theorem pixelAddressBijection : Obligations.PixelAddressBijection :=
  ⟨fun p hp => ⟨pixelAddr_lt hp, pixelBit_lt p, eq_bitPixel hp⟩,
    fun _ _ ha hb => ⟨onPanel_bitPixel ha hb, pixelAddr_bitPixel ha hb, pixelBit_bitPixel ha hb⟩⟩

end

section
/-! SUPPORT. The decoder said once: what it answers for a header and the words after it, what its six checks ask, and what
its string reader finds (30_encoding R86, R87). -/

namespace Sys2Proof

variable {nfonts : Nat} {op : Opcode} {h w : Word} {ws args : List Word}

/-! ### The decoder's answers -/

theorem decode_unassigned (ho : Opcode.ofByte? (opField h) = none) :
    decode nfonts (h :: ws) = .reject .unassignedOpcode h 1 := by
  simp only [decode, ho]

/-- A complete command of an assigned opcode is refused by the first check that fails, else read. -/
theorem decode_complete (ho : Opcode.ofByte? (opField h) = some op) (ha : operandWords op.shape ws = some args) :
    decode nfonts (h :: ws) = ((firstFailure nfonts op h args).elim (.command (build op h args) (1 + args.length))
      fun why => .reject why h (1 + args.length)) := by
  cases hf : firstFailure nfonts op h args <;> simp only [decode, ho, ha, hf, Option.elim]

/-- What the decoder reads as a command: an assigned opcode with its operand words at hand and no check failing. -/
theorem decode_eq_command_iff {i : Instr} {n : Nat} :
    decode nfonts (h :: ws) = .command i n ↔ ∃ op args, Opcode.ofByte? (opField h) = some op ∧
      operandWords op.shape ws = some args ∧ firstFailure nfonts op h args = none ∧ build op h args = i ∧
      1 + args.length = n := by
  constructor
  · intro hd
    cases ho : Opcode.ofByte? (opField h) with
    | none => simp [decode_unassigned ho] at hd
    | some op =>
      cases ha : operandWords op.shape ws with
      | none => simp [decode, ho, ha] at hd
      | some args =>
        rw [decode_complete ho ha] at hd
        cases hf : firstFailure nfonts op h args with
        | none =>
          rw [hf] at hd
          cases hd
          exact ⟨op, args, rfl, ha, hf, rfl, rfl⟩
        | some why => simp [hf] at hd
  · rintro ⟨op, args, ho, ha, hf, rfl, rfl⟩
    rw [decode_complete ho ha, hf, Option.elim_none]

/-! ### The six checks -/

theorem any_isTerminator_eq_false : args.any isTerminator = false ↔ ∀ w ∈ args, charField w ≠ 0 := by
  simp [isTerminator]

/-- Check 5 looks at the operand words of the two shapes that hold characters (30_encoding R87). -/
theorem characterWords_any_high (sh : Shape) :
    (characterWords sh args).any (fun w => decide (charHigh w ≠ 0)) = true ↔
      (sh = .character ∨ sh = .string) ∧ ∃ w ∈ args, charHigh w ≠ 0 := by
  cases sh <;> simp [characterWords]

/-- A chain of checks passes when its first check and the rest do. -/
theorem check_eq_none_iff {c : Prop} [Decidable c] {why : Reject} {rest : Option Reject} :
    (if c then some why else rest) = none ↔ ¬ c ∧ rest = none := by
  split <;> simp [*]

/-- All six checks pass (30_encoding R87). -/
theorem firstFailure_eq_none_iff :
    firstFailure nfonts op h args = none ↔ rsvField h = 0 ∧ (colourField h = true → op.hasColour = true) ∧
      (fontField h ≠ 0 → op.hasFont = true) ∧ (op.shape = .string → args.any isTerminator = true) ∧
      (op.shape = .character ∨ op.shape = .string → ∀ w ∈ args, charHigh w = 0) ∧
      (op.hasFont = true → (fontField h).toNat < nfonts) := by
  simp only [firstFailure, check_eq_none_iff, characterWords_any_high, not_and, not_not, not_exists, not_le, and_true]

/-! ### The operand words found -/

/-- What the string reader finds: the front words up to the first terminator, or as many as it may hold, none of them a
terminator (30_encoding R87). -/
theorem stringWords_cases {n : Nat} (hs : stringWords n ws = some args) : args <+: ws ∧
    ((∃ pre t, args = pre ++ [t] ∧ pre.length < n ∧ (∀ w ∈ pre, isTerminator w = false) ∧ isTerminator t = true) ∨
      (args.length = n ∧ ∀ w ∈ args, isTerminator w = false)) := by
  induction n generalizing ws args with
  | zero => cases hs; simp
  | succ n ih =>
    cases ws with
    | nil => cases hs
    | cons w ws =>
      simp only [stringWords] at hs
      split at hs
      · next ht =>
        cases hs
        exact ⟨by simp, .inl ⟨[], w, by simp [ht]⟩⟩
      · next ht =>
        obtain ⟨l, hl, rfl⟩ := Option.map_eq_some_iff.mp hs
        rw [Bool.not_eq_true] at ht
        obtain ⟨front, ⟨pre, t, rfl, short, plain, last⟩ | ⟨full, plain⟩⟩ := ih hl
        · exact ⟨by simpa using front, .inl ⟨w :: pre, t, rfl, by simpa using short, by simpa [ht] using plain, last⟩⟩
        · exact ⟨by simpa using front, .inr ⟨by simpa using full, by simpa [ht] using plain⟩⟩

theorem operandWords_prefix {sh : Shape} (ha : operandWords sh ws = some args) : args <+: ws := by
  cases sh with
  | words n => exact (fixedWords_eq_some.mp ha).2 ▸ List.take_prefix n ws
  | character => exact (fixedWords_eq_some.mp ha).2 ▸ List.take_prefix 1 ws
  | string => exact (stringWords_cases ha).1

theorem fixedWords_length {n : Nat} (ha : fixedWords n ws = some args) : args.length = n := by
  obtain ⟨hn, rfl⟩ := fixedWords_eq_some.mp ha
  exact List.length_take_of_le hn

/-- Operand words with anything after them are found by their number. -/
theorem fixedWords_append {n : Nat} (rest : List Word) (hn : args.length = n) :
    fixedWords n (args ++ rest) = some args := by
  subst hn
  exact fixedWords_eq_some.mpr ⟨by simp, by simp⟩

/-! ### Character words -/

/-- A character word is its low byte when its high byte is 0 (30_encoding R85). -/
theorem charWord_charField (hw : charHigh w = 0) : charWord (charField w) = w := by
  have high : w.toNat / 256 % 256 = 0 := by
    simpa [charHigh, Nat.shiftRight_eq_div_pow] using congrArg BitVec.toNat hw
  have := w.isLt
  apply BitVec.eq_of_toNat_eq
  simp only [charWord, charField, BitVec.toNat_setWidth, BitVec.extractLsb'_toNat, Nat.shiftRight_zero]
  omega

/-- A string's words are recovered from its characters: the high bytes are 0, and so the last word, a terminator, is 0
(30_encoding R85, R86). -/
theorem stringCode_stringOf {pre : List Word} {t : Word} (ht : isTerminator t = true)
    (high : ∀ w ∈ pre ++ [t], charHigh w = 0) : stringCode (stringOf (pre ++ [t])) = pre ++ [t] := by
  have ht : charField t = 0 := by simpa [isTerminator] using ht
  have last : 0 = t := (congrArg charWord ht).symm.trans (charWord_charField (high t (by simp)))
  have front : (pre.map charField).map charWord = pre := by
    rw [List.map_map]
    exact (List.map_congr_left fun w hw => charWord_charField (high w (List.mem_append_left _ hw))).trans (List.map_id _)
  rw [stringOf, stringCode, List.dropLast_concat, front, last]

/-- A string found with its terminator is one the encoding can carry (30_encoding R86). -/
theorem stringOk_stringOf {pre : List Word} {t : Word} (short : pre.length < MAXSTR + 1)
    (plain : ∀ w ∈ pre, isTerminator w = false) : stringOk (stringOf (pre ++ [t])) = true := by
  have plain : ∀ w ∈ pre, charField w ≠ 0 := by simpa [isTerminator] using plain
  simpa [stringOk, stringOf] using And.intro (Nat.le_of_lt_succ short) plain

end Sys2Proof
end

section
/-! SUPPORT. Commands by the shape of their operands: what is well-formed, the operand words of each shape, and the fields
of a command that `build` makes (30_encoding R81, R88, R89). -/

namespace Sys2Proof

/-- The string operand of a command; empty without one. -/
def Instr.chars : Instr → List Byte
  | .puts _ _ str | .measure _ str => str
  | .init | .fill _ | .sync | .setinv _ | .setpixel _ _ _ | .line _ _ _ _ _ | .rect _ _ _ _ _ | .rectf _ _ _ _ _
  | .tri _ _ _ _ _ _ _ | .trif _ _ _ _ _ _ _ | .circ _ _ _ _ | .circf _ _ _ _ | .gotoxy _ _ | .putc _ _ _
  | .rdpix _ _ | .rdbyte _ | .rdstate => []

theorem stringOk_nil : stringOk [] = true := rfl

variable {nfonts n : Nat} {op : Opcode} {h : Word} {args : List Word} {i : Instr}

/-- A command is well-formed when its font operand, if it has one, names a font and its string can be carried. -/
theorem wellFormed_iff : i.wellFormed nfonts = true ↔
    (i.opcode.hasFont = true → i.fontBits.toNat < nfonts) ∧ stringOk i.chars = true := by
  cases i <;> simp [Instr.wellFormed, Instr.opcode, Opcode.hasFont, Instr.fontBits, Instr.chars, fontOk, stringOk_nil]

/-! ### A command's header and operand words -/

theorem colourBit_eq_false (hc : i.opcode.hasColour = false) : i.colourBit = false := by
  cases i <;> cases hc <;> rfl

theorem fontBits_eq_zero (hf : i.opcode.hasFont = false) : i.fontBits = 0 := by
  cases i <;> cases hf <;> rfl

theorem operands_length (hs : i.opcode.shape = .words n) : i.operands.length = n := by
  cases i <;> cases hs <;> rfl

theorem operands_character (hs : i.opcode.shape = .character) : ∃ ch, i.operands = [charWord ch] := by
  cases i <;> cases hs
  exact ⟨_, rfl⟩

theorem operands_string (hs : i.opcode.shape = .string) : i.operands = stringCode i.chars := by
  cases i <;> cases hs <;> rfl

/-! ### The command built from a header and operand words -/

@[simp] theorem ofBit_toBit (c : Color) : Color.ofBit c.toBit = c := by cases c <;> rfl

@[simp] theorem toBit_ofBit (b : Bool) : (Color.ofBit b).toBit = b := by cases b <;> rfl

@[simp] theorem opcode_build (op : Opcode) (h : Word) (args : List Word) : (build op h args).opcode = op := by
  cases op <;> rfl

theorem colourBit_build (op : Opcode) (h : Word) (args : List Word) :
    (build op h args).colourBit = (op.hasColour && colourField h) := by
  cases op <;> simp [build, Instr.colourBit, Opcode.hasColour]

theorem fontBits_build (op : Opcode) (h : Word) (args : List Word) :
    (build op h args).fontBits = if op.hasFont = true then fontField h else 0 := by
  cases op <;> rfl

/-- The operand words number 0 to `n - 1` are the whole list of `n` (30_encoding R89). -/
theorem map_operand_range (hn : args.length = n) : (List.range n).map (operand args) = args := by
  subst hn
  refine List.ext_getElem (by simp) fun k _ hk => ?_
  simp [operand, hk]

theorem operands_build_words (hs : op.shape = .words n) :
    (build op h args).operands = (List.range n).map (operand args) := by
  cases op <;> cases hs <;> rfl

theorem operands_build_character (hs : op.shape = .character) :
    (build op h args).operands = [charWord (charField (operand args 0))] := by
  cases op <;> cases hs
  rfl

theorem chars_build (op : Opcode) (h : Word) (args : List Word) :
    (build op h args).chars = if op.shape = .string then stringOf args else [] := by
  cases op <;> rfl

end Sys2Proof
end

section
/-! PROOF. Encoding and decoding are inverse to each other (O1, O2, O3), and the decoder's checks in their order (O4). -/

namespace Sys2Proof

variable {nfonts : Nat} {op : Opcode} {h : Word} {ws args : List Word} {i : Instr}

/-! ### From a command to its words and back -/

/-- The operand words of a command are found at the front of its encoding, whatever follows them. -/
theorem operandWords_operands (rest : List Word) (hi : i.wellFormed nfonts = true) :
    operandWords i.opcode.shape (i.operands ++ rest) = some i.operands := by
  obtain ⟨-, hs⟩ := wellFormed_iff.mp hi
  cases hsh : i.opcode.shape with
  | words n => exact fixedWords_append rest (operands_length hsh)
  | character =>
    obtain ⟨ch, e⟩ := operands_character hsh
    exact e ▸ fixedWords_append rest rfl
  | string =>
    obtain ⟨short, plain⟩ : i.chars.length ≤ MAXSTR ∧ ∀ ch ∈ i.chars, ch ≠ 0 := by simpa [stringOk] using hs
    exact operands_string hsh ▸ stringWords_stringCode rest (Nat.lt_succ_of_le short) plain

/-- Every character word that the encoder writes has a zero high byte (30_encoding R85). -/
theorem charHigh_operands (hs : i.opcode.shape = .character ∨ i.opcode.shape = .string) :
    ∀ w ∈ i.operands, charHigh w = 0 := by
  obtain hs | hs := hs
  · obtain ⟨ch, e⟩ := operands_character hs
    simp [e]
  · simp only [operands_string hs, stringCode, List.mem_append, List.mem_map, List.mem_singleton]
    rintro w (⟨ch, -, rfl⟩ | rfl)
    · exact charHigh_charWord ch
    · rfl

/-- The encoding of a well-formed command passes the decoder's six checks. -/
theorem firstFailure_encode (hi : i.wellFormed nfonts = true) :
    firstFailure nfonts i.opcode i.header i.operands = none := by
  refine firstFailure_eq_none_iff.mpr ⟨rsvField_encodeHeader _ _ _, ?_, ?_, ?_, charHigh_operands, ?_⟩
  · simpa [Instr.header] using mt (colourBit_eq_false (i := i))
  · simpa [Instr.header] using mt (fontBits_eq_zero (i := i))
  · intro hs
    simp [operands_string hs, stringCode]
  · simpa [Instr.header] using (wellFormed_iff.mp hi).1

/-- Header and operand words give the command back (30_encoding R81, R89). -/
theorem build_encode (i : Instr) : build i.opcode i.header i.operands = i := by
  cases i <;> simp [build, operand, Instr.header, Instr.opcode, Instr.colourBit, Instr.fontBits, Instr.operands]

/-! ### From words to a command and back -/

/-- The header that passes the checks is the header of the command it builds (30_encoding R81). -/
theorem header_build (ho : Opcode.ofByte? (opField h) = some op) (hf : firstFailure nfonts op h args = none) :
    (build op h args).header = h := by
  obtain ⟨rsv, colour, font, -⟩ := firstFailure_eq_none_iff.mp hf
  have hc : (op.hasColour && colourField h) = colourField h := by simpa using colour
  have hfont : (if op.hasFont = true then fontField h else 0) = fontField h := by
    split
    · rfl
    · next hasnt => exact (not_not.mp (mt font hasnt)).symm
  rw [Instr.header, opcode_build, colourBit_build, fontBits_build, toByte_of_ofByte? ho, hc, hfont,
    encodeHeader_fields h rsv]

/-- The operand words that pass the checks are those of the command they build, and a string they spell can be carried
(30_encoding R85, R86, R89). -/
theorem operands_build (ha : operandWords op.shape ws = some args) (hf : firstFailure nfonts op h args = none) :
    (build op h args).operands = args ∧ stringOk (build op h args).chars = true := by
  obtain ⟨-, -, -, terminated, high, -⟩ := firstFailure_eq_none_iff.mp hf
  rw [chars_build]
  cases hsh : op.shape with
  | words n =>
    rw [hsh] at ha
    exact ⟨(operands_build_words hsh).trans (map_operand_range (fixedWords_length ha)), rfl⟩
  | character =>
    rw [hsh] at ha
    obtain ⟨w, rfl⟩ := List.length_eq_one_iff.mp (fixedWords_length ha)
    have hw : charHigh w = 0 := high (.inl hsh) w (by simp)
    exact ⟨(operands_build_character hsh).trans (congrArg (fun v => [v]) (charWord_charField hw)), rfl⟩
  | string =>
    rw [hsh] at ha
    obtain ⟨-, ⟨pre, t, rfl, short, plain, last⟩ | ⟨-, plain⟩⟩ := stringWords_cases ha
    · have e : (build op h (pre ++ [t])).chars = stringOf (pre ++ [t]) := by rw [chars_build, if_pos hsh]
      refine ⟨?_, stringOk_stringOf short plain⟩
      rw [operands_string (by rw [opcode_build, hsh]), e, stringCode_stringOf last (high (.inr hsh))]
    · obtain ⟨w, hw, ht⟩ := List.any_eq_true.mp (terminated hsh)
      simp [plain w hw] at ht

end Sys2Proof

open Sys2Proof Sys2Proof.Machine

/-- Settles O2: the words of a command are found, pass the six checks and build the command. -/
theorem decodeEncodeRoundTrip : Obligations.DecodeEncodeRoundTrip := by
  intro nfonts i rest hi
  have ho : Opcode.ofByte? (opField i.header) = some i.opcode := by simp [Instr.header]
  rw [encode, List.cons_append]
  exact decode_eq_command_iff.mpr ⟨i.opcode, i.operands, ho, operandWords_operands rest hi, firstFailure_encode hi,
    build_encode i, Nat.add_comm _ _⟩

/-- Settles O3: the words of a command that is read are its header and, at their front, its operand words. -/
theorem encodeDecodeRoundTrip : Obligations.EncodeDecodeRoundTrip := by
  intro nfonts ws i n hd
  cases ws with
  | nil => cases hd
  | cons h ws =>
    obtain ⟨op, args, ho, ha, hf, rfl, rfl⟩ := decode_eq_command_iff.mp hd
    obtain ⟨-, -, -, -, -, font⟩ := firstFailure_eq_none_iff.mp hf
    obtain ⟨ops, str⟩ := operands_build ha hf
    obtain ⟨rest, rfl⟩ := operandWords_prefix ha
    refine ⟨wellFormed_iff.mpr ⟨?_, str⟩, ?_, ?_⟩
    · rw [opcode_build, fontBits_build]
      intro has
      simpa [has] using font has
    · simp only [List.length_cons, List.length_append]
      omega
    · rw [encode, header_build ho hf, ops, Nat.add_comm, List.take_succ_cons, List.take_left]

/-- Settles O4: `firstFailure` tries the six checks in the statement's order, in the statement's words. -/
theorem decoderChecksInOrder : Obligations.DecoderChecksInOrder := by
  refine fun nfonts h ws => ⟨decode_unassigned, fun op args ho ha => ?_⟩
  simp only [decode_complete ho ha, firstFailure, characterWords_any_high, Bool.not_eq_true, any_isTerminator_eq_false]
  split_ifs <;> rfl

/-- Settles O1: the decoder run on each of the eleven. -/
theorem decodeKnownWords : Obligations.DecodeKnownWords := by
  refine ⟨?_, ?_, ?_, ?_, ?_, ?_, ?_, ?_, ?_, ?_, ?_⟩ <;> decide

end

section
/-! PROOF. What a step does with the words at hand once they are a command or are refused (O5, O7), and a text command
without a font (O45). -/

namespace Sys2Proof.Machine

variable {s : State}

theorem step_of_command {i : Instr} {n : Nat} (hw : s.cfg.wf = true) (hf : s.fetch = .command i n) :
    step s = exec i (s.consume n) := by
  rw [step, if_pos hw, hf]

theorem step_of_reject {why : Reject} {h : Word} {n : Nat} (hw : s.cfg.wf = true) (hf : s.fetch = .reject why h n) :
    step s = .next (rejectCommand why h (s.consume n)) := by
  rw [step, if_pos hw, hf]

/-- Only a string without a terminator ends STRING_TOO_LONG (30_encoding R87). -/
theorem rejectStatus_eq (why : Reject) :
    rejectStatus why = if why = .noTerminator then .stringTooLong else .illegal := by
  cases why <;> rfl

theorem consume_sameBytes (s : State) (n : Nat) : s.SameBytes (s.consume n) := fun _ => rfl

/-- A refusal writes the result registers and nothing else (30_encoding R90). -/
theorem rejectCommand_sameButResults (why : Reject) (h : Word) (s : State) :
    s.SameButResults (rejectCommand why h s) :=
  ⟨fun _ => rfl, rfl, rfl, rfl, rfl, rfl, rfl, rfl, rfl, rfl, rfl, rfl⟩

theorem rejectCommand_results (why : Reject) (h : Word) (s : State) :
    (rejectCommand why h s).Results (rejectStatus why) (h.setWidth 32) 0 := ⟨rfl, rfl, rfl⟩

/-- A text command whose font index names no font is refused as the decoder refuses it (log 11). -/
theorem exec_of_missing_font {c : Color} {f : BitVec 3} {ch : Byte} {str : List Byte} (hf : fontAt s f = none) :
    ∀ i ∈ [Instr.putc c f ch, Instr.puts c f str, Instr.measure f str], exec i s = .next (refuseFont i s) := by
  simp [exec, execPutc, execPuts, execMeasure, hf]

end Sys2Proof.Machine

open Sys2Proof Sys2Proof.Machine

/-- Settles O5: the decoder read the command, so it is well-formed, and consuming its words moves the port alone. -/
theorem stepRunsDecodedCommand : Obligations.StepRunsDecodedCommand := by
  intro s i n hw hf
  obtain ⟨wellFormed, -⟩ := encodeDecodeRoundTrip _ _ _ _ hf
  refine ⟨wellFormed, step_of_command hw hf, ?_⟩
  simpa using consume_sameBytes s n

/-- Settles O7: the refusal changes only the result registers of the state in which the words are consumed. -/
theorem refusedCommandWritesOnlyResults : Obligations.RefusedCommandWritesOnlyResults := by
  intro s why h n hw hf
  obtain ⟨bytes, -⟩ := rejectCommand_sameButResults why h (s.consume n)
  have results := rejectCommand_results why h (s.consume n)
  rw [rejectStatus_eq] at results
  refine ⟨_, step_of_reject hw hf, results, ?_⟩
  simpa using fun a => (bytes a).trans (consume_sameBytes s n a)

/-- Settles O45: the three text commands refuse a missing font with the decoder's refusal. -/
theorem missingFontIsIllegal : Obligations.MissingFontIsIllegal := fun _ _ _ _ s hf i hi =>
  ⟨_, exec_of_missing_font hf i hi, rejectCommand_sameButResults .fontIndex i.header s,
    rejectCommand_results .fontIndex i.header s⟩

end

section
/-! PROOF. What a drawing leaves, once for every drawing command, and SETPIXEL as the drawing of one pixel (O13); the
framebuffer after a drawing is determined by its pixels (O14). -/

namespace Sys2Proof.Machine

variable {rst : Vector Byte FB_BYTES} {m n : Memory} {s t u : State}

/-- Plotting a list of pixels and finishing OK is what a drawing command leaves (40_framebuffer R116, R117, R119). -/
theorem draws_plotAll (c : Color) (ps : List Pixel) (s : State) : s.Draws (finish .ok 0 0 (plotAll c ps s)) c ps := by
  refine ⟨⟨rfl, rfl, rfl⟩, by simp [State.SameButFbAndResults], fun q hq => ?_, fun a ha => ?_⟩
  · rw [pixel_finish, pixel_plotAll _ _ _ hq, colourBit_effective]
  · rw [readByte_finish, readByte_plotAll_other _ ha]

theorem exec_setpixel (c : Color) (x y : Word) (s : State) :
    exec (.setpixel c x y) s = .next (finish .ok 0 0 (plotAll c [(x, y)] s)) := rfl

/-! ### A canonical framebuffer is determined by its pixels -/

/-- A canonical memory lists nothing past the framebuffer (20_memory R63). -/
theorem lookup_eq_none_of_wf {a : Nat} (h : Memory.wf rst m = true) (ha : FB_BYTES ≤ a) : lookup m a = none := by
  cases hl : lookup m a with
  | none => rfl
  | some v => exact absurd ((Memory.wf_iff.mp h).2 _ (mem_of_lookup hl)).1 (Nat.not_lt.mpr ha)

/-- Canonical memories that read alike in the framebuffer are equal. -/
theorem memory_ext_of_bytes (hm : Memory.wf rst m = true) (hn : Memory.wf rst n = true)
    (h : ∀ a, a < FB_BYTES → memRead rst m a = memRead rst n a) : m = n := by
  refine canonicalMemoryUnique rst m n hm hn fun a => ?_
  rcases Nat.lt_or_ge a FB_BYTES with ha | ha
  · exact h a ha
  · rw [memRead, memRead, lookup_eq_none_of_wf hm ha, lookup_eq_none_of_wf hn ha]

/-- Every bit of the framebuffer is a pixel, so states with the same pixels read alike in it (20_memory R52). -/
theorem readByte_eq_of_pixels (h : ∀ q, onPanel q = true → t.pixel q = u.pixel q) {a : Nat} (ha : a < FB_BYTES) :
    t.readByte a = u.readByte a := by
  refine BitVec.eq_of_getLsbD_eq fun b hb => ?_
  simpa only [State.pixel, pixelAddr_bitPixel ha hb, pixelBit_bitPixel ha hb] using
    h (bitPixel a b) (onPanel_bitPixel ha hb)

/-- `t` is `s` with another framebuffer, in canonical form. -/
structure State.Repainted (s t : State) : Prop where
  eq : t = { s with fb := t.fb }
  wf : Memory.wf s.cfg.fbReset t.fb = true

theorem State.Repainted.cfg (h : s.Repainted t) : t.cfg = s.cfg := by rw [h.eq]

/-- Repainted states with the same pixels are equal, not only in their reads. -/
theorem State.Repainted.ext (ht : s.Repainted t) (hu : s.Repainted u)
    (h : ∀ q, onPanel q = true → t.pixel q = u.pixel q) : t = u := by
  have fb : t.fb = u.fb := memory_ext_of_bytes ht.wf hu.wf fun a ha => by
    simpa only [State.readByte, ht.cfg, hu.cfg] using readByte_eq_of_pixels h ha
  rw [ht.eq, hu.eq, fb]

theorem State.Repainted.plotPixel (h : s.Repainted t) (c : Color) (p : Pixel) :
    s.Repainted (plotPixel c p t) where
  eq := by
    rw [h.eq, Machine.plotPixel]
    split <;> rfl
  wf := by
    rw [← h.cfg]
    exact plotPixel_wf (h.cfg ▸ h.wf)

theorem State.Repainted.plotCells (h : s.Repainted t) (ps : List (Pixel × Color)) : s.Repainted (plotCells ps t) := by
  induction ps generalizing t with
  | nil => exact h
  | cons pc ps ih => exact ih (h.plotPixel pc.2 pc.1)

theorem State.Repainted.plotAll (h : s.Repainted t) (c : Color) (ps : List Pixel) : s.Repainted (plotAll c ps t) :=
  h.plotCells _

end Sys2Proof.Machine

open Sys2Proof Sys2Proof.Machine

/-- Settles O13: SETPIXEL is the drawing of one pixel. -/
theorem setpixelPlotsOnePixel : Obligations.SetpixelPlotsOnePixel := fun c x y s =>
  ⟨_, exec_setpixel c x y s, draws_plotAll c [(x, y)] s⟩

/-- Settles O14: the states compared are `s` repainted, and their pixels agree because each pixel's last plot decides. -/
theorem drawingDependsOnlyOnTheSet : Obligations.DrawingDependsOnlyOnTheSet := by
  intro s hw
  have start : s.Repainted s := ⟨rfl, hw⟩
  refine ⟨fun c ps qs h => ?_, fun c d p q hpq => ?_, fun c d p => ?_⟩
  · refine (start.plotAll c ps).ext (start.plotAll c qs) fun r hr => ?_
    rw [pixel_plotAll _ _ _ hr, pixel_plotAll _ _ _ hr]
    simp only [h r hr]
  · refine ((start.plotPixel d q).plotPixel c p).ext ((start.plotPixel c p).plotPixel d q) fun r hr => ?_
    simp only [pixel_plotPixel _ _ _ hr, plotPixel_inv]
    by_cases hp : r = p
    · simp [hp, hpq]
    · simp [hp]
  · refine ((start.plotPixel d p).plotPixel c p).ext (start.plotPixel c p) fun r hr => ?_
    simp only [pixel_plotPixel _ _ _ hr, plotPixel_inv]
    by_cases hp : r = p <;> simp [hp]

end

section
/-! PROOF. FILL, SETINV and the two reads of the framebuffer (O17, O19, O20, O21). -/

namespace Sys2Proof.Machine

variable {s : State} {p : Pixel}

/-- Finishing a command writes the result registers and nothing else (00_scope R12). -/
theorem finish_sameButResults (st : Status) (v : BitVec 32) (a : Word) (s : State) :
    s.SameButResults (finish st v a s) :=
  ⟨fun _ => rfl, rfl, rfl, rfl, rfl, rfl, rfl, rfl, rfl, rfl, rfl, rfl⟩

theorem finish_results (st : Status) (v : BitVec 32) (a : Word) (s : State) : (finish st v a s).Results st v a :=
  ⟨rfl, rfl, rfl⟩

/-! ### RDPIX -/

theorem exec_rdpix_on {x y : Word} (h : onPanel (x, y) = true) :
    exec (.rdpix x y) s
      = .next (finish .ok ((BitVec.ofBool (s.pixel (x, y))).setWidth 32) (packedAddr (x, y)) s) :=
  congrArg Host.Outcome.next (if_pos h)

theorem exec_rdpix_off {x y : Word} (h : ¬ onPanel (x, y) = true) :
    exec (.rdpix x y) s = .next (finish .outOfRange 0 0 s) :=
  congrArg Host.Outcome.next (if_neg h)

/-- A bit as a 32-bit result. -/
theorem setWidth_ofBool (b : Bool) : (BitVec.ofBool b).setWidth 32 = if b then 1 else 0 := by
  cases b <;> rfl

/-- The address and the bit index occupy disjoint bits of the packed address (40_framebuffer R114). -/
theorem toNat_packedAddr (hp : onPanel p = true) : (packedAddr p).toNat = pixelBit p * 4096 + pixelAddr p := by
  have ha : pixelAddr p < 1024 := pixelAddr_lt hp
  have hb := pixelBit_lt p
  have disjoint : pixelBit p <<< 12 ||| pixelAddr p = pixelBit p <<< 12 + pixelAddr p :=
    (Nat.shiftLeft_add_eq_or_of_lt (by omega) _).symm
  rw [Nat.shiftLeft_eq] at disjoint
  rw [packedAddr, BitVec.toNat_or, BitVec.toNat_shiftLeft, BitVec.toNat_ofNat, BitVec.toNat_ofNat, Nat.shiftLeft_eq,
    Nat.mod_eq_of_lt (a := pixelAddr p) (by omega), Nat.mod_eq_of_lt (a := pixelBit p) (by omega),
    Nat.mod_eq_of_lt (by omega), Nat.or_comm, disjoint]

/-- The fields of the packed address of a valid pixel: the address, two zeros, the bit index and a zero
(40_framebuffer R114). -/
theorem packedAddr_fields (hp : onPanel p = true) :
    ((packedAddr p).extractLsb' 0 10).toNat = pixelAddr p ∧ (packedAddr p).extractLsb' 10 2 = 0 ∧
      ((packedAddr p).extractLsb' 12 3).toNat = pixelBit p ∧ (packedAddr p).getLsbD 15 = false := by
  have ha : pixelAddr p < 1024 := pixelAddr_lt hp
  have hb := pixelBit_lt p
  refine ⟨?addr, BitVec.eq_of_toNat_eq ?gap, ?bit, ?top⟩
  case top =>
    rw [BitVec.getLsbD, toNat_packedAddr hp]
    exact Nat.testBit_lt_two_pow (by omega)
  case addr | gap | bit =>
    simp only [BitVec.extractLsb'_toNat, toNat_packedAddr hp, Nat.shiftRight_eq_div_pow, BitVec.ofNat_eq_ofNat,
      BitVec.toNat_ofNat]
    omega

/-! ### RDBYTE -/

theorem exec_rdbyte_in {a : Word} (h : a.toNat < 1024) :
    exec (.rdbyte a) s = .next (finish .ok ((s.readByte a.toNat).setWidth 32) 0 s) :=
  congrArg Host.Outcome.next (if_pos h)

theorem exec_rdbyte_out {a : Word} (h : ¬ a.toNat < 1024) :
    exec (.rdbyte a) s = .next (finish .outOfRange 0 0 s) :=
  congrArg Host.Outcome.next (if_neg h)

end Sys2Proof.Machine

open Sys2Proof Sys2Proof.Machine

/-- Settles O17: FILL is `fillBytes` of the colour's byte, in which `INV` has no part. -/
theorem fillWritesEveryByte : Obligations.FillWritesEveryByte := by
  intro c s
  refine ⟨finish .ok 0 0 (s.fillBytes (fillByte c)), rfl, finish_results .ok 0 0 _,
    by simp [State.SameButFbAndResults], fun a ha => ?_⟩
  rw [readByte_finish, readByte_fillBytes _ _ ha]
  cases c <;> rfl

/-- Settles O19: SETINV is one field's write, and no read of a byte depends on that field. -/
theorem setinvWritesTheFlag : Obligations.SetinvWritesTheFlag := fun v s =>
  ⟨finish .ok 0 0 { s with inv := v }, rfl, finish_results .ok 0 0 _, rfl, fun _ => rfl,
    rfl, rfl, rfl, rfl, rfl, rfl, rfl, rfl, rfl, rfl⟩

/-- Settles O20: on the panel by the fields of the packed address, off it by `OUT_OF_RANGE`. -/
theorem rdpixReadsOnePixel : Obligations.RdpixReadsOnePixel := by
  intro x y s
  have valid : onPanel (x, y) = true ↔ x.toNat < 128 ∧ y.toNat < 64 := onPanel_iff
  by_cases h : x.toNat < 128 ∧ y.toNat < 64
  · have hp := valid.mpr h
    refine ⟨_, exec_rdpix_on hp, finish_sameButResults _ _ _ s, ?_⟩
    rw [if_pos h]
    exact ⟨rfl, setWidth_ofBool _, packedAddr_fields hp⟩
  · refine ⟨_, exec_rdpix_off (mt valid.mp h), finish_sameButResults _ _ _ s, ?_⟩
    rw [if_neg h]
    exact finish_results .outOfRange 0 0 s

/-- Settles O21: below 1024 the byte, from there on `OUT_OF_RANGE`. -/
theorem rdbyteReadsOneByte : Obligations.RdbyteReadsOneByte := by
  intro a s
  by_cases h : a.toNat < 1024
  · refine ⟨_, exec_rdbyte_in h, finish_sameButResults _ _ _ s, ?_⟩
    rw [if_pos h]
    exact finish_results .ok _ 0 s
  · refine ⟨_, exec_rdbyte_out h, finish_sameButResults _ _ _ s, ?_⟩
    rw [if_neg h]
    exact finish_results .outOfRange 0 0 s

end

section
/-! SUPPORT. A line in closed form: after `k` points each axis has stepped `k` times its share of the longer one, rounded.
The laws of such a path of points, whatever loop draws it. -/

namespace Sys2Proof.Machine

/-! ### Steps along one axis -/

section Axis

variable {M m k j a c : Nat}

/-- How many of the first `k` iterations step along an axis of length `m`, when the longer axis has length `M`. -/
def axisSteps (M m k : Nat) : Nat := (k * m + (M - 1 - M / 2)) / M

theorem axisSteps_eq (low : k * m ≤ M / 2 + j * M) (high : M / 2 + j * M < k * m + M) : axisSteps M m k = j :=
  Nat.div_eq_of_lt_le (by omega) (by rw [Nat.succ_mul]; omega)

/-- The rounding remainder `M / 2 - k * m + axisSteps M m k * M`, which the loop holds in `err`, stays in `0 .. M - 1`. -/
theorem axisSteps_bounds (hM : 0 < M) (m k : Nat) :
    k * m ≤ M / 2 + axisSteps M m k * M ∧ M / 2 + axisSteps M m k * M < k * m + M := by
  have below : axisSteps M m k * M ≤ k * m + (M - 1 - M / 2) := Nat.div_mul_le_self _ _
  have above : k * m + (M - 1 - M / 2) < axisSteps M m k * M + M := Nat.lt_div_mul_add hM
  omega

theorem axisSteps_zero (M m : Nat) : axisSteps M m 0 = 0 := by
  rcases Nat.eq_zero_or_pos M with rfl | hM
  · exact Nat.div_zero _
  · exact axisSteps_eq (by omega) (by omega)

theorem axisSteps_last (h : m ≤ M) : axisSteps M m M = m := by
  rcases Nat.eq_zero_or_pos M with rfl | hM
  · simp [axisSteps, Nat.le_zero.mp h]
  · exact axisSteps_eq (by rw [Nat.mul_comm]; omega) (by rw [Nat.mul_comm M m]; omega)

theorem axisSteps_major (hk : k ≤ M) : axisSteps M M k = k := by
  rcases Nat.eq_zero_or_pos M with rfl | hM
  · simp [axisSteps, Nat.le_zero.mp hk]
  · exact axisSteps_eq (by omega) (by omega)

theorem axisSteps_le (h : m ≤ M) (hk : k ≤ M) : axisSteps M m k ≤ m :=
  calc axisSteps M m k ≤ axisSteps M m M := Nat.div_le_div_right (Nat.add_le_add_right (Nat.mul_le_mul_right m hk) _)
    _ = m := axisSteps_last h

/-- An iteration steps along the axis when the remainder is less than the axis's length. -/
theorem axisSteps_succ (hM : 0 < M) (h : m ≤ M) (k : Nat) :
    axisSteps M m (k + 1) = axisSteps M m k + if M / 2 + axisSteps M m k * M < k * m + m then 1 else 0 := by
  obtain ⟨low, high⟩ := axisSteps_bounds hM m k
  have next : (k + 1) * m = k * m + m := Nat.succ_mul k m
  split
  · exact axisSteps_eq (by rw [next, Nat.succ_mul]; omega) (by rw [next, Nat.succ_mul]; omega)
  · exact axisSteps_eq (by rw [next, Nat.add_zero]; omega) (by rw [next, Nat.add_zero]; omega)

/-- The coordinate after `j` steps from `a` towards `c`. -/
def stepsFrom (a c j : Nat) : Nat := if a < c then a + j else a - j

/-- The coordinate of the `k`-th point of a line from `a` to `c`, when the longer axis has length `M`. -/
def axisPos (M a c k : Nat) : Nat := stepsFrom a c (axisSteps M (gap a c) k)

theorem cast_stepsFrom (h : j ≤ gap a c) : (stepsFrom a c j : Int) = a + (if a < c then 1 else -1) * j := by
  unfold gap at h
  unfold stepsFrom
  split <;> omega

theorem stepsFrom_gap (a c : Nat) : stepsFrom a c (gap a c) = c := by
  unfold stepsFrom gap
  split <;> omega

theorem axisPos_zero (M a c : Nat) : axisPos M a c 0 = a := by
  simp [axisPos, axisSteps_zero, stepsFrom]

theorem axisPos_last (h : gap a c ≤ M) : axisPos M a c M = c := by
  rw [axisPos, axisSteps_last h, stepsFrom_gap]

theorem axisPos_box (h : gap a c ≤ M) (hk : k ≤ M) : min a c ≤ axisPos M a c k ∧ axisPos M a c k ≤ max a c := by
  have : axisSteps M (gap a c) k ≤ a - c + (c - a) := axisSteps_le h hk
  unfold axisPos stepsFrom
  split <;> omega

theorem axisPos_major (hk : k ≤ gap a c) : axisPos (gap a c) a c k = stepsFrom a c k := by
  rw [axisPos, axisSteps_major hk]

/-- One iteration's move along an axis. -/
theorem cast_axisPos_succ (h : gap a c ≤ M) (hk : k < M) :
    (axisPos M a c (k + 1) : Int) =
      if M / 2 + axisSteps M (gap a c) k * M < k * gap a c + gap a c
      then (axisPos M a c k : Int) + (if a < c then 1 else -1) else (axisPos M a c k : Int) := by
  rw [axisPos, axisPos, cast_stepsFrom (axisSteps_le h hk), cast_stepsFrom (axisSteps_le h (Nat.le_of_lt hk)),
    axisSteps_succ (by omega) h]
  split_ifs <;> push_cast <;> ring

theorem gap_axisPos_succ_le (h : gap a c ≤ M) (hk : k < M) : gap (axisPos M a c k) (axisPos M a c (k + 1)) ≤ 1 := by
  have move := cast_axisPos_succ h hk
  unfold gap
  split_ifs at move <;> omega

theorem stepsFrom_of_le (h : a ≤ c) (hk : k ≤ c - a) : stepsFrom a c k = a + k := by
  unfold stepsFrom
  split <;> omega

theorem axisPos_self (hk : k ≤ M) : axisPos M a a k = a := by
  have := axisPos_box (M := M) (a := a) (c := a) (by simp [gap]) hk
  omega

/-- Every iteration steps along the longer axis. -/
theorem gap_axisPos_major_succ (hk : k < gap a c) :
    gap (axisPos (gap a c) a c k) (axisPos (gap a c) a c (k + 1)) = 1 := by
  rw [axisPos_major (Nat.le_of_lt hk), axisPos_major (k := k + 1) hk]
  unfold gap at *
  unfold stepsFrom
  split <;> omega

theorem axisPos_major_inj (hj : j ≤ gap a c) (hk : k ≤ gap a c)
    (h : axisPos (gap a c) a c j = axisPos (gap a c) a c k) : j = k := by
  rw [axisPos_major hj, axisPos_major hk] at h
  unfold gap at hj hk
  unfold stepsFrom at h
  split at h <;> omega

/-- The longer axis reaches its end only with the last step. -/
theorem axisPos_major_ne (hk : k < gap a c) : axisPos (gap a c) a c k ≠ c := fun e =>
  Nat.ne_of_lt hk (axisPos_major_inj (Nat.le_of_lt hk) (Nat.le_refl _) (e.trans (axisPos_last (Nat.le_refl _)).symm))

end Axis

/-! ### The points of a line -/

section Path

variable {a b c d k : Nat}

/-- The length of the longer axis of a line. -/
def lineSpan (a b c d : Nat) : Nat := max (gap a c) (gap b d)

/-- The `k`-th point of the line from `(a, b)` to `(c, d)`. -/
def linePoint (a b c d k : Nat) : Pixel :=
  (BitVec.ofNat 16 (axisPos (lineSpan a b c d) a c k), BitVec.ofNat 16 (axisPos (lineSpan a b c d) b d k))

/-- All points of the line from `(a, b)` to `(c, d)`, in that direction. -/
def linePath (a b c d : Nat) : List Pixel := (List.range (lineSpan a b c d + 1)).map (linePoint a b c d)

theorem gap_x_le_lineSpan (a b c d : Nat) : gap a c ≤ lineSpan a b c d := Nat.le_max_left _ _

theorem gap_y_le_lineSpan (a b c d : Nat) : gap b d ≤ lineSpan a b c d := Nat.le_max_right _ _

theorem linePoint_zero (a b c d : Nat) : linePoint a b c d 0 = (BitVec.ofNat 16 a, BitVec.ofNat 16 b) := by
  rw [linePoint, axisPos_zero, axisPos_zero]

theorem linePoint_last (a b c d : Nat) :
    linePoint a b c d (lineSpan a b c d) = (BitVec.ofNat 16 c, BitVec.ofNat 16 d) := by
  rw [linePoint, axisPos_last (gap_x_le_lineSpan ..), axisPos_last (gap_y_le_lineSpan ..)]

theorem length_linePath (a b c d : Nat) : (linePath a b c d).length = lineSpan a b c d + 1 := by
  simp [linePath]

theorem mem_linePath {p : Pixel} : p ∈ linePath a b c d ↔ ∃ k ≤ lineSpan a b c d, linePoint a b c d k = p := by
  simp [linePath]

theorem getElem?_linePath {p : Pixel} :
    (linePath a b c d)[k]? = some p ↔ k ≤ lineSpan a b c d ∧ linePoint a b c d k = p := by
  simp [linePath, List.getElem?_eq_some_iff]

theorem linePath_head (a b c d : Nat) :
    (linePath a b c d).head? = some (BitVec.ofNat 16 a, BitVec.ofNat 16 b) := by
  rw [List.head?_eq_getElem?, getElem?_linePath]
  exact ⟨Nat.zero_le _, linePoint_zero a b c d⟩

theorem linePath_getLast (a b c d : Nat) :
    (linePath a b c d).getLast? = some (BitVec.ofNat 16 c, BitVec.ofNat 16 d) := by
  rw [List.getLast?_eq_getElem?, length_linePath, Nat.add_sub_cancel, getElem?_linePath]
  exact ⟨Nat.le_refl _, linePoint_last a b c d⟩

section Coordinates

variable (hx : max a c < 2 ^ 16) (hy : max b d < 2 ^ 16) (hk : k ≤ lineSpan a b c d)
include hx hy hk

/-- Points between 16-bit end points keep their coordinates as words. -/
theorem coord_linePoint : coord (linePoint a b c d k).1 = axisPos (lineSpan a b c d) a c k ∧
    coord (linePoint a b c d k).2 = axisPos (lineSpan a b c d) b d k :=
  ⟨coord_ofNat (Nat.lt_of_le_of_lt (axisPos_box (gap_x_le_lineSpan ..) hk).2 hx),
    coord_ofNat (Nat.lt_of_le_of_lt (axisPos_box (gap_y_le_lineSpan ..) hk).2 hy)⟩

/-- Every point is in the box of the end points (41_raster R132, item 3). -/
theorem linePoint_box : (min a c ≤ coord (linePoint a b c d k).1 ∧ coord (linePoint a b c d k).1 ≤ max a c) ∧
    min b d ≤ coord (linePoint a b c d k).2 ∧ coord (linePoint a b c d k).2 ≤ max b d := by
  obtain ⟨ex, ey⟩ := coord_linePoint hx hy hk
  rw [ex, ey]
  exact ⟨axisPos_box (gap_x_le_lineSpan ..) hk, axisPos_box (gap_y_le_lineSpan ..) hk⟩

end Coordinates

section Steps

variable (hx : max a c < 2 ^ 16) (hy : max b d < 2 ^ 16)
include hx hy

/-- The longer axis tells the points apart (41_raster R132, item 2). -/
theorem linePoint_inj {j k : Nat} (hj : j ≤ lineSpan a b c d) (hk : k ≤ lineSpan a b c d)
    (h : linePoint a b c d j = linePoint a b c d k) : j = k := by
  obtain ⟨xj, yj⟩ := coord_linePoint hx hy hj
  obtain ⟨xk, yk⟩ := coord_linePoint hx hy hk
  rcases Nat.le_total (gap b d) (gap a c) with hm | hm
  · rw [lineSpan, Nat.max_eq_left hm] at hj hk xj xk
    exact axisPos_major_inj hj hk (by rw [← xj, ← xk, h])
  · rw [lineSpan, Nat.max_eq_right hm] at hj hk yj yk
    exact axisPos_major_inj hj hk (by rw [← yj, ← yk, h])

theorem linePath_nodup : (linePath a b c d).Nodup :=
  List.nodup_range.map_on fun _ hj _ hk =>
    linePoint_inj hx hy (Nat.lt_succ_iff.mp (List.mem_range.mp hj)) (Nat.lt_succ_iff.mp (List.mem_range.mp hk))

/-- Consecutive points are one unit apart on the longer axis and at most one on the other
(41_raster R132, items 5 and 6). -/
theorem linePoint_step (hk : k < lineSpan a b c d) :
    if gap b d ≤ gap a c then
      gap (coord (linePoint a b c d k).1) (coord (linePoint a b c d (k + 1)).1) = 1 ∧
        gap (coord (linePoint a b c d k).2) (coord (linePoint a b c d (k + 1)).2) ≤ 1
    else
      gap (coord (linePoint a b c d k).2) (coord (linePoint a b c d (k + 1)).2) = 1 ∧
        gap (coord (linePoint a b c d k).1) (coord (linePoint a b c d (k + 1)).1) ≤ 1 := by
  obtain ⟨xk, yk⟩ := coord_linePoint hx hy (Nat.le_of_lt hk)
  obtain ⟨xn, yn⟩ := coord_linePoint hx hy (k := k + 1) hk
  rw [xk, yk, xn, yn]
  split
  · next hm =>
    refine ⟨?_, gap_axisPos_succ_le (gap_y_le_lineSpan ..) hk⟩
    rw [lineSpan, Nat.max_eq_left hm] at hk ⊢
    exact gap_axisPos_major_succ hk
  · next hm =>
    refine ⟨?_, gap_axisPos_succ_le (gap_x_le_lineSpan ..) hk⟩
    rw [lineSpan, Nat.max_eq_right (by omega)] at hk ⊢
    exact gap_axisPos_major_succ hk

end Steps

/-! ### Straight paths -/

theorem linePath_vertical (h : b ≤ d) :
    linePath a b a d = (List.range (d - b + 1)).map (fun i => u16Pixel a (b + i : Nat)) := by
  have length : gap b d = d - b := by unfold gap; omega
  have span : lineSpan a b a d = gap b d := by simp [lineSpan, gap]
  rw [linePath, span, length]
  refine List.map_congr_left fun k hk => ?_
  have hk : k ≤ d - b := Nat.lt_succ_iff.mp (List.mem_range.mp hk)
  rw [linePoint, span, axisPos_major (by omega), stepsFrom_of_le h hk, axisPos_self (by omega), u16Pixel,
    BitVec.ofInt_natCast, BitVec.ofInt_natCast]

/-- Exchanging the axes exchanges the coordinates. -/
theorem linePath_transpose (a b c d : Nat) : linePath b a d c = (linePath a b c d).map Prod.swap := by
  simp [linePath, linePoint, lineSpan, max_comm]

theorem linePath_horizontal (h : a ≤ c) :
    linePath a b c b = (List.range (c - a + 1)).map (fun i => u16Pixel (a + i : Nat) b) := by
  rw [linePath_transpose, linePath_vertical h, List.map_map]
  rfl

end Path

end Sys2Proof.Machine
end

section
/-! PROOF. DrawLine follows R130 (O60): its loop's variables have the closed form of a path, from which its laws (O24) and
its end within the bound (O25) follow. -/

namespace Sys2Proof.Machine

/-! ### The loop of a sloped line -/

/-- The variables of DrawLine's general loop (41_raster R130). -/
structure LineVars where
  x : Int
  y : Int
  err : Int

/-- One iteration of the loop after its test (41_raster R130). -/
def lineStep (dx dy sx sy : Int) (v : LineVars) : LineVars where
  x := if -dx < v.err then v.x + sx else v.x
  y := if v.err < dy then v.y + sy else v.y
  err := v.err - (if -dx < v.err then dy else 0) + (if v.err < dy then dx else 0)

section Loop

variable {dx dy sx sy x1 y1 : Int} {n : Nat} {v : LineVars}

theorem lineLoop_of_end (h : v.x = x1 ∧ v.y = y1) :
    lineLoop dx dy sx sy x1 y1 (n + 1) v.x v.y v.err = [u16Pixel v.x v.y] := by
  rw [lineLoop, if_pos h]
  rfl

theorem lineLoop_of_not_end (h : ¬ (v.x = x1 ∧ v.y = y1)) :
    lineLoop dx dy sx sy x1 y1 (n + 1) v.x v.y v.err = u16Pixel v.x v.y ::
      lineLoop dx dy sx sy x1 y1 n (lineStep dx dy sx sy v).x (lineStep dx dy sx sy v).y
        (lineStep dx dy sx sy v).err := by
  rw [lineLoop, if_neg h]
  rfl

/-- A loop that first reaches the end point after `n` iterations plots the points up to it, however many more iterations
it is allowed. -/
theorem lineLoop_eq_map (more : Nat)
    (before : ∀ k < n, ¬ (((lineStep dx dy sx sy)^[k] v).x = x1 ∧ ((lineStep dx dy sx sy)^[k] v).y = y1))
    (ended : ((lineStep dx dy sx sy)^[n] v).x = x1 ∧ ((lineStep dx dy sx sy)^[n] v).y = y1) :
    lineLoop dx dy sx sy x1 y1 (n + 1 + more) v.x v.y v.err = (List.range (n + 1)).map
      (fun k => u16Pixel ((lineStep dx dy sx sy)^[k] v).x ((lineStep dx dy sx sy)^[k] v).y) := by
  induction n generalizing v with
  | zero =>
    rw [Nat.add_right_comm]
    exact lineLoop_of_end ended
  | succ n ih =>
    have first : ¬ (v.x = x1 ∧ v.y = y1) := before 0 n.succ_pos
    rw [Nat.add_right_comm, lineLoop_of_not_end first, List.range_succ_eq_map, List.map_cons,
      List.map_map]
    exact congrArg _ (ih (fun k hk => before (k + 1) (Nat.succ_lt_succ hk)) ended)

end Loop

section Sloped

variable {a b c d k : Nat}

/-- The error term before the loop (41_raster R130). -/
def lineErr (dx dy : Int) : Int := (if dy < dx then dx else -dy).tdiv 2

/-- The loop's variables after `k` iterations on a line from `(a, b)` to `(c, d)` (41_raster R130). -/
def lineVars (a b c d k : Nat) : LineVars :=
  (lineStep |(c : Int) - a| |(d : Int) - b| (if a < c then 1 else -1) (if b < d then 1 else -1))^[k]
    ⟨a, b, lineErr |(c : Int) - a| |(d : Int) - b|⟩

theorem abs_sub_eq_gap (a c : Nat) : |(c : Int) - a| = gap a c := by
  unfold gap
  rcases Nat.le_total a c with h | h
  · rw [abs_of_nonneg (by omega)]
    omega
  · rw [abs_of_nonpos (by omega)]
    omega

theorem lineErr_eq (m n : Nat) : lineErr m n = if n < m then ((m / 2 : Nat) : Int) else -((n / 2 : Nat) : Int) := by
  simp only [lineErr, Nat.cast_lt]
  split
  · rfl
  · rw [Int.neg_tdiv]
    rfl

/-- The error term after `k` iterations. -/
def lineErrAt (dx dy k : Nat) : Int :=
  lineErr dx dy - axisSteps (max dx dy) dx k * dy + axisSteps (max dx dy) dy k * dx

/-- The loop's two thresholds on the error term are the rounding remainders of the two axes: on the longer axis every
iteration steps. -/
theorem lineErrAt_thresholds {dx dy : Nat} (hk : k < max dx dy) :
    (-(dx : Int) < lineErrAt dx dy k ↔ max dx dy / 2 + axisSteps (max dx dy) dx k * max dx dy < k * dx + dx) ∧
      (lineErrAt dx dy k < dy ↔ max dx dy / 2 + axisSteps (max dx dy) dy k * max dx dy < k * dy + dy) := by
  rcases Nat.lt_or_ge dy dx with h | h
  · rw [Nat.max_eq_left (Nat.le_of_lt h)] at hk
    obtain ⟨low, high⟩ := axisSteps_bounds (M := dx) (by omega) dy k
    rw [lineErrAt, lineErr_eq, if_pos h, Nat.max_eq_left (Nat.le_of_lt h), axisSteps_major (Nat.le_of_lt hk)]
    constructor <;> zify at * <;> omega
  · rw [Nat.max_eq_right h] at hk
    obtain ⟨low, high⟩ := axisSteps_bounds (M := dy) (by omega) dx k
    rw [lineErrAt, lineErr_eq, if_neg (Nat.not_lt.mpr h), Nat.max_eq_right h, axisSteps_major (Nat.le_of_lt hk)]
    constructor <;> zify at * <;> omega

theorem lineErrAt_succ {dx dy : Nat} (hk : k < max dx dy) : lineErrAt dx dy (k + 1) =
    lineErrAt dx dy k - (if -(dx : Int) < lineErrAt dx dy k then (dy : Int) else 0)
      + (if lineErrAt dx dy k < dy then (dx : Int) else 0) := by
  obtain ⟨ex, ey⟩ := lineErrAt_thresholds hk
  simp only [ex, ey]
  rw [lineErrAt, lineErrAt, axisSteps_succ (by omega) (Nat.le_max_left ..), axisSteps_succ (by omega) (Nat.le_max_right ..)]
  split <;> split <;> push_cast <;> ring

theorem lineVars_succ (a b c d k : Nat) : lineVars a b c d (k + 1) =
    lineStep |(c : Int) - a| |(d : Int) - b| (if a < c then 1 else -1) (if b < d then 1 else -1)
      (lineVars a b c d k) :=
  Function.iterate_succ_apply' _ _ _

/-- The loop's variables in closed form. -/
theorem lineVars_eq (hk : k ≤ lineSpan a b c d) : lineVars a b c d k =
    ⟨axisPos (lineSpan a b c d) a c k, axisPos (lineSpan a b c d) b d k, lineErrAt (gap a c) (gap b d) k⟩ := by
  induction k with
  | zero => simp [lineVars, axisPos_zero, lineErrAt, axisSteps_zero, abs_sub_eq_gap]
  | succ k ih =>
    obtain ⟨ex, ey⟩ := lineErrAt_thresholds (dx := gap a c) (dy := gap b d) hk
    rw [lineVars_succ, ih (Nat.le_of_lt hk), lineStep, abs_sub_eq_gap, abs_sub_eq_gap, LineVars.mk.injEq]
    refine ⟨?posX, ?posY, (lineErrAt_succ hk).symm⟩
    case posX =>
      rw [cast_axisPos_succ (gap_x_le_lineSpan ..) hk]
      exact if_congr ex rfl rfl
    case posY =>
      rw [cast_axisPos_succ (gap_y_le_lineSpan ..) hk]
      exact if_congr ey rfl rfl

theorem u16Pixel_lineVars (hk : k ≤ lineSpan a b c d) :
    u16Pixel (lineVars a b c d k).x (lineVars a b c d k).y = linePoint a b c d k := by
  rw [lineVars_eq hk, u16Pixel, BitVec.ofInt_natCast, BitVec.ofInt_natCast, linePoint]

/-- The loop reaches its end point after as many iterations as the longer axis has units. -/
theorem lineVars_end (a b c d : Nat) :
    (lineVars a b c d (lineSpan a b c d)).x = c ∧ (lineVars a b c d (lineSpan a b c d)).y = d := by
  rw [lineVars_eq (Nat.le_refl _), axisPos_last (gap_x_le_lineSpan ..), axisPos_last (gap_y_le_lineSpan ..)]
  exact ⟨rfl, rfl⟩

/-- Before that the longer axis is short of its end. -/
theorem lineVars_not_end (hk : k < lineSpan a b c d) :
    ¬ ((lineVars a b c d k).x = c ∧ (lineVars a b c d k).y = d) := by
  rw [lineVars_eq (Nat.le_of_lt hk), Nat.cast_inj, Nat.cast_inj]
  rintro ⟨ex, ey⟩
  rcases Nat.le_total (gap b d) (gap a c) with hm | hm
  · rw [lineSpan, Nat.max_eq_left hm] at hk ex
    exact axisPos_major_ne hk ex
  · rw [lineSpan, Nat.max_eq_right hm] at hk ey
    exact axisPos_major_ne hk ey

/-- The model's loop, with its bound or a greater one, plots the points of the closed form. -/
theorem lineLoop_eq_linePath (a b c d more : Nat) :
    lineLoop |(c : Int) - a| |(d : Int) - b| (if a < c then 1 else -1) (if b < d then 1 else -1) c d
      ((max |(c : Int) - a| |(d : Int) - b|).toNat + 1 + more) a b (lineErr |(c : Int) - a| |(d : Int) - b|)
      = linePath a b c d := by
  have bound : (max |(c : Int) - a| |(d : Int) - b|).toNat = lineSpan a b c d := by
    rw [abs_sub_eq_gap, abs_sub_eq_gap, lineSpan]
    omega
  rw [bound]
  refine (lineLoop_eq_map more (fun k hk => lineVars_not_end hk) (lineVars_end a b c d)).trans ?_
  exact List.map_congr_left fun k hk => u16Pixel_lineVars (Nat.lt_succ_iff.mp (List.mem_range.mp hk))

/-- The loop's variables run as 41_raster R130 writes them. -/
theorem lineRun_lineVars (a b c d : Nat) : LineRun a b c d (lineSpan a b c d) (fun k => (lineVars a b c d k).x)
    (fun k => (lineVars a b c d k).y) (fun k => (lineVars a b c d k).err) := by
  refine ⟨rfl, rfl, rfl, fun k hk => ⟨lineVars_not_end hk, ?_⟩, lineVars_end a b c d⟩
  simp only [lineVars_succ, Nat.cast_lt]
  exact ⟨rfl, rfl, rfl⟩

end Sloped

/-! ### DrawLine between clamped end points -/

section Clamped

variable {a b c d : Nat}

theorem clampedLine_vertical (a b d : Nat) :
    clampedLine a b a d = (List.range (max b d - min b d + 1)).map (fun i => u16Pixel a (min b d + i : Nat)) := by
  simp [clampedLine, List.range'_eq_map_range, ← List.map_eq_flatMap, wrap16, u16Pixel]

theorem clampedLine_horizontal (a b c : Nat) :
    clampedLine a b c b = (List.range (max a c - min a c + 1)).map (fun i => u16Pixel (min a c + i : Nat) b) := by
  by_cases h : a = c
  · simp [h, clampedLine_vertical]
  · have : ¬ (c : Int) - a = 0 := by omega
    simp [clampedLine, List.range'_eq_map_range, ← List.map_eq_flatMap, wrap16, u16Pixel, this]

/-- A sloped line runs the loop (41_raster R130). -/
theorem clampedLine_sloped (hx : a ≠ c) (hy : b ≠ d) : clampedLine a b c d = linePath a b c d := by
  have dx : ¬ |(c : Int) - a| = 0 := by rw [abs_sub_eq_gap, gap]; omega
  have dy : ¬ |(d : Int) - b| = 0 := by rw [abs_sub_eq_gap, gap]; omega
  rw [clampedLine, if_neg dx, if_neg dy]
  exact lineLoop_eq_linePath a b c d 0

/-- A straight line runs from its least coordinates to its greatest, whatever its direction (41_raster R130). -/
theorem clampedLine_straight (h : a = c ∨ b = d) :
    clampedLine a b c d = linePath (min a c) (min b d) (max a c) (max b d) := by
  rcases h with rfl | rfl
  · rw [clampedLine_vertical, min_self, max_self, linePath_vertical min_le_max]
  · rw [clampedLine_horizontal, min_self, max_self, linePath_horizontal min_le_max]

theorem clampedLine_swap (h : a = c ∨ b = d) : clampedLine c d a b = clampedLine a b c d := by
  rw [clampedLine_straight h, clampedLine_straight (h.imp Eq.symm Eq.symm), min_comm c, max_comm c, min_comm d,
    max_comm d]

/-- Every line is a path: a straight one between the least and the greatest coordinates, a sloped one between its end
points. Both paths have the line's box and its lengths along the axes, and their ends are the line's. -/
theorem clampedLine_eq_linePath (a b c d : Nat) : ∃ a' b' c' d' : Nat, clampedLine a b c d = linePath a' b' c' d' ∧
    min a' c' = min a c ∧ max a' c' = max a c ∧ min b' d' = min b d ∧ max b' d' = max b d ∧
    gap a' c' = gap a c ∧ gap b' d' = gap b d ∧
    ((a = a' ∧ b = b' ∧ c = c' ∧ d = d') ∨ (a = c' ∧ b = d' ∧ c = a' ∧ d = b')) := by
  by_cases h : a = c ∨ b = d
  · refine ⟨min a c, min b d, max a c, max b d, clampedLine_straight h, ?_⟩
    unfold gap
    omega
  · rw [not_or] at h
    exact ⟨a, b, c, d, clampedLine_sloped h.1 h.2, rfl, rfl, rfl, rfl, rfl, rfl, .inl ⟨rfl, rfl, rfl, rfl⟩⟩

theorem clampTo_lt {bound : Nat} (h : 0 < bound) (w : Word) : clampTo bound w < bound := by
  unfold clampTo
  split <;> omega

end Clamped

end Sys2Proof.Machine

open Sys2Proof Sys2Proof.Machine

/-- Settles O60: the two straight cases by their intervals, the sloped one by the variables of the loop. -/
theorem drawLineFollowsTheRule : Obligations.DrawLineFollowsTheRule := by
  intro x0 y0 x1 y1 a b c d
  have line : linePixels x0 y0 x1 y1 = clampedLine a b c d := rfl
  split
  · next hx =>
    rw [line, ← hx, clampedLine_vertical]
  · next hx =>
    split
    · next hy =>
      rw [line, ← hy, clampedLine_horizontal]
    · next hy =>
      refine ⟨_, _, _, _, lineRun_lineVars a b c d, ?_⟩
      rw [line, clampedLine_sloped hx hy]
      exact List.map_congr_left fun k hk => (u16Pixel_lineVars (Nat.lt_succ_iff.mp (List.mem_range.mp hk))).symm

/-- Settles O25: with either bound the loop plots the path in closed form. -/
theorem lineLoopEnds : Obligations.LineLoopEnds := fun x0 y0 x1 y1 more _ _ =>
  (lineLoop_eq_linePath x0 y0 x1 y1 more).trans (lineLoop_eq_linePath x0 y0 x1 y1 0).symm

/-- Settles O24: the laws of a path in closed form; the directions matter only when the line is sloped. -/
theorem lineLaws : Obligations.LineLaws := by
  refine ⟨by decide, fun x0 y0 x1 y1 => ?_⟩
  intro a b c d ps
  have ha : a < 128 := clampTo_lt (by decide) x0
  have hb : b < 64 := clampTo_lt (by decide) y0
  have hc : c < 128 := clampTo_lt (by decide) x1
  have hd : d < 64 := clampTo_lt (by decide) y1
  have line : ps = clampedLine a b c d := rfl
  have back : linePixels x1 y1 x0 y0 = clampedLine c d a b := rfl
  obtain ⟨a', b', c', d', path, minX, maxX, minY, maxY, gapX, gapY, ends⟩ := clampedLine_eq_linePath a b c d
  rw [← line] at path
  have hx : max a' c' < 2 ^ 16 := by omega
  have hy : max b' d' < 2 ^ 16 := by omega
  have first := List.mem_of_mem_head? (linePath_head a' b' c' d')
  have last := List.mem_of_mem_getLast? (linePath_getLast a' b' c' d')
  have both : (BitVec.ofNat 16 a, BitVec.ofNat 16 b) ∈ ps ∧ (BitVec.ofNat 16 c, BitVec.ofNat 16 d) ∈ ps := by
    rw [path]
    rcases ends with ⟨rfl, rfl, rfl, rfl⟩ | ⟨rfl, rfl, rfl, rfl⟩
    · exact ⟨first, last⟩
    · exact ⟨last, first⟩
  refine ⟨?count, ?distinct, both.1, both.2, ?box, ?direction, ?steps⟩
  case count => rw [path, length_linePath, lineSpan, gapX, gapY]
  case distinct => rw [path]; exact linePath_nodup hx hy
  case box =>
    intro p hp
    rw [path, mem_linePath] at hp
    obtain ⟨k, hk, rfl⟩ := hp
    obtain ⟨⟨left, right⟩, top, bottom⟩ := linePoint_box hx hy hk
    omega
  case direction =>
    split
    · next h => rw [back, line, clampedLine_swap h]
    · next h =>
      rw [not_or] at h
      rw [line, clampedLine_sloped h.1 h.2]
      exact ⟨linePath_head a b c d, linePath_getLast a b c d⟩
  case steps =>
    intro k p q hp hq
    rw [path, getElem?_linePath] at hp hq
    obtain ⟨-, rfl⟩ := hp
    obtain ⟨hk, rfl⟩ := hq
    rw [← gapX, ← gapY]
    exact linePoint_step hx hy hk

end

section
/-! PROOF. The pixels of straight lines (O23), and the commands made of lines: LINE, RECT and TRI (O22, O26, O28). -/

namespace Sys2Proof.Machine

/-- The pixels of a column between two rows. -/
theorem mem_column {a lo hi : Nat} (ha : a < 2 ^ 16) (hhi : hi < 2 ^ 16) (h : lo ≤ hi) (p : Pixel) :
    p ∈ (List.range (hi - lo + 1)).map (fun i => u16Pixel a (lo + i : Nat)) ↔
      coord p.1 = a ∧ lo ≤ coord p.2 ∧ coord p.2 ≤ hi := by
  simp only [List.mem_map, List.mem_range, u16Pixel, BitVec.ofInt_natCast]
  constructor
  · rintro ⟨i, hi, rfl⟩
    rw [coord_ofNat ha, coord_ofNat (by omega)]
    omega
  · rintro ⟨hx, hlo, hle⟩
    refine ⟨coord p.2 - lo, by omega, Prod.ext (coord_inj ?_) (coord_inj ?_)⟩
    · rw [coord_ofNat ha, hx]
    · rw [coord_ofNat (by omega)]
      omega

/-- The pixels of a row between two columns. -/
theorem mem_row {b lo hi : Nat} (hb : b < 2 ^ 16) (hhi : hi < 2 ^ 16) (h : lo ≤ hi) (p : Pixel) :
    p ∈ (List.range (hi - lo + 1)).map (fun i => u16Pixel (lo + i : Nat) b) ↔
      coord p.2 = b ∧ lo ≤ coord p.1 ∧ coord p.1 ≤ hi := by
  simpa [u16Pixel, Prod.ext_iff, and_comm] using mem_column hb hhi h p.swap

theorem exec_line (c : Color) (x0 y0 x1 y1 : Word) (s : State) :
    exec (.line c x0 y0 x1 y1) s = .next (finish .ok 0 0 (plotAll c (linePixels x0 y0 x1 y1) s)) := rfl

theorem exec_tri (c : Color) (x1 y1 x2 y2 x3 y3 : Word) (s : State) :
    exec (.tri c x1 y1 x2 y2 x3 y3) s = .next (finish .ok 0 0 (plotAll c (triPixels x1 y1 x2 y2 x3 y3) s)) := rfl

theorem exec_rect (c : Color) (x y w h : Word) (s : State) :
    exec (.rect c x y w h) s = .next (finish .ok 0 0 (plotAll c (rectPixels x y w h) s)) := rfl

end Sys2Proof.Machine

open Sys2Proof Sys2Proof.Machine

/-- Settles O23: DrawLine's two straight cases list a column and a row. -/
theorem straightLinesAreIntervals : Obligations.StraightLinesAreIntervals := by
  intro x0 y0 x1 y1 p
  have ha : clampTo WIDTH x0 < 128 := clampTo_lt (by decide) x0
  have hb : clampTo HEIGHT y0 < 64 := clampTo_lt (by decide) y0
  have hc : clampTo WIDTH x1 < 128 := clampTo_lt (by decide) x1
  have hd : clampTo HEIGHT y1 < 64 := clampTo_lt (by decide) y1
  refine ⟨fun h => ?_, fun h => ?_⟩
  · rw [linePixels, ← h, clampedLine_vertical]
    exact mem_column (by omega) (by omega) min_le_max p
  · rw [linePixels, ← h, clampedLine_horizontal]
    exact mem_row (by omega) (by omega) min_le_max p

/-- Settles O22: LINE plots the list `linePixels`. -/
theorem lineDrawsItsPixels : Obligations.LineDrawsItsPixels := fun c x0 y0 x1 y1 s =>
  ⟨_, exec_line c x0 y0 x1 y1 s, draws_plotAll c (linePixels x0 y0 x1 y1) s⟩

/-- Settles O28: TRI plots the list `triPixels`, three lines one after the other. -/
theorem triDrawsThreeLines : Obligations.TriDrawsThreeLines := fun c x1 y1 x2 y2 x3 y3 s =>
  ⟨_, exec_tri c x1 y1 x2 y2 x3 y3 s, draws_plotAll c (triPixels x1 y1 x2 y2 x3 y3) s⟩

namespace Sys2Proof.Machine

theorem clampTo_of_lt {bound : Nat} {w : Word} (h : coord w < bound) : clampTo bound w = coord w :=
  if_neg (Nat.not_le.mpr h)

/-- The far edge of a clipped rectangle, as DrawLine clamps it (41_raster R133, R134). -/
theorem clampTo_farEdge {bound x w : Nat} (h : bound < 2 ^ 16) :
    clampTo bound (wrap16 (farEdge bound x w)) = min (x + w) (bound - 1) := by
  have hf : farEdge bound x w = min (x + w) bound := by
    unfold farEdge
    split <;> omega
  have word : coord (wrap16 (farEdge bound x w)) = min (x + w) bound := by
    rw [wrap16, BitVec.ofInt_natCast, coord_ofNat (by omega), hf]
  rw [clampTo, word]
  split <;> omega

theorem rectPixels_off {x y : Word} (off : WIDTH ≤ coord x ∨ HEIGHT ≤ coord y) (w h : Word) :
    rectPixels x y w h = [] :=
  if_pos off

/-- RECT's pixels are on its top, bottom, left or right line (41_raster R134). -/
theorem mem_rectPixels {x y w h : Word} (hx : coord x < 128) (hy : coord y < 64) {right bottom : Nat}
    (hr : right = min (coord x + coord w) 127) (hb : bottom = min (coord y + coord h) 63) (p : Pixel) :
    p ∈ rectPixels x y w h ↔
      (((coord p.2 = coord y ∧ coord x ≤ coord p.1 ∧ coord p.1 ≤ right) ∨
        (coord p.2 = bottom ∧ coord x ≤ coord p.1 ∧ coord p.1 ≤ right)) ∨
        (coord p.1 = coord x ∧ coord y ≤ coord p.2 ∧ coord p.2 ≤ bottom)) ∨
        (coord p.1 = right ∧ coord y ≤ coord p.2 ∧ coord p.2 ≤ bottom) := by
  have ex : clampTo WIDTH x = coord x := clampTo_of_lt hx
  have ey : clampTo HEIGHT y = coord y := clampTo_of_lt hy
  have er := (clampTo_farEdge (bound := WIDTH) (x := coord x) (w := coord w) (by decide)).trans hr.symm
  have eb := (clampTo_farEdge (bound := HEIGHT) (x := coord y) (w := coord h) (by decide)).trans hb.symm
  have on : ¬ (WIDTH ≤ coord x ∨ HEIGHT ≤ coord y) := by simp only [WIDTH, HEIGHT]; omega
  have minX : min (coord x) right = coord x := by omega
  have maxX : max (coord x) right = right := by omega
  have minY : min (coord y) bottom = coord y := by omega
  have maxY : max (coord y) bottom = bottom := by omega
  rw [rectPixels, if_neg on]
  generalize wrap16 (farEdge WIDTH (coord x) (coord w)) = xr at er ⊢
  generalize wrap16 (farEdge HEIGHT (coord y) (coord h)) = yb at eb ⊢
  simp only [List.mem_append, (straightLinesAreIntervals x y xr y p).2 rfl,
    (straightLinesAreIntervals x yb xr yb p).2 rfl, (straightLinesAreIntervals x y x yb p).1 rfl,
    (straightLinesAreIntervals xr y xr yb p).1 rfl, ex, ey, er, eb, minX, maxX, minY, maxY]

end Sys2Proof.Machine

/-- Settles O26: the four lines together are the outline. -/
theorem rectDrawsTheOutline : Obligations.RectDrawsTheOutline := by
  intro c x y w h s
  refine ⟨_, rectPixels x y w h, exec_rect c x y w h s, draws_plotAll c _ s, fun p => ?_⟩
  simp only [WIDTH, HEIGHT]
  by_cases on : coord x < 128 ∧ coord y < 64
  · rw [mem_rectPixels on.1 on.2 rfl rfl]
    omega
  · rw [rectPixels_off (by simp only [WIDTH, HEIGHT]; omega)]
    simp only [List.not_mem_nil, false_iff]
    exact fun ⟨hx, hy, _⟩ => on ⟨hx, hy⟩

end

section
/-! PROOF. The circle's loop in R137's own words (O29), and that it ends within its bound (O30): up to the end `x` counts
the iterations and `y` never exceeds the radius, so no coordinate wraps. -/

namespace Sys2Proof.Machine

/-! ### Words in the signed range -/

theorem signed_range (w : Word) : -32768 ≤ signed w ∧ signed w ≤ 32767 :=
  ⟨BitVec.le_toInt w, Int.le_of_lt_add_one BitVec.toInt_lt⟩

theorem s16_of_range {v : Int} (h : -32768 ≤ v ∧ v ≤ 32767) : s16 v = v := by
  unfold s16
  omega

/-! ### The loop -/

/-- One iteration of the loop (41_raster R137). -/
def circleNext (v : CircleVars) : CircleVars := circleOutward (circleInward v)

/-- The loop's test `x < y` (41_raster R137). -/
def CircleVars.Running (v : CircleVars) : Prop := signed v.x < signed v.y

/-- The variables after one iteration, each assignment reduced with `s16` (41_raster R137). -/
theorem circleNext_s16 (v : CircleVars) :
    signed (circleNext v).y = (if 0 ≤ signed v.f then s16 (signed v.y - 1) else signed v.y) ∧
      signed (circleNext v).ddFy = (if 0 ≤ signed v.f then s16 (signed v.ddFy + 2) else signed v.ddFy) ∧
      signed (circleNext v).x = s16 (signed v.x + 1) ∧
      signed (circleNext v).ddFx = s16 (signed v.ddFx + 2) ∧
      signed (circleNext v).f = s16 ((if 0 ≤ signed v.f then s16 (signed v.f + signed (circleNext v).ddFy) else signed v.f)
        + signed (circleNext v).ddFx) := by
  have one : (1 : Word).toInt = 1 := rfl
  have two : (2 : Word).toInt = 2 := rfl
  unfold circleNext circleOutward circleInward
  split <;> simp only [signed, toInt_add_s16, toInt_sub_s16, one, two, and_self]

/-- While the loop runs `x` does not wrap. -/
theorem CircleVars.Running.next_x {v : CircleVars} (h : v.Running) : signed (circleNext v).x = signed v.x + 1 := by
  obtain ⟨-, -, ex, -, -⟩ := circleNext_s16 v
  have hx := signed_range v.x
  have hy := signed_range v.y
  rw [ex, s16_of_range]
  unfold CircleVars.Running at h
  omega

/-- While the loop runs `y` does not wrap: it stays or falls by one. -/
theorem CircleVars.Running.next_y {v : CircleVars} (h : v.Running) :
    signed v.y - 1 ≤ signed (circleNext v).y ∧ signed (circleNext v).y ≤ signed v.y := by
  obtain ⟨ey, -, -, -, -⟩ := circleNext_s16 v
  have hx := signed_range v.x
  have hy := signed_range v.y
  unfold CircleVars.Running at h
  rw [ey]
  split
  · rw [s16_of_range (by omega)]
    omega
  · omega

/-- A loop whose test first fails after `n` iterations gives `n` offsets, however many more iterations it is allowed. -/
theorem circleOffsets_eq_map {n : Nat} (more : Nat) {v : CircleVars}
    (running : ∀ k < n, (circleNext^[k] v).Running) (ended : ¬ (circleNext^[n] v).Running) :
    circleOffsets (n + more) v =
      (List.range n).map (fun k => ((circleNext^[k + 1] v).x, (circleNext^[k + 1] v).y)) := by
  induction n generalizing v with
  | zero =>
    cases more with
    | zero => rfl
    | succ more => exact if_neg ended
  | succ n ih =>
    have first : signed v.x < signed v.y := running 0 n.succ_pos
    rw [Nat.add_right_comm, circleOffsets, if_pos first, List.range_succ_eq_map, List.map_cons, List.map_map]
    exact congrArg _ (ih (fun k hk => running (k + 1) (Nat.succ_lt_succ hk)) ended)

/-! ### The walk of one octant -/

/-- The loop's variables after `k` iterations for radius `r` (41_raster R137). -/
def circleVars (r : Word) (k : Nat) : CircleVars := circleNext^[k] (circleStart r)

theorem circleVars_succ (r : Word) (k : Nat) : circleVars r (k + 1) = circleNext (circleVars r k) :=
  Function.iterate_succ_apply' _ _ _

variable {r : Word} {k n : Nat}

/-- Up to the end of the loop `x` counts the iterations and `y` never exceeds `r`. -/
theorem circleVars_bounds (running : ∀ j < k, (circleVars r j).Running) :
    signed (circleVars r k).x = k ∧ signed (circleVars r k).y ≤ signed r := by
  induction k with
  | zero => exact ⟨rfl, Int.le_refl _⟩
  | succ k ih =>
    have now := running k k.lt_succ_self
    obtain ⟨hx, hy⟩ := ih fun j hj => running j (Nat.lt_succ_of_lt hj)
    rw [circleVars_succ, now.next_x, hx]
    exact ⟨by simp, now.next_y.2.trans hy⟩

/-- `n` is the number of iterations of the loop for radius `r`. -/
structure CircleEnd (r : Word) (n : Nat) : Prop where
  running : ∀ k < n, (circleVars r k).Running
  ended : ¬ (circleVars r n).Running
  bound : n ≤ (signed r).toNat

theorem exists_circleEnd (r : Word) : ∃ n, CircleEnd r n := by
  classical
  have stops : ∃ k, k = (signed r).toNat ∨ ¬ (circleVars r k).Running := ⟨_, .inl rfl⟩
  have running : ∀ k < Nat.find stops, (circleVars r k).Running := fun k hk =>
    not_not.mp fun h => Nat.find_min stops hk (.inr h)
  refine ⟨Nat.find stops, running, ?_, Nat.find_min' stops (.inl rfl)⟩
  rcases Nat.find_spec stops with atBound | ended
  · obtain ⟨hx, hy⟩ := circleVars_bounds running
    rw [CircleVars.Running]
    omega
  · exact ended

theorem CircleEnd.circleOffsets_eq (h : CircleEnd r n) (more : Nat) :
    circleOffsets ((signed r).toNat + more) (circleStart r) =
      (List.range n).map (fun k => ((circleVars r (k + 1)).x, (circleVars r (k + 1)).y)) := by
  obtain ⟨rest, hrest⟩ := Nat.exists_eq_add_of_le h.bound
  rw [hrest, Nat.add_assoc]
  exact circleOffsets_eq_map (rest + more) h.running h.ended

theorem CircleEnd.octantWalk_eq (h : CircleEnd r n) :
    octantWalk r = (List.range n).map (fun k => ((circleVars r (k + 1)).x, (circleVars r (k + 1)).y)) :=
  h.circleOffsets_eq 0

/-- The loop's variables run as 41_raster R137 writes them. -/
theorem CircleEnd.circleRun (h : CircleEnd r n) :
    CircleRun r n (fun k => signed (circleVars r k).f) (fun k => signed (circleVars r k).ddFx)
      (fun k => signed (circleVars r k).ddFy) (fun k => signed (circleVars r k).x)
      (fun k => signed (circleVars r k).y) := by
  have startF : signed (circleStart r).f = s16 (1 - r.toInt) := toInt_sub_s16 1 r
  have startDdFy : signed (circleStart r).ddFy = s16 (-2 * r.toInt) := by
    rw [s16_eq, BitVec.ofInt_mul, ofInt_signed]
    rfl
  refine ⟨startF, rfl, startDdFy, rfl, rfl, fun k hk => ⟨h.running k hk, ?_⟩, h.ended⟩
  simp only [circleVars_succ]
  exact circleNext_s16 _

theorem exec_circ (c : Color) (x0 y0 r : Word) (s : State) :
    exec (.circ c x0 y0 r) s = .next (finish .ok 0 0 (plotAll c (circPixels x0 y0 r) s)) := rfl

end Sys2Proof.Machine

open Sys2Proof Sys2Proof.Machine

/-- Settles O30: with either bound the loop gives the offsets of its own `n` iterations. -/
theorem circleLoopEnds : Obligations.CircleLoopEnds := by
  intro r more
  obtain ⟨n, h⟩ := exists_circleEnd r
  refine ⟨?_, (h.circleOffsets_eq more).trans h.octantWalk_eq.symm⟩
  rw [h.octantWalk_eq, List.length_map, List.length_range]
  exact h.bound

/-- Settles O29: CIRC plots `circPixels`, whose offsets are the variables of R137's loop. -/
theorem circDrawsItsPixels : Obligations.CircDrawsItsPixels := by
  intro c x0 y0 r s
  obtain ⟨n, h⟩ := exists_circleEnd r
  refine ⟨_, n, _, _, _, _, _, h.circleRun, ?_, exec_circ c x0 y0 r s,
    draws_plotAll c (circPixels x0 y0 r) s, ?_⟩
  · have := h.bound
    rw [signed] at this
    omega
  · simp only [circPixels, axisPixels, octantPixels, h.octantWalk_eq, List.flatMap_map, u16Pixel, signed,
      ofInt_add_signed, ofInt_sub_signed, ofInt_signed]

end

section
/-! PROOF. The symmetry of the circle (O31): the axis pixels are the eight mirror images of the offset `(0, r)`, and the
mirror images of an offset are closed under the reflections. -/

namespace Sys2Proof.Machine

variable {x0 y0 r dx dy : Word} {d : Pixel}

/-! ### The mirror images of one offset -/

/-- The eight points of one offset are the sums with a signed copy of the offset or of its transpose. -/
theorem mem_octantPixels : (x0 + dx, y0 + dy) ∈ octantPixels x0 y0 d ↔
    ((dx = d.1 ∨ dx = -d.1) ∧ (dy = d.2 ∨ dy = -d.2)) ∨ ((dx = d.2 ∨ dx = -d.2) ∧ (dy = d.1 ∨ dy = -d.1)) := by
  simp only [octantPixels, List.mem_cons, List.not_mem_nil, or_false, Prod.mk.injEq, BitVec.sub_eq_add_neg,
    BitVec.add_right_inj]
  simp only [and_or_left]
  simp only [or_and_right, or_assoc]

/-- The mirror images are closed under the three generating reflections (41_raster R138). -/
theorem octantPixels_reflect (h : (x0 + dx, y0 + dy) ∈ octantPixels x0 y0 d) :
    (x0 - dx, y0 + dy) ∈ octantPixels x0 y0 d ∧ (x0 + dx, y0 - dy) ∈ octantPixels x0 y0 d ∧
      (x0 + dy, y0 + dx) ∈ octantPixels x0 y0 d := by
  have negate (u v : Word) : (-u = v ∨ -u = -v) ↔ (u = v ∨ u = -v) := by
    rw [BitVec.neg_eq_iff_eq_neg, BitVec.neg_inj, or_comm]
  rw [BitVec.sub_eq_add_neg, BitVec.sub_eq_add_neg]
  simp only [mem_octantPixels, negate] at h ⊢
  exact ⟨h, h, h.symm.imp And.symm And.symm⟩

/-- A circle's pixels are the mirror images of `(0, r)` and of the walk's offsets. -/
theorem mem_circPixels {p : Pixel} :
    p ∈ circPixels x0 y0 r ↔ ∃ d, (d = (0, r) ∨ d ∈ octantWalk r) ∧ p ∈ octantPixels x0 y0 d := by
  have axis : p ∈ axisPixels x0 y0 r ↔ p ∈ octantPixels x0 y0 (0, r) := by
    simp only [axisPixels, octantPixels, List.mem_cons, List.not_mem_nil, or_false, add_zero, sub_zero]
    tauto
  simp only [circPixels, List.mem_append, axis, List.mem_flatMap, or_and_right, exists_or, exists_eq_left]

/-! ### A circle that fits the panel -/

/-- The walk's offsets are in the quadrant of the radius. -/
theorem octantWalk_bounds (h : d ∈ octantWalk r) :
    (0 ≤ signed d.1 ∧ signed d.1 ≤ signed r) ∧ 0 ≤ signed d.2 ∧ signed d.2 ≤ signed r := by
  obtain ⟨n, hn⟩ := exists_circleEnd r
  rw [hn.octantWalk_eq, List.mem_map] at h
  obtain ⟨k, hk, rfl⟩ := h
  have running : ∀ j < k + 1, (circleVars r j).Running := fun j hj =>
    hn.running j (by have := List.mem_range.mp hk; omega)
  have now : signed (circleVars r k).x < signed (circleVars r k).y := running k k.lt_succ_self
  obtain ⟨hx, hy⟩ := circleVars_bounds fun j hj => running j (Nat.lt_succ_of_lt hj)
  obtain ⟨hx', hy'⟩ := circleVars_bounds running
  have low := (running k k.lt_succ_self).next_y.1
  rw [← circleVars_succ] at low
  dsimp only
  omega

/-- A coordinate moved by no more than the radius stays between the edges that the circle keeps. -/
theorem signed_offset_bounds {c e : Word} {edge : Int} (low : signed r ≤ signed c) (high : signed c + signed r ≤ edge)
    (hedge : edge ≤ 127) (he : 0 ≤ signed e ∧ signed e ≤ signed r) :
    (0 ≤ signed (c + e) ∧ signed (c + e) ≤ edge) ∧ 0 ≤ signed (c - e) ∧ signed (c - e) ≤ edge := by
  simp only [signed, toInt_add_s16, toInt_sub_s16] at *
  rw [s16_of_range (by omega), s16_of_range (by omega)]
  omega

theorem onPanel_of_signed {p : Pixel} (hx : 0 ≤ signed p.1 ∧ signed p.1 ≤ 127) (hy : 0 ≤ signed p.2 ∧ signed p.2 ≤ 63) :
    onPanel p = true := by
  rw [onPanel_iff, coord, coord, WIDTH, HEIGHT]
  simp only [signed, BitVec.toInt_eq_toNat_cond] at hx hy
  split_ifs at hx hy <;> omega

theorem octantPixels_onPanel (lowX : signed r ≤ signed x0) (lowY : signed r ≤ signed y0)
    (highX : signed x0 + signed r ≤ 127) (highY : signed y0 + signed r ≤ 63)
    (hx : 0 ≤ signed d.1 ∧ signed d.1 ≤ signed r) (hy : 0 ≤ signed d.2 ∧ signed d.2 ≤ signed r) :
    ∀ p ∈ octantPixels x0 y0 d, onPanel p = true := by
  obtain ⟨xAdd, xSub⟩ := signed_offset_bounds lowX highX (by decide) hx
  obtain ⟨xAddY, xSubY⟩ := signed_offset_bounds lowX highX (by decide) hy
  obtain ⟨yAdd, ySub⟩ := signed_offset_bounds lowY highY (by decide) hy
  obtain ⟨yAddX, ySubX⟩ := signed_offset_bounds lowY highY (by decide) hx
  simp only [octantPixels, List.forall_mem_cons]
  exact ⟨onPanel_of_signed xAdd yAdd, onPanel_of_signed xSub yAdd, onPanel_of_signed xAdd ySub,
    onPanel_of_signed xSub ySub, onPanel_of_signed xAddY yAddX, onPanel_of_signed xSubY yAddX,
    onPanel_of_signed xAddY ySubX, onPanel_of_signed xSubY ySubX, fun _ h => absurd h List.not_mem_nil⟩

end Sys2Proof.Machine

open Sys2Proof Sys2Proof.Machine

/-- Settles O31: each pixel is a mirror image of an offset within the radius, and so are its reflections. -/
theorem circleSymmetry : Obligations.CircleSymmetry := by
  intro x0 y0 r hr lowX lowY highX highY
  refine ⟨fun p hp => ?_, fun dx dy h => ?_⟩
  · obtain ⟨d, hd, hp⟩ := mem_circPixels.mp hp
    have within : (0 ≤ signed d.1 ∧ signed d.1 ≤ signed r) ∧ 0 ≤ signed d.2 ∧ signed d.2 ≤ signed r := by
      rcases hd with rfl | hd
      · exact ⟨⟨Int.le_refl 0, Int.le_of_lt hr⟩, Int.le_of_lt hr, Int.le_refl _⟩
      · exact octantWalk_bounds hd
    exact octantPixels_onPanel lowX lowY highX highY within.1 within.2 p hp
  · obtain ⟨d, hd, h⟩ := mem_circPixels.mp h
    obtain ⟨flipX, flipY, swapped⟩ := octantPixels_reflect h
    exact ⟨mem_circPixels.mpr ⟨d, hd, flipX⟩, mem_circPixels.mpr ⟨d, hd, flipY⟩, mem_circPixels.mpr ⟨d, hd, swapped⟩⟩

end

section
/-! PROOF. The filled rectangle (O27): each of its lines is a row of the clipped box, the last of them clamped onto the
panel where the rectangle was clipped below. -/

namespace Sys2Proof.Machine

theorem exec_rectf (c : Color) (x y w h : Word) (s : State) :
    exec (.rectf c x y w h) s = .next (finish .ok 0 0 (plotAll c (rectfPixels x y w h) s)) := rfl

theorem rectfPixels_off {x y : Word} (off : WIDTH ≤ coord x ∨ HEIGHT ≤ coord y) (w h : Word) :
    rectfPixels x y w h = [] :=
  if_pos off

theorem farEdge_eq_min (bound x w : Nat) : farEdge bound x w = min (x + w) bound := by
  unfold farEdge
  split <;> omega

theorem coord_wrap16 {k : Nat} (h : k < 2 ^ 16) : coord (wrap16 k) = k := by
  rw [wrap16, BitVec.ofInt_natCast, coord_ofNat h]

/-- A line within one row plots the columns between its clamped ends (41_raster R130). -/
theorem mem_linePixels_row {x0 x1 y : Word} {p : Pixel} :
    p ∈ linePixels x0 y x1 y ↔ coord p.2 = clampTo HEIGHT y ∧
      min (clampTo WIDTH x0) (clampTo WIDTH x1) ≤ coord p.1 ∧
      coord p.1 ≤ max (clampTo WIDTH x0) (clampTo WIDTH x1) :=
  (straightLinesAreIntervals x0 y x1 y p).2 rfl

/-- One line of RECTF: the row `i` below the corner, or row 63 for the row past the panel (42_fill R160). -/
theorem mem_rectfRow {x y w : Word} {i : Nat} (hx : coord x < 128) (hi : coord y + i ≤ 64) {p : Pixel} :
    p ∈ linePixels x (wrap16 (coord y + i)) (wrap16 (farEdge WIDTH (coord x) (coord w))) (wrap16 (coord y + i)) ↔
      coord p.2 = min (coord y + i) 63 ∧ coord x ≤ coord p.1 ∧ coord p.1 ≤ min (coord x + coord w) 127 := by
  have word : coord (wrap16 (coord y + i)) = coord y + i := coord_wrap16 (k := coord y + i) (by omega)
  have left : clampTo WIDTH x = coord x := clampTo_of_lt hx
  have row : clampTo HEIGHT (wrap16 (coord y + i)) = min (coord y + i) 63 := by
    rw [clampTo, word, HEIGHT]
    split <;> omega
  rw [mem_linePixels_row, row, left, clampTo_farEdge (by decide), WIDTH]
  omega

/-- RECTF's pixels are those of its lines (42_fill R160). -/
theorem mem_rectfPixels {x y w h : Word} (hx : coord x < 128) (hy : coord y < 64) (p : Pixel) :
    p ∈ rectfPixels x y w h ↔ ∃ i ≤ min (coord y + coord h) 64 - coord y, coord p.2 = min (coord y + i) 63 ∧
      coord x ≤ coord p.1 ∧ coord p.1 ≤ min (coord x + coord w) 127 := by
  have on : ¬ (WIDTH ≤ coord x ∨ HEIGHT ≤ coord y) := by simp only [WIDTH, HEIGHT]; omega
  have lines : p ∈ rectfPixels x y w h ↔ ∃ i ≤ min (coord y + coord h) 64 - coord y,
      p ∈ linePixels x (wrap16 (coord y + i)) (wrap16 (farEdge WIDTH (coord x) (coord w))) (wrap16 (coord y + i)) := by
    simp [rectfPixels, if_neg on, ← List.map_eq_flatMap, farEdge_eq_min HEIGHT]
  exact lines.trans (exists_congr fun i => and_congr_right fun hi => mem_rectfRow hx (by omega))

end Sys2Proof.Machine

open Sys2Proof Sys2Proof.Machine

/-- Settles O27: the rows of the lines are the rows of the box, row 63 standing for one below the panel. -/
theorem rectfDrawsTheBox : Obligations.RectfDrawsTheBox := by
  intro c x y w h s
  refine ⟨_, rectfPixels x y w h, exec_rectf c x y w h s, draws_plotAll c _ s, fun p => ?_⟩
  simp only [WIDTH, HEIGHT]
  by_cases on : coord x < 128 ∧ coord y < 64
  · rw [mem_rectfPixels on.1 on.2]
    constructor
    · rintro ⟨i, hi, row, columns⟩
      omega
    · rintro ⟨-, -, left, right, top, bottom⟩
      exact ⟨coord p.2 - coord y, by omega, by omega, left, right⟩
  · rw [rectfPixels_off (by simp only [WIDTH, HEIGHT]; omega)]
    simp only [List.not_mem_nil, false_iff]
    exact fun ⟨hx, hy, _⟩ => on ⟨hx, hy⟩

end

section
/-! PROOF. TRIF's sweep: its loop in R162's own words (O32) and its length (O33). -/

namespace Sys2Proof.Machine

theorem exec_trif (c : Color) (x1 y1 x2 y2 x3 y3 : Word) (s : State) :
    exec (.trif c x1 y1 x2 y2 x3 y3) s = .next (finish .ok 0 0 (plotAll c (trifPixels x1 y1 x2 y2 x3 y3) s)) := rfl

/-! ### The loop -/

/-- The variables of TRIF's loop (42_fill R162). -/
structure SweepVars where
  x : Word
  y : Word
  num : Word

/-- One iteration of the loop after its line (42_fill R162). -/
def sweepNext (k : Sweep) (v : SweepVars) : SweepVars where
  x := (if signed k.den ≤ signed (v.num + k.numadd) then v.x + k.xinc1 else v.x) + k.xinc2
  y := (if signed k.den ≤ signed (v.num + k.numadd) then v.y + k.yinc1 else v.y) + k.yinc2
  num := if signed k.den ≤ signed (v.num + k.numadd) then v.num + k.numadd - k.den else v.num + k.numadd

/-- The swept points are the loop's variables, one for each iteration. -/
theorem sweepPoints_eq_map (k : Sweep) (n : Nat) (v : SweepVars) : sweepPoints k n v.x v.y v.num =
    (List.range n).map (fun j => (((sweepNext k)^[j] v).x, ((sweepNext k)^[j] v).y)) := by
  induction n generalizing v with
  | zero => rfl
  | succ n ih =>
    rw [sweepPoints, List.range_succ_eq_map, List.map_cons, List.map_map]
    exact congrArg _ (ih (sweepNext k v))

/-- The variables after one iteration, each assignment reduced with `s16` (42_fill R162). -/
theorem sweepNext_s16 (k : Sweep) (v : SweepVars) :
    let sum := s16 (signed v.num + signed k.numadd)
    signed (sweepNext k v).num = (if signed k.den ≤ sum then s16 (sum - signed k.den) else sum) ∧
      signed (sweepNext k v).x =
        s16 ((if signed k.den ≤ sum then s16 (signed v.x + signed k.xinc1) else signed v.x) + signed k.xinc2) ∧
      signed (sweepNext k v).y =
        s16 ((if signed k.den ≤ sum then s16 (signed v.y + signed k.yinc1) else signed v.y) + signed k.yinc2) := by
  have sum : s16 (signed v.num + signed k.numadd) = signed (v.num + k.numadd) := (toInt_add_s16 _ _).symm
  unfold sweepNext
  simp only [sum]
  split <;> simp only [signed, toInt_add_s16, toInt_sub_s16, and_self]

/-! ### The set-up of the sweep -/

section SetUp

variable {x1 y1 x2 y2 : Word}

theorem sweepSetup_of_xMajor (h : signed (absDiff16 y1 y2) ≤ signed (absDiff16 x1 x2)) :
    sweepSetup x1 y1 x2 y2 = ⟨0, towards x1 x2, towards y1 y2, 0, absDiff16 x1 x2, half16 (absDiff16 x1 x2),
      absDiff16 y1 y2, absDiff16 x1 x2⟩ :=
  if_pos h

theorem sweepSetup_of_yMajor (h : ¬ signed (absDiff16 y1 y2) ≤ signed (absDiff16 x1 x2)) :
    sweepSetup x1 y1 x2 y2 = ⟨towards x1 x2, 0, 0, towards y1 y2, absDiff16 y1 y2, half16 (absDiff16 y1 y2),
      absDiff16 x1 x2, absDiff16 y1 y2⟩ :=
  if_neg h

theorem signed_towards (a b : Word) : signed (towards a b) = if a.toNat ≤ b.toNat then 1 else -1 :=
  apply_ite signed _ _ _

theorem signed_half16 (w : Word) : signed (half16 w) = (signed w).tdiv 2 := by
  have range := signed_range w
  have half : ((signed w).tdiv 2).natAbs = (signed w).natAbs / 2 := Int.natAbs_tdiv (signed w) 2
  exact (s16_eq _).symm.trans (s16_of_range (by omega))

theorem signed_absDiff16 (a b : Word) : signed (absDiff16 a b) = s16 |(b.toNat : Int) - a.toNat| :=
  (s16_eq _).symm

theorem s16_toNat (w : Word) : s16 w.toNat = signed w := by
  rw [s16_eq, BitVec.ofInt_natCast, BitVec.ofNat_toNat, BitVec.setWidth_eq, signed]
/-- The constants of the sweep, read as 42_fill R162 writes them. -/
theorem sweepSetup_s16 (x1 y1 x2 y2 : Word) :
    let deltax := s16 |(x2.toNat : Int) - x1.toNat|
    let deltay := s16 |(y2.toNat : Int) - y1.toNat|
    let toX : Int := if x1.toNat ≤ x2.toNat then 1 else -1
    let toY : Int := if y1.toNat ≤ y2.toNat then 1 else -1
    let k := sweepSetup x1 y1 x2 y2
    signed k.xinc1 = (if deltay ≤ deltax then 0 else toX) ∧ signed k.xinc2 = (if deltay ≤ deltax then toX else 0) ∧
      signed k.yinc1 = (if deltay ≤ deltax then toY else 0) ∧ signed k.yinc2 = (if deltay ≤ deltax then 0 else toY) ∧
      signed k.den = (if deltay ≤ deltax then deltax else deltay) ∧ signed k.num = (signed k.den).tdiv 2 ∧
      signed k.numadd = (if deltay ≤ deltax then deltay else deltax) ∧ k.numpixels = k.den := by
  have zero : signed 0 = 0 := rfl
  simp only [← signed_absDiff16, ← signed_towards]
  by_cases h : signed (absDiff16 y1 y2) ≤ signed (absDiff16 x1 x2)
  · simp only [sweepSetup_of_xMajor h, if_pos h, zero, signed_half16, and_self]
  · simp only [sweepSetup_of_yMajor h, if_neg h, zero, signed_half16, and_self]

end SetUp

/-! ### The sweep between two vertices -/

variable (x1 y1 x2 y2 : Word)

/-- The loop's variables after `j` iterations from vertex 1 towards vertex 2 (42_fill R162). -/
def trifVars (j : Nat) : SweepVars :=
  (sweepNext (sweepSetup x1 y1 x2 y2))^[j] ⟨x1, y1, (sweepSetup x1 y1 x2 y2).num⟩

theorem trifVars_succ (j : Nat) :
    trifVars x1 y1 x2 y2 (j + 1) = sweepNext (sweepSetup x1 y1 x2 y2) (trifVars x1 y1 x2 y2 j) :=
  Function.iterate_succ_apply' _ _ _

theorem trifPoints_eq_map : trifPoints x1 y1 x2 y2 = (List.range (sweepCount (sweepSetup x1 y1 x2 y2))).map
    (fun j => ((trifVars x1 y1 x2 y2 j).x, (trifVars x1 y1 x2 y2 j).y)) :=
  sweepPoints_eq_map _ _ ⟨x1, y1, _⟩

/-- The loop's variables run as 42_fill R162 writes them. -/
theorem sweepRun_trifVars : SweepRun x1 y1 x2 y2 (sweepCount (sweepSetup x1 y1 x2 y2))
    (fun j => signed (trifVars x1 y1 x2 y2 j).x) (fun j => signed (trifVars x1 y1 x2 y2 j).y)
    (fun j => signed (trifVars x1 y1 x2 y2 j).num) := by
  obtain ⟨xinc1, xinc2, yinc1, yinc2, den, num, numadd, numpixels⟩ := sweepSetup_s16 x1 y1 x2 y2
  simp only [SweepRun, ← xinc1, ← xinc2, ← yinc1, ← yinc2, ← den, ← numadd]
  refine ⟨?count, (s16_toNat x1).symm, (s16_toNat y1).symm, num, fun j hj => ?step⟩
  case count => rw [sweepCount, numpixels]
  case step =>
    rw [trifVars_succ]
    exact sweepNext_s16 _ _

end Sys2Proof.Machine

open Sys2Proof Sys2Proof.Machine

/-- Settles O32: TRIF plots `trifPixels`, the lines from the swept points, which are the variables of R162's loop. -/
theorem trifDrawsItsFan : Obligations.TrifDrawsItsFan := by
  intro c x1 y1 x2 y2 x3 y3 s
  refine ⟨_, _, _, _, _, sweepRun_trifVars x1 y1 x2 y2, ?_, exec_trif c x1 y1 x2 y2 x3 y3 s,
    draws_plotAll c (trifPixels x1 y1 x2 y2 x3 y3) s⟩
  simp only [trifPoints_eq_map, u16Pixel, signed, ofInt_signed]

/-- Settles O33: the loop runs `numpixels + 1` times, and a word's signed value is at most 32767. -/
theorem trifSweepCount : Obligations.TrifSweepCount := by
  intro x1 y1 x2 y2 deltax deltay
  obtain ⟨-, -, -, -, den, -, -, numpixels⟩ := sweepSetup_s16 x1 y1 x2 y2
  have count : signed (sweepSetup x1 y1 x2 y2).numpixels = max deltax deltay := by
    rw [numpixels, den, s16_eq, s16_eq, max_def_lt]
    split <;> split <;> omega
  refine ⟨?_, ?_⟩
  · rw [trifPoints_eq_map, List.length_map, List.length_range, sweepCount, count]
  · rw [← count]
    exact (signed_range _).2

end

section
/-! PROOF. TRIF's sweep between vertices on the panel (O34), in closed form: after `k` points the minor axis has stepped
`k` times its share of the longer one, and the numerator holds the remainder. -/

namespace Sys2Proof.Machine

/-! ### Steps along one axis of the sweep -/

section Axis

variable {M m k a c : Nat}

/-- How many of the first `k` iterations step along an axis of length `m`, when the longer axis has length `M`.
Where DrawLine's `axisSteps` rounds a half down, the sweep rounds it up. -/
def sweepSteps (M m k : Nat) : Nat := (k * m + M / 2) / M

/-- The numerator after `k` iterations. -/
def sweepRest (M m k : Nat) : Nat := (k * m + M / 2) % M

/-- An iteration adds `m` to the numerator and steps when it reaches `M` (42_fill R162). -/
theorem sweepSteps_succ (hM : 0 < M) (h : m ≤ M) (k : Nat) :
    sweepSteps M m (k + 1) = sweepSteps M m k + (if M ≤ sweepRest M m k + m then 1 else 0) ∧
      sweepRest M m (k + 1) =
        if M ≤ sweepRest M m k + m then sweepRest M m k + m - M else sweepRest M m k + m := by
  have euclid : M * sweepSteps M m k + sweepRest M m k = k * m + M / 2 := Nat.div_add_mod _ _
  have rest : sweepRest M m k < M := Nat.mod_lt _ hM
  have next : (k + 1) * m = k * m + m := Nat.succ_mul k m
  refine (Nat.div_mod_unique hM).mpr ?_
  split_ifs <;> rw [Nat.mul_add, next] <;> omega

theorem sweepSteps_zero (M m : Nat) : sweepSteps M m 0 = 0 := by
  rw [sweepSteps, Nat.div_eq_zero_iff]
  omega

theorem sweepRest_zero (M m : Nat) : sweepRest M m 0 = M / 2 := by
  rw [sweepRest, Nat.zero_mul, Nat.zero_add]
  rcases Nat.eq_zero_or_pos M with rfl | hM
  · rfl
  · exact Nat.mod_eq_of_lt (by omega)

theorem sweepSteps_last (h : m ≤ M) : sweepSteps M m M = m := by
  rcases Nat.eq_zero_or_pos M with rfl | hM
  · rw [sweepSteps_zero]
    omega
  · rw [sweepSteps, Nat.mul_add_div hM, Nat.div_eq_of_lt (by omega), Nat.add_zero]

theorem sweepSteps_le (h : m ≤ M) (hk : k ≤ M) : sweepSteps M m k ≤ m :=
  calc sweepSteps M m k ≤ sweepSteps M m M := Nat.div_le_div_right (Nat.add_le_add_right (Nat.mul_le_mul_right m hk) _)
    _ = m := sweepSteps_last h

/-- The coordinate of the `k`-th point of a sweep from `a` to `c`, when the longer axis has length `M`. -/
def sweepPos (M a c k : Nat) : Nat := stepsFrom a c (sweepSteps M (gap a c) k)

theorem sweepPos_zero (M a c : Nat) : sweepPos M a c 0 = a := by
  simp [sweepPos, sweepSteps_zero, stepsFrom]

theorem sweepPos_last (h : gap a c ≤ M) : sweepPos M a c M = c := by
  rw [sweepPos, sweepSteps_last h, stepsFrom_gap]

theorem sweepPos_le (h : gap a c ≤ M) (hk : k ≤ M) : sweepPos M a c k ≤ max a c := by
  have : sweepSteps M (gap a c) k ≤ a - c + (c - a) := sweepSteps_le h hk
  unfold sweepPos stepsFrom
  split <;> omega

/-- The direction from `a` to `c` as R162 takes it (42_fill R162). -/
def direction (a c : Nat) : Int := if a ≤ c then 1 else -1

/-- One iteration's move along an axis. -/
theorem cast_sweepPos_succ (h : gap a c ≤ M) (hk : k < M) : (sweepPos M a c (k + 1) : Int) =
    if M ≤ sweepRest M (gap a c) k + gap a c then sweepPos M a c k + direction a c else sweepPos M a c k := by
  have rest : sweepRest M (gap a c) k < M := Nat.mod_lt _ (by omega)
  have next := sweepSteps_le h hk
  rw [(sweepSteps_succ (by omega) h k).1] at next
  rw [sweepPos, sweepPos, (sweepSteps_succ (by omega) h k).1]
  split_ifs at next ⊢
  · rw [cast_stepsFrom next, cast_stepsFrom (Nat.le_of_succ_le next), direction]
    unfold gap at *
    split_ifs <;> omega
  · rfl

/-- Every iteration steps along the longer axis. -/
theorem cast_sweepPos_major_succ (hk : k < gap a c) :
    (sweepPos (gap a c) a c (k + 1) : Int) = sweepPos (gap a c) a c k + direction a c := by
  rw [cast_sweepPos_succ (Nat.le_refl _) hk, if_pos (Nat.le_add_left _ _)]

theorem gap_sweepPos_succ_le (h : gap a c ≤ M) (hk : k < M) : gap (sweepPos M a c k) (sweepPos M a c (k + 1)) ≤ 1 := by
  have move := cast_sweepPos_succ h hk
  unfold gap direction at *
  split_ifs at move <;> omega

theorem gap_sweepPos_major_succ (hk : k < gap a c) :
    gap (sweepPos (gap a c) a c k) (sweepPos (gap a c) a c (k + 1)) = 1 := by
  have move := cast_sweepPos_major_succ hk
  rw [direction] at move
  rw [gap]
  split_ifs at move <;> omega

end Axis

/-! ### The sweep in closed form -/

section Sweep

variable {x1 y1 x2 y2 : Word} {k n : Nat}

/-- The length of the longer axis of the sweep. -/
def sweepSpan (x1 y1 x2 y2 : Word) : Nat := lineSpan (coord x1) (coord y1) (coord x2) (coord y2)

/-- The `k`-th point of the sweep. -/
def sweepPoint (x1 y1 x2 y2 : Word) (k : Nat) : Pixel :=
  (BitVec.ofNat 16 (sweepPos (sweepSpan x1 y1 x2 y2) (coord x1) (coord x2) k),
    BitVec.ofNat 16 (sweepPos (sweepSpan x1 y1 x2 y2) (coord y1) (coord y2) k))

theorem s16_natCast {v : Nat} (h : v < 32768) : s16 v = v := s16_of_range (by omega)

/-- The major coordinate's assignments in one iteration: `inc1` is 0 and `inc2` the direction (42_fill R162). -/
theorem s16_major_step {a c : Nat} (hk : k < gap a c) (bound : max a c < 128) (carry : Prop) [Decidable carry] :
    s16 ((if carry then s16 (sweepPos (gap a c) a c k + 0) else sweepPos (gap a c) a c k) + direction a c) =
      sweepPos (gap a c) a c (k + 1) := by
  have now := sweepPos_le (Nat.le_refl _) (Nat.le_of_lt hk)
  have next := sweepPos_le (Nat.le_refl _) (k := k + 1) hk
  rw [Int.add_zero, s16_natCast (by omega), ite_self, ← cast_sweepPos_major_succ hk, s16_natCast (by omega)]

/-- The minor coordinate's assignments in one iteration: `inc1` is the direction and `inc2` 0 (42_fill R162). -/
theorem s16_minor_step {M a c : Nat} (h : gap a c ≤ M) (hk : k < M) (bound : max a c < 128) :
    s16 ((if (M : Int) ≤ sweepRest M (gap a c) k + gap a c then s16 (sweepPos M a c k + direction a c)
      else sweepPos M a c k) + 0) = sweepPos M a c (k + 1) := by
  have now := sweepPos_le h (Nat.le_of_lt hk)
  have next := sweepPos_le h (k := k + 1) hk
  have move := cast_sweepPos_succ h hk
  rw [Int.add_zero]
  split_ifs at move ⊢
  · rw [← move, s16_natCast (by omega), s16_natCast (by omega)]
  · omega
  · omega
  · rw [← move, s16_natCast (by omega)]

/-- The numerator's assignments in one iteration (42_fill R162). -/
theorem s16_rest_step {M m : Nat} (h : m ≤ M) (hk : k < M) (bound : M < 128) :
    s16 (sweepRest M m k + m) = sweepRest M m k + m ∧
    (if (M : Int) ≤ sweepRest M m k + m then s16 (sweepRest M m k + m - M) else sweepRest M m k + m) =
      sweepRest M m (k + 1) := by
  have rest : sweepRest M m k < M := Nat.mod_lt _ (by omega)
  refine ⟨s16_of_range (by omega), ?_⟩
  rw [(sweepSteps_succ (by omega) h k).2, s16_of_range (by omega)]
  split_ifs <;> omega

/-- R162's loop along a major axis from `a` to `c` and a minor one from `b` to `d` follows the closed form. -/
theorem sweepLoop_closed_form {a b c d : Nat} {major minor num : Nat → Int} (shorter : gap b d ≤ gap a c)
    (hMajor : max a c < 128) (hMinor : max b d < 128)
    (start : major 0 = a ∧ minor 0 = b ∧ num 0 = (gap a c : Int).tdiv 2)
    (step : ∀ k < gap a c,
      let sum := s16 (num k + gap b d)
      num (k + 1) = (if gap a c ≤ sum then s16 (sum - gap a c) else sum) ∧
        major (k + 1) = s16 ((if gap a c ≤ sum then s16 (major k + 0) else major k) + direction a c) ∧
        minor (k + 1) = s16 ((if gap a c ≤ sum then s16 (minor k + direction b d) else minor k) + 0)) :
    ∀ k ≤ gap a c, major k = sweepPos (gap a c) a c k ∧ minor k = sweepPos (gap a c) b d k ∧
      num k = sweepRest (gap a c) (gap b d) k := by
  intro k hk
  induction k with
  | zero =>
    rw [sweepPos_zero, sweepPos_zero, sweepRest_zero]
    exact start
  | succ k ih =>
    obtain ⟨eMajor, eMinor, eNum⟩ := ih (Nat.le_of_lt hk)
    obtain ⟨eSum, eRest⟩ := s16_rest_step shorter hk (by unfold gap; omega)
    obtain ⟨nextNum, nextMajor, nextMinor⟩ := step k hk
    rw [eNum, eSum] at nextNum nextMajor nextMinor
    rw [nextMajor, nextMinor, nextNum, eMajor, eMinor]
    exact ⟨s16_major_step hk hMajor _, s16_minor_step shorter hk hMinor, eRest⟩

variable {x y num : Nat → Int}

/-- Between vertices on the panel nothing wraps in R162's loop, so that it follows the closed form. -/
theorem sweepRun_closed_form (run : SweepRun x1 y1 x2 y2 n x y num) (h1 : onPanel (x1, y1) = true)
    (h2 : onPanel (x2, y2) = true) : n = sweepSpan x1 y1 x2 y2 + 1 ∧ ∀ k ≤ sweepSpan x1 y1 x2 y2,
      x k = sweepPos (sweepSpan x1 y1 x2 y2) (coord x1) (coord x2) k ∧
      y k = sweepPos (sweepSpan x1 y1 x2 y2) (coord y1) (coord y2) k := by
  simp only [onPanel_iff, WIDTH, HEIGHT] at h1 h2
  simp only [sweepSpan, lineSpan, coord] at h1 h2 ⊢
  have deltaX : s16 |(x2.toNat : Int) - x1.toNat| = gap x1.toNat x2.toNat := by
    rw [abs_sub_eq_gap, s16_natCast (by unfold gap; omega)]
  have deltaY : s16 |(y2.toNat : Int) - y1.toNat| = gap y1.toNat y2.toNat := by
    rw [abs_sub_eq_gap, s16_natCast (by unfold gap; omega)]
  simp only [SweepRun, deltaX, deltaY, Nat.cast_le] at run
  obtain ⟨count, startX, startY, startNum, step⟩ := run
  rw [s16_natCast (by omega)] at startX startY
  by_cases xMajor : gap y1.toNat y2.toNat ≤ gap x1.toNat x2.toNat
  · simp only [if_pos xMajor, Nat.max_eq_left xMajor] at *
    have count : n = gap x1.toNat x2.toNat + 1 := by omega
    have closed := sweepLoop_closed_form xMajor (by omega) (by omega) ⟨startX, startY, startNum⟩
      fun k hk => step k (by omega)
    exact ⟨count, fun k hk => ⟨(closed k hk).1, (closed k hk).2.1⟩⟩
  · have yMajor := Nat.le_of_not_le xMajor
    simp only [if_neg xMajor, Nat.max_eq_right yMajor] at *
    have count : n = gap y1.toNat y2.toNat + 1 := by omega
    have closed := sweepLoop_closed_form yMajor (by omega) (by omega) ⟨startY, startX, startNum⟩
      fun k hk => (step k (by omega)).imp_right And.symm
    exact ⟨count, fun k hk => ⟨(closed k hk).2.1, (closed k hk).1⟩⟩

section Path

variable (h1 : onPanel (x1, y1) = true) (h2 : onPanel (x2, y2) = true)
include h1 h2

theorem trifPoints_eq_sweepPoint :
    trifPoints x1 y1 x2 y2 = (List.range (sweepSpan x1 y1 x2 y2 + 1)).map (sweepPoint x1 y1 x2 y2) := by
  have word {w : Word} {v : Nat} (h : signed w = v) : w = BitVec.ofNat 16 v := by
    rw [← ofInt_signed w, ← BitVec.ofInt_natCast, ← h, signed]
  obtain ⟨count, closed⟩ := sweepRun_closed_form (sweepRun_trifVars x1 y1 x2 y2) h1 h2
  rw [trifPoints_eq_map, count]
  refine List.map_congr_left fun k hk => ?_
  obtain ⟨ex, ey⟩ := closed k (Nat.lt_succ_iff.mp (List.mem_range.mp hk))
  exact Prod.ext (word ex) (word ey)

theorem getElem?_trifPoints {p : Pixel} :
    (trifPoints x1 y1 x2 y2)[k]? = some p ↔ k ≤ sweepSpan x1 y1 x2 y2 ∧ sweepPoint x1 y1 x2 y2 k = p := by
  simp [trifPoints_eq_sweepPoint h1 h2, List.getElem?_eq_some_iff]

/-- On the panel the points keep their coordinates as words. -/
theorem coord_sweepPoint (hk : k ≤ sweepSpan x1 y1 x2 y2) :
    coord (sweepPoint x1 y1 x2 y2 k).1 = sweepPos (sweepSpan x1 y1 x2 y2) (coord x1) (coord x2) k ∧
      coord (sweepPoint x1 y1 x2 y2 k).2 = sweepPos (sweepSpan x1 y1 x2 y2) (coord y1) (coord y2) k := by
  simp only [onPanel_iff, WIDTH, HEIGHT] at h1 h2
  have hx := sweepPos_le (gap_x_le_lineSpan ..) hk
  have hy := sweepPos_le (gap_y_le_lineSpan ..) hk
  exact ⟨coord_ofNat (Nat.lt_of_le_of_lt hx (by omega)), coord_ofNat (Nat.lt_of_le_of_lt hy (by omega))⟩

/-- Each step moves one unit on the longer axis and at most one on the other (42_fill R163, item 2). -/
theorem sweepPoint_step (hk : k < sweepSpan x1 y1 x2 y2) :
    if gap (coord y1) (coord y2) ≤ gap (coord x1) (coord x2) then
      gap (coord (sweepPoint x1 y1 x2 y2 k).1) (coord (sweepPoint x1 y1 x2 y2 (k + 1)).1) = 1 ∧
        gap (coord (sweepPoint x1 y1 x2 y2 k).2) (coord (sweepPoint x1 y1 x2 y2 (k + 1)).2) ≤ 1
    else
      gap (coord (sweepPoint x1 y1 x2 y2 k).2) (coord (sweepPoint x1 y1 x2 y2 (k + 1)).2) = 1 ∧
        gap (coord (sweepPoint x1 y1 x2 y2 k).1) (coord (sweepPoint x1 y1 x2 y2 (k + 1)).1) ≤ 1 := by
  obtain ⟨xk, yk⟩ := coord_sweepPoint h1 h2 (Nat.le_of_lt hk)
  obtain ⟨xn, yn⟩ := coord_sweepPoint h1 h2 (k := k + 1) hk
  rw [xk, yk, xn, yn]
  split
  · next major =>
    refine ⟨?_, gap_sweepPos_succ_le (gap_y_le_lineSpan ..) hk⟩
    rw [sweepSpan, lineSpan, Nat.max_eq_left major] at hk ⊢
    exact gap_sweepPos_major_succ hk
  · next minor =>
    refine ⟨?_, gap_sweepPos_succ_le (gap_x_le_lineSpan ..) hk⟩
    rw [sweepSpan, lineSpan, Nat.max_eq_right (by omega)] at hk ⊢
    exact gap_sweepPos_major_succ hk

end Path

theorem sweepPoint_zero : sweepPoint x1 y1 x2 y2 0 = (x1, y1) := by
  simp [sweepPoint, sweepPos_zero, coord]

theorem sweepPoint_last : sweepPoint x1 y1 x2 y2 (sweepSpan x1 y1 x2 y2) = (x2, y2) := by
  rw [sweepPoint, sweepSpan, sweepPos_last (gap_x_le_lineSpan ..), sweepPos_last (gap_y_le_lineSpan ..)]
  simp [coord]

end Sweep

end Sys2Proof.Machine

open Sys2Proof Sys2Proof.Machine

/-- Settles O34: on the panel the swept points are those of the closed form. -/
theorem trifSweepOnPanel : Obligations.TrifSweepOnPanel := by
  intro x1 y1 x2 y2 h1 h2 dx dy ps
  have length : ps.length = sweepSpan x1 y1 x2 y2 + 1 := by simp [ps, trifPoints_eq_sweepPoint h1 h2]
  refine ⟨length, ?first, ?last, fun k p q hp hq => ?step⟩
  case first =>
    rw [List.head?_eq_getElem?, getElem?_trifPoints h1 h2]
    exact ⟨Nat.zero_le _, sweepPoint_zero⟩
  case last =>
    rw [List.getLast?_eq_getElem?, length, Nat.add_sub_cancel, getElem?_trifPoints h1 h2]
    exact ⟨Nat.le_refl _, sweepPoint_last⟩
  case step =>
    rw [getElem?_trifPoints h1 h2] at hp hq
    obtain ⟨-, rfl⟩ := hp
    obtain ⟨hk, rfl⟩ := hq
    exact sweepPoint_step h1 h2 hk

end

section
/-! PROOF. The filled circle's pixels are its axis pixels and the spans of R137's loop (O35). -/

namespace Sys2Proof.Machine

theorem exec_circf (c : Color) (x0 y0 r : Word) (s : State) :
    exec (.circf c x0 y0 r) s = .next (finish .ok 0 0 (plotAll c (circfPixels x0 y0 r) s)) := rfl

end Sys2Proof.Machine

open Sys2Proof Sys2Proof.Machine

/-- Settles O35: CIRCF plots `circfPixels`, whose spans run between the variables of R137's loop. -/
theorem circfDrawsItsPixels : Obligations.CircfDrawsItsPixels := by
  intro c x0 y0 r s
  obtain ⟨n, h⟩ := exists_circleEnd r
  refine ⟨_, n, _, _, _, _, _, h.circleRun, exec_circf c x0 y0 r s, draws_plotAll c (circfPixels x0 y0 r) s, rfl,
    ?axis, ?spans⟩
  case axis => simp only [axisPixels, u16Pixel, ofInt_add_signed, ofInt_sub_signed, ofInt_signed]
  case spans =>
    simp only [circfSpans, spanPixels, h.octantWalk_eq, List.flatMap_map, signed, ofInt_add_signed, ofInt_sub_signed]

end

section
/-! PROOF. A disc that fits the panel: its spans in terms of the distances from the centre, which cover the axis pixels
(O36). -/

namespace Sys2Proof.Machine

variable {x0 y0 r dx dy v w e y : Word} {d : Pixel}

/-! ### Distances from the centre -/

theorem signed_neg (w : Word) : signed (-w) = s16 (-signed w) := by
  rw [s16_eq, BitVec.ofInt_neg, signed, signed, ofInt_signed]

theorem abs_signed_neg (w : Word) : |signed (-w)| = |signed w| := by
  have range := signed_range w
  rw [signed_neg, abs_eq_abs, s16]
  omega

/-- At the distance of a nonnegative `e` lie `e` and its negative. -/
theorem eq_or_eq_neg_iff (h : 0 ≤ signed e) : (w = e ∨ w = -e) ↔ |signed w| = signed e := by
  have range := signed_range e
  have neg : signed (-e) = -signed e := (signed_neg e).trans (s16_of_range (by omega))
  rw [abs_eq h, ← neg, signed, signed, signed, BitVec.toInt_inj, BitVec.toInt_inj]

theorem eq_zero_iff : w = 0 ↔ |signed w| = 0 := by
  rw [abs_eq_zero, ← BitVec.toInt_inj]
  rfl

theorem coord_of_signed (h : 0 ≤ signed w) : (coord w : Int) = signed w := by
  simp only [signed, coord, BitVec.toInt_eq_toNat_cond] at h ⊢
  split_ifs at h ⊢ <;> omega

/-- A word lies between two panel coordinates, read unsigned, when its signed value does. -/
theorem coord_between_iff {lo hi : Int} (hlo : 0 ≤ lo) (hhi : hi ≤ 127) :
    (lo ≤ coord w ∧ coord w ≤ hi) ↔ (lo ≤ signed w ∧ signed w ≤ hi) := by
  simp only [signed, coord, BitVec.toInt_eq_toNat_cond]
  split_ifs <;> omega

/-- DrawLine leaves a coordinate on the panel as it is (41_raster R130). -/
theorem clampTo_of_signed {bound : Nat} (h : 0 ≤ signed w) (hb : signed w < bound) :
    (clampTo bound w : Int) = signed w := by
  have := coord_of_signed h
  rw [clampTo_of_lt (by omega), this]

/-! ### The spans of one offset -/

/-- Distances `u` and `v` from the centre lie in the spans of the offset `d` (42_fill R165). -/
def InSpans (d : Pixel) (u v : Int) : Prop :=
  (v = signed d.2 ∧ u ≤ signed d.1) ∨ (v = signed d.1 ∧ u ≤ signed d.2)

theorem linePixels_row_swap (x1 x2 y : Word) : linePixels x2 y x1 y = linePixels x1 y x2 y :=
  clampedLine_swap (.inr rfl)

section Spans

variable (lowX : signed r ≤ signed x0) (highX : signed x0 + signed r ≤ 127)
include lowX highX

/-- A span of half-width `w` about column `x0`, on row `v` of the panel. -/
theorem mem_span (hw : 0 ≤ signed w ∧ signed w ≤ signed r) (hv : 0 ≤ signed v ∧ signed v ≤ 63) :
    (x0 + dx, y) ∈ linePixels (x0 - w) v (x0 + w) v ↔ y = v ∧ |signed dx| ≤ signed w := by
  obtain ⟨⟨right0, right1⟩, left0, left1⟩ := signed_offset_bounds lowX highX (by decide) hw
  have right : (clampTo WIDTH (x0 + w) : Int) = signed (x0 + w) := clampTo_of_signed right0 (by simp only [WIDTH]; omega)
  have left : (clampTo WIDTH (x0 - w) : Int) = signed (x0 - w) := clampTo_of_signed left0 (by simp only [WIDTH]; omega)
  have row : clampTo HEIGHT v = coord v := by
    zify
    rw [clampTo_of_signed hv.1 (by simp only [HEIGHT]; omega), coord_of_signed hv.1]
  have columns : (signed (x0 - w) ≤ coord (x0 + dx) ∧ coord (x0 + dx) ≤ signed (x0 + w)) ↔ |signed dx| ≤ signed w := by
    rw [coord_between_iff left0 right1, abs_le]
    have := signed_range dx
    simp only [signed, toInt_add_s16, toInt_sub_s16, s16] at *
    omega
  have order : clampTo WIDTH (x0 - w) ≤ clampTo WIDTH (x0 + w) := by
    simp only [signed, toInt_add_s16, toInt_sub_s16, s16] at *
    omega
  rw [mem_linePixels_row, row, min_eq_left order, max_eq_right order, ← columns, ← left, ← right, Nat.cast_le, Nat.cast_le]
  exact and_congr_left' ⟨coord_inj, congrArg coord⟩

variable (lowY : signed r ≤ signed y0) (highY : signed y0 + signed r ≤ 63)
include lowY highY

/-- The two spans of half-width `w` on the rows `e` below and above the centre. -/
theorem mem_span_pair (hw : 0 ≤ signed w ∧ signed w ≤ signed r) (he : 0 ≤ signed e ∧ signed e ≤ signed r) :
    ((x0 + dx, y0 + dy) ∈ linePixels (x0 - w) (y0 + e) (x0 + w) (y0 + e) ∨
      (x0 + dx, y0 + dy) ∈ linePixels (x0 - w) (y0 - e) (x0 + w) (y0 - e)) ↔
      |signed dy| = signed e ∧ |signed dx| ≤ signed w := by
  obtain ⟨below, above⟩ := signed_offset_bounds lowY highY (by decide) he
  rw [mem_span lowX highX hw below, mem_span lowX highX hw above, ← or_and_right, ← eq_or_eq_neg_iff he.1,
    BitVec.sub_eq_add_neg, BitVec.add_right_inj, BitVec.add_right_inj]

theorem mem_spanPixels (h1 : 0 ≤ signed d.1 ∧ signed d.1 ≤ signed r) (h2 : 0 ≤ signed d.2 ∧ signed d.2 ≤ signed r) :
    (x0 + dx, y0 + dy) ∈ spanPixels x0 y0 d ↔ InSpans d |signed dx| |signed dy| := by
  simp only [spanPixels, List.mem_append, linePixels_row_swap (x0 - d.1), linePixels_row_swap (x0 - d.2)]
  rw [or_assoc, mem_span_pair lowX highX lowY highY h1 h2, mem_span_pair lowX highX lowY highY h2 h1, InSpans]

theorem mem_circfSpans (hr : 0 ≤ signed r) : (x0 + dx, y0 + dy) ∈ circfSpans x0 y0 r ↔
    (|signed dy| = 0 ∧ |signed dx| ≤ signed r) ∨ ∃ d ∈ octantWalk r, InSpans d |signed dx| |signed dy| := by
  have centre : (x0 + dx, y0 + dy) ∈ linePixels (x0 - r) y0 (x0 + r) y0 ↔ |signed dy| = 0 ∧ |signed dx| ≤ signed r := by
    rw [mem_span lowX highX ⟨hr, Int.le_refl _⟩ (by omega), ← eq_zero_iff]
    exact and_congr_left' add_eq_left
  have spans {d : Pixel} (hd : d ∈ octantWalk r) :=
    mem_spanPixels (d := d) (dx := dx) (dy := dy) lowX highX lowY highY (octantWalk_bounds hd).1 (octantWalk_bounds hd).2
  rw [circfSpans, List.mem_append, centre, List.mem_flatMap]
  exact or_congr_right (exists_congr fun d => and_congr_right spans)

end Spans

/-- An axis pixel lies at distances 0 and `r` from the centre. -/
theorem mem_axisPixels (hr : 0 ≤ signed r) : (x0 + dx, y0 + dy) ∈ axisPixels x0 y0 r ↔
    (|signed dx| = 0 ∧ |signed dy| = signed r) ∨ (|signed dx| = signed r ∧ |signed dy| = 0) := by
  simp only [← eq_zero_iff, ← eq_or_eq_neg_iff hr, axisPixels, List.mem_cons, List.not_mem_nil, or_false, Prod.mk.injEq,
    BitVec.sub_eq_add_neg, BitVec.add_right_inj, add_eq_left]
  simp only [and_or_left, or_and_right, or_assoc]

theorem exists_offset (x0 y0 : Word) (p : Pixel) : ∃ dx dy, p = (x0 + dx, y0 + dy) :=
  ⟨p.1 - x0, p.2 - y0, by simp⟩

/-! ### The first iteration -/

/-- The first iteration's spans reach the rows at the top and the bottom of the disc: it keeps `y = r` unless `r = 1`, when
it has `x = r` (42_fill R166). -/
theorem octantWalk_reaches_radius (hr : 0 < signed r) : ∃ d ∈ octantWalk r, InSpans d 0 (signed r) := by
  obtain ⟨n, h⟩ := exists_circleEnd r
  have hn : 0 < n := by
    rcases Nat.eq_zero_or_pos n with rfl | hn
    · exact absurd hr h.ended
    · exact hn
  refine ⟨((circleVars r 1).x, (circleVars r 1).y), ?_, ?_⟩
  · rw [h.octantWalk_eq]
    exact List.mem_map_of_mem (List.mem_range.mpr hn)
  · have hx : signed (circleVars r 1).x = 1 :=
      (circleVars_bounds fun j hj => h.running j (Nat.lt_of_lt_of_le hj hn)).1
    have hy : signed (circleVars r 1).y = if 0 ≤ signed (circleStart r).f then s16 (signed r - 1) else signed r :=
      (circleNext_s16 (circleStart r)).1
    have hf : signed (circleStart r).f = s16 (1 - signed r) := toInt_sub_s16 1 r
    have range := signed_range r
    rw [hf, s16_of_range (by omega), s16_of_range (by omega)] at hy
    rw [InSpans, hx, hy]
    split <;> omega

end Sys2Proof.Machine

open Sys2Proof Sys2Proof.Machine

/-- Settles O36: left and right of the centre the centre row has them, above and below it the first iteration's spans. -/
theorem circfAxisRedundant : Obligations.CircfAxisRedundant := by
  intro x0 y0 r hr lowX lowY highX highY p hp
  have nonneg := Int.le_of_lt hr
  obtain ⟨dx, dy, rfl⟩ := exists_offset x0 y0 p
  rw [mem_circfSpans lowX highX lowY highY nonneg]
  rcases (mem_axisPixels nonneg).mp hp with ⟨column, distance⟩ | ⟨distance, row⟩
  · rw [column, distance]
    exact .inr (octantWalk_reaches_radius hr)
  · exact .inl ⟨row, Int.le_of_eq distance⟩

end

section
/-! PROOF. The symmetry of the disc (O37): from one iteration to the next the octant's `y` falls by at most one, so no row
is skipped, and a disc of rows is one of columns too. -/

namespace Sys2Proof.Machine

variable {x0 y0 r dx dy : Word} {j k m n : Nat} {u v : Int}

/-! ### The rows of an octant -/

/-- `x` and `y` after `k` iterations, at the start `(0, r)` (41_raster R137). -/
def circleOffset (r : Word) (k : Nat) : Pixel := ((circleVars r k).x, (circleVars r k).y)

section Octant

variable (h : CircleEnd r n)
include h

theorem CircleEnd.offset_x (hk : k ≤ n) : signed (circleOffset r k).1 = k :=
  (circleVars_bounds fun j hj => h.running j (Nat.lt_of_lt_of_le hj hk)).1

theorem CircleEnd.offset_running (hk : k < n) : (k : Int) < signed (circleOffset r k).2 :=
  h.offset_x (Nat.le_of_lt hk) ▸ h.running k hk

theorem CircleEnd.offset_ended : signed (circleOffset r n).2 ≤ n :=
  h.offset_x (Nat.le_refl n) ▸ Int.not_lt.mp h.ended

theorem CircleEnd.offset_y_succ (hk : k < n) : signed (circleOffset r k).2 - 1 ≤ signed (circleOffset r (k + 1)).2 ∧
    signed (circleOffset r (k + 1)).2 ≤ signed (circleOffset r k).2 := by
  rw [circleOffset, circleOffset, circleVars_succ]
  exact (h.running k hk).next_y

theorem CircleEnd.offset_y_antitone (hjk : j ≤ k) (hk : k ≤ n) :
    signed (circleOffset r k).2 ≤ signed (circleOffset r j).2 := by
  induction k, hjk using Nat.le_induction with
  | base => exact Int.le_refl _
  | succ k _ ih => exact (h.offset_y_succ hk).2.trans (ih (Nat.le_of_succ_le hk))

/-- Every row between two of the octant is the octant's row after some iteration. -/
theorem CircleEnd.exists_offset_y (hkm : k ≤ m) (hm : m ≤ n) (low : signed (circleOffset r m).2 ≤ u)
    (high : u ≤ signed (circleOffset r k).2) : ∃ j, k ≤ j ∧ j ≤ n ∧ signed (circleOffset r j).2 = u := by
  induction m, hkm using Nat.le_induction with
  | base => exact ⟨k, Nat.le_refl k, hm, Int.le_antisymm low high⟩
  | succ m hkm ih =>
    have fall := (h.offset_y_succ hm).1
    rcases Int.lt_or_eq_of_le low with above | here
    · exact ih (Nat.le_of_succ_le hm) (by omega)
    · exact ⟨m + 1, Nat.le_succ_of_le hkm, hm, here⟩

/-- Where the span on row `k` reaches column `j`, the span on row `j` reaches column `k`. -/
theorem CircleEnd.offset_y_ge (hj : j ≤ n) (hk : k ≤ n) (reach : (j : Int) ≤ signed (circleOffset r k).2) :
    (k : Int) ≤ signed (circleOffset r j).2 := by
  rcases Nat.eq_or_lt_of_le hj with rfl | hj'
  · rcases Nat.eq_or_lt_of_le hk with rfl | hk'
    · exact reach
    · obtain ⟨m, rfl⟩ := Nat.exists_eq_add_one_of_ne_zero (Nat.ne_zero_of_lt hk')
      have last := h.offset_running m.lt_succ_self
      have fall := (h.offset_y_succ m.lt_succ_self).1
      omega
  · obtain ⟨m, rfl⟩ := Nat.exists_eq_add_one_of_ne_zero (Nat.ne_zero_of_lt hj')
    have last := h.offset_running m.lt_succ_self
    have := h.offset_y_antitone (Nat.le_of_lt_succ hj') (Nat.le_succ m)
    omega

/-- A disc of the octant's rows is a disc of its columns. -/
theorem CircleEnd.inSpans_swap {u v : Nat} (hd : ∃ k ≤ n, InSpans (circleOffset r k) u v) :
    ∃ k ≤ n, InSpans (circleOffset r k) v u := by
  obtain ⟨k, hk, ⟨hv, hu⟩ | ⟨hv, hu⟩⟩ := hd <;> rw [h.offset_x hk] at *
  case inl =>
    have huk : u ≤ k := by omega
    have hun := huk.trans hk
    exact ⟨u, hun, .inr ⟨(h.offset_x hun).symm, hv ▸ h.offset_y_antitone huk hk⟩⟩
  case inr =>
    rcases Nat.lt_or_ge n u with past | hun
    · have ended := h.offset_ended
      obtain ⟨j, hkj, hj, row⟩ := h.exists_offset_y hk (Nat.le_refl n) (by omega) hu
      exact ⟨j, hj, .inl ⟨row.symm, by rw [h.offset_x hj]; omega⟩⟩
    · exact ⟨u, hun, .inr ⟨(h.offset_x hun).symm, hv ▸ h.offset_y_ge hun hk hu⟩⟩

end Octant

/-! ### The disc -/

/-- A disc's pixels are those in the spans of some offset of the octant, the start `(0, r)` among them: its spans are the
centre row and the axis pixels above and below. -/
theorem mem_circfPixels (h : CircleEnd r n) (hr : 0 ≤ signed r) (lowX : signed r ≤ signed x0)
    (lowY : signed r ≤ signed y0) (highX : signed x0 + signed r ≤ 127) (highY : signed y0 + signed r ≤ 63) :
    (x0 + dx, y0 + dy) ∈ circfPixels x0 y0 r ↔ ∃ k ≤ n, InSpans (circleOffset r k) |signed dx| |signed dy| := by
  have start : InSpans (circleOffset r 0) |signed dx| |signed dy| ↔
      (|signed dy| = signed r ∧ |signed dx| ≤ 0) ∨ (|signed dy| = 0 ∧ |signed dx| ≤ signed r) := Iff.rfl
  have walk : (∃ d ∈ octantWalk r, InSpans d |signed dx| |signed dy|) ↔
      ∃ k < n, InSpans (circleOffset r (k + 1)) |signed dx| |signed dy| := by
    simp only [h.octantWalk_eq, List.mem_map, List.mem_range, exists_exists_and_eq_and, circleOffset]
  have peel : (∃ k ≤ n, InSpans (circleOffset r k) |signed dx| |signed dy|) ↔
      InSpans (circleOffset r 0) |signed dx| |signed dy| ∨
        ∃ k < n, InSpans (circleOffset r (k + 1)) |signed dx| |signed dy| := by
    simp only [← Nat.lt_succ_iff]
    exact Nat.exists_lt_succ_left
  have nonneg := abs_nonneg (signed dx)
  rw [circfPixels, List.mem_append, mem_axisPixels hr, mem_circfSpans lowX highX lowY highY hr, walk, peel, start,
    ← or_assoc]
  exact or_congr_left (by omega)

end Sys2Proof.Machine

open Sys2Proof Sys2Proof.Machine

/-- Settles O37: the pixels depend only on their distances from the centre, and the two distances may be exchanged. -/
theorem circfSymmetry : Obligations.CircfSymmetry := by
  intro x0 y0 r hr lowX lowY highX highY dx dy hp
  obtain ⟨n, h⟩ := exists_circleEnd r
  rw [BitVec.sub_eq_add_neg, BitVec.sub_eq_add_neg]
  simp only [mem_circfPixels h (Int.le_of_lt hr) lowX lowY highX highY, abs_signed_neg] at hp ⊢
  refine ⟨hp, hp, ?_⟩
  simp only [Int.abs_eq_natAbs] at hp ⊢
  exact h.inSpans_swap hp

end

section
/-! PROOF. CIRCF at the edges of the panel (O38): after DrawLine's clamp each span is an interval of columns on one row, so
an example's row is the union of the intervals on it. -/

namespace Sys2Proof.Machine

variable {x0 y0 x1 x2 r x y : Word} {d p : Pixel}

/-- Columns `left` to `right` of row `row`. -/
structure RowSpan where
  row : Nat
  left : Nat
  right : Nat

def RowSpan.Holds (b : RowSpan) (p : Pixel) : Prop := coord p.2 = b.row ∧ b.left ≤ coord p.1 ∧ coord p.1 ≤ b.right

/-- DrawLine from `(x1, y)` to `(x2, y)` after its clamp (41_raster R130). -/
def clampedSpan (x1 x2 y : Word) : RowSpan where
  row := clampTo HEIGHT y
  left := min (clampTo WIDTH x1) (clampTo WIDTH x2)
  right := max (clampTo WIDTH x1) (clampTo WIDTH x2)

theorem mem_linePixels_iff_holds : p ∈ linePixels x1 y x2 y ↔ (clampedSpan x1 x2 y).Holds p := mem_linePixels_row

/-- The spans of one step of CIRCF (42_fill R165). -/
def spanRows (x0 y0 : Word) (d : Pixel) : List RowSpan :=
  [clampedSpan (x0 - d.1) (x0 + d.1) (y0 + d.2), clampedSpan (x0 + d.1) (x0 - d.1) (y0 - d.2),
   clampedSpan (x0 + d.2) (x0 - d.2) (y0 + d.1), clampedSpan (x0 + d.2) (x0 - d.2) (y0 - d.1)]

/-- The spans of CIRCF: the centre row, then four a step (42_fill R165). -/
def circfRows (x0 y0 r : Word) : List RowSpan :=
  clampedSpan (x0 - r) (x0 + r) y0 :: (octantWalk r).flatMap (spanRows x0 y0)

theorem mem_spanPixels_iff_holds : p ∈ spanPixels x0 y0 d ↔ ∃ b ∈ spanRows x0 y0 d, b.Holds p := by
  simp [spanPixels, spanRows, mem_linePixels_iff_holds]

theorem mem_circfSpans_iff_holds : p ∈ circfSpans x0 y0 r ↔ ∃ b ∈ circfRows x0 y0 r, b.Holds p := by
  simp only [circfSpans, circfRows, List.mem_append, mem_linePixels_iff_holds, List.exists_mem_cons_iff,
    List.mem_flatMap, mem_spanPixels_iff_holds]
  exact or_congr_right
    ⟨fun ⟨d, hd, b, hb, hp⟩ => ⟨b, ⟨d, hd, hb⟩, hp⟩, fun ⟨b, ⟨d, hd, hb⟩, hp⟩ => ⟨d, hd, b, hb, hp⟩⟩

/-- The intervals of columns that CIRCF's spans cover on one row. -/
def circfColumns (x0 y0 r : Word) (row : Nat) : List (Nat × Nat) :=
  ((circfRows x0 y0 r).filter (·.row = row)).map (fun b => (b.left, b.right))

/-- A row of CIRCF's pixels: its axis pixels and the intervals of its spans. -/
theorem mem_circfPixels_row : (x, y) ∈ circfPixels x0 y0 r ↔
    (x, y) ∈ axisPixels x0 y0 r ∨ ∃ i ∈ circfColumns x0 y0 r (coord y), i.1 ≤ coord x ∧ coord x ≤ i.2 := by
  have spans : (x, y) ∈ circfSpans x0 y0 r ↔
      ∃ i ∈ circfColumns x0 y0 r (coord y), i.1 ≤ coord x ∧ coord x ≤ i.2 := by
    simp [mem_circfSpans_iff_holds, circfColumns, RowSpan.Holds, and_assoc, eq_comm]
  rw [circfPixels, List.mem_append, spans]

end Sys2Proof.Machine

open Sys2Proof Sys2Proof.Machine

/-- Settles O38: on each example's row, the intervals of the clamped spans and the axis pixels that lie on it. -/
theorem circfEdgeExamples : Obligations.CircfEdgeExamples := by
  have below : circfColumns 64 60 6 63 = [(63, 65), (62, 66), (61, 67), (59, 69), (60, 68), (60, 68)] := by decide
  have above : circfColumns 64 2 5 63 = [(63, 65), (62, 66), (61, 67), (60, 68), (60, 68), (61, 67)] := by decide
  have left : circfColumns 2 32 5 32 = [(7, 127)] := by decide
  have axisBelow : ∀ p ∈ axisPixels 64 60 6, p.2 ≠ 63 := by simp [axisPixels]
  have axisAbove : ∀ p ∈ axisPixels 64 2 5, p.2 ≠ 63 := by simp [axisPixels]
  have axisLeft : ∀ p ∈ axisPixels 2 32 5, p.2 = 32 → 7 ≤ coord p.1 := by simp [axisPixels, coord]
  have column {x : Nat} (hx : x < 128) : coord (BitVec.ofNat 16 x) = x := coord_ofNat (by omega)
  refine ⟨fun x hx => ?below, fun x hx => ?above, fun x hx => ?left⟩ <;> rw [mem_circfPixels_row, column hx]
  case below =>
    have noAxis : (BitVec.ofNat 16 x, 63) ∉ axisPixels 64 60 6 := fun h => axisBelow _ h rfl
    rw [show coord 63 = 63 from rfl, below]
    simp only [noAxis, List.exists_mem_cons_iff, List.not_mem_nil, false_and, exists_false, false_or, or_false]
    omega
  case above =>
    have noAxis : (BitVec.ofNat 16 x, 63) ∉ axisPixels 64 2 5 := fun h => axisAbove _ h rfl
    rw [show coord 63 = 63 from rfl, above]
    simp only [noAxis, List.exists_mem_cons_iff, List.not_mem_nil, false_and, exists_false, false_or, or_false]
    omega
  case left =>
    have axis : (BitVec.ofNat 16 x, 32) ∈ axisPixels 2 32 5 → 7 ≤ x := fun h => column hx ▸ axisLeft _ h rfl
    rw [show coord 32 = 32 from rfl, left]
    simp only [List.exists_mem_cons_iff, List.not_mem_nil, false_and, exists_false, or_false]
    exact ⟨fun h => h.elim axis And.left, fun h => .inr ⟨h, by omega⟩⟩

end

section
/-! PROOF. GOTOXY and MEASURE, and the refusals of PUTC (O39, O40, O44). -/

namespace Sys2Proof.Machine

variable {ft : Font} {f : BitVec 3} {c : Color} {ch : Byte} {str : List Byte} {s : State}

/-! ### The text commands once their font is found -/

theorem exec_putc (hf : s.cfg.fonts[f.toNat]? = some ft) : exec (.putc c f ch) s = .next (putcWith ft c ch s) := by
  simp only [exec, execPutc, fontAt, hf]

theorem exec_puts (hf : s.cfg.fonts[f.toNat]? = some ft) : exec (.puts c f str) s = .next (putString ft c 0 str s) := by
  simp only [exec, execPuts, fontAt, hf]

theorem exec_measure (hf : s.cfg.fonts[f.toNat]? = some ft) :
    exec (.measure f str) s = .next (measureWith ft str.length s) := by
  simp only [exec, execMeasure, fontAt, hf]

/-! ### PutChar's status -/

/-- The two checks in the words and the order of 43_text R182. -/
theorem putStatus_eq (ft : Font) (ch : Byte) (s : State) : putStatus ft ch s =
    if s.AtEdge ft then .textOverflow else if hasGlyph ft ch then .ok else .undefinedGlyph := by
  simp only [putStatus, edgeRefuses_iff, glyphMissing_iff, ite_not]

theorem putStatus_eq_ok_iff : putStatus ft ch s = .ok ↔ ¬ s.AtEdge ft ∧ hasGlyph ft ch := by
  rw [putStatus_eq]
  split_ifs with edge glyph
  · exact iff_of_false nofun fun h => h.1 edge
  · exact iff_of_true rfl ⟨edge, glyph⟩
  · exact iff_of_false nofun fun h => glyph h.2

theorem putcWith_of_ok (h : putStatus ft ch s = .ok) :
    putcWith ft c ch s = finish .ok (ch.setWidth 32) 0 (drawGlyph ft ch c s) := by
  simp only [putcWith, putChar, charResult, h, if_true]

theorem putcWith_of_ne_ok (h : putStatus ft ch s ≠ .ok) :
    putcWith ft c ch s = finish (putStatus ft ch s) (ch.setWidth 32) 0 s := by
  simp only [putcWith, putChar, charResult, h, if_false]

/-- A refused PUTC writes its results and nothing else (43_text R182, R183). -/
theorem exec_putc_refused {st : Status} (hf : s.cfg.fonts[f.toNat]? = some ft) (hst : putStatus ft ch s = st)
    (hne : st ≠ .ok) :
    ∃ t, exec (.putc c f ch) s = .next t ∧ s.SameButResults t ∧ t.Results st (ch.setWidth 32) 0 := by
  subst hst
  refine ⟨_, exec_putc hf, ?_⟩
  rw [putcWith_of_ne_ok hne]
  exact ⟨finish_sameButResults _ _ _ s, finish_results _ _ _ s⟩

/-- The size of a legal string in a well-formed font is at most `255 * 16` (43_text R185). -/
theorem measure_le {n : Nat} (hv : fontValid ft) (hn : n ≤ MAXSTR) : n * ft.fw ≤ 4080 :=
  Nat.mul_le_mul hn hv.2.1

end Sys2Proof.Machine

open Sys2Proof Sys2Proof.Machine

/-- Settles O39: GOTOXY is two fields' write, and no read of a byte depends on those fields. -/
theorem gotoxyStoresTheCursor : Obligations.GotoxyStoresTheCursor := fun x y s =>
  ⟨finish .ok 0 0 { s with cx := x, cy := y }, rfl, finish_results .ok 0 0 _, rfl, rfl, fun _ => rfl,
    rfl, rfl, rfl, rfl, rfl, rfl, rfl, rfl, rfl⟩

/-- Settles O40: at the edge the status is `TEXT_OVERFLOW` whatever the character is, elsewhere the character decides. -/
theorem putcRefusals : Obligations.PutcRefusals := by
  intro c f ch s ft hf
  refine ⟨fun edge => ?_, fun edge glyph => ?_⟩
  · exact exec_putc_refused hf (by rw [putStatus_eq, if_pos edge]) nofun
  · exact exec_putc_refused hf (by rw [putStatus_eq, if_neg edge, if_neg glyph]) nofun

/-- Settles O44: the width fits `RVAL` because a legal string's is at most 4080. -/
theorem measureReturnsTheSize : Obligations.MeasureReturnsTheSize := by
  intro f str s ft hf
  refine ⟨_, exec_measure hf, finish_sameButResults _ _ _ s, rfl, fun height => ?_, rfl, fun valid legal => ?_⟩
  · exact heightResult_toNat (Nat.lt_succ_of_le height)
  · have bound := measure_le valid legal
    have exact : (BitVec.ofNat 32 (str.length * ft.fw)).toNat = str.length * ft.fw :=
      Nat.mod_eq_of_lt (Nat.lt_of_le_of_lt bound (by decide))
    exact ⟨exact, exact.trans_le bound⟩

end

section
/-! PROOF. The cell PUTC paints (O41): while its columns and rows do not run past 65535, its pixels are those at an exact
distance from the cursor, each plotted once. -/

namespace Sys2Proof.Machine

variable {ft : Font} {ch : Byte} {c d : Color} {s : State} {q : Pixel} {v w cx cy : Word} {i j k : Nat}

theorem coord_add_ofNat (h : coord w + k < 2 ^ 16) : coord (w + BitVec.ofNat 16 k) = coord w + k := by
  rw [coord, BitVec.toNat_add, BitVec.toNat_ofNat, Nat.add_mod_mod]
  exact Nat.mod_eq_of_lt h

theorem eq_add_ofNat_iff (h : coord w + k < 2 ^ 16) : v = w + BitVec.ofNat 16 k ↔ coord v = coord w + k := by
  rw [← coord_add_ofNat h]
  exact ⟨congrArg coord, coord_inj⟩

/-- The colour of column `j` of row `i` of a glyph (43_text R182). -/
def glyphColour (ft : Font) (ch : Byte) (c : Color) (i j : Nat) : Color :=
  if glyphBit (glyphRow ft ch.toNat i) j then c else notColour c

/-- The cells of a glyph that does not wrap are at exact distances from the cursor. -/
theorem mem_glyphCells (hx : coord cx + ft.fw ≤ 2 ^ 16) (hy : coord cy + ft.fh ≤ 2 ^ 16) :
    (q, d) ∈ glyphCells ft ch c cx cy ↔ ∃ i < ft.fh, ∃ j < ft.fw,
      coord q.1 = coord cx + j ∧ coord q.2 = coord cy + i ∧ d = glyphColour ft ch c i j := by
  simp only [glyphCells, List.mem_flatMap, List.mem_map, List.mem_range]
  refine exists_congr fun i => and_congr_right fun hi => exists_congr fun j => and_congr_right fun hj => ?_
  rw [← eq_add_ofNat_iff (by omega), ← eq_add_ofNat_iff (by omega), Prod.ext_iff, Prod.ext_iff, and_assoc]
  simp only [glyphColour, eq_comm]

/-- A well-formed font's cell at a cursor that is not at the edge lies in columns that do not wrap. -/
theorem cell_columns (hv : fontValid ft) (he : ¬ s.AtEdge ft) : coord s.cx + ft.fw < 144 := by
  obtain ⟨-, hw, -⟩ := hv
  simp only [State.AtEdge, WIDTH, HEIGHT] at he
  cases hfit : s.cfg.putcFit <;> simp only [hfit, reduceCtorEq, true_and, false_and, or_false, false_or] at he <;> omega

/-- Every row of a glyph of the font is in its table (20_memory R56). -/
theorem rows_glyphRow (hg : hasGlyph ft ch) (hi : i < ft.fh) :
    ft.rows[(ch.toNat - ft.amin) * ft.fh + i]? = some (glyphRow ft ch.toNat i) := by
  have inside : (ch.toNat - ft.amin) * ft.fh + i < (ft.amax - ft.amin + 1) * ft.fh :=
    calc (ch.toNat - ft.amin) * ft.fh + i < (ch.toNat - ft.amin + 1) * ft.fh := by rw [Nat.succ_mul]; omega
      _ ≤ (ft.amax - ft.amin + 1) * ft.fh := Nat.mul_le_mul_right _ (by have := hg.2; omega)
  rw [glyphRow, fontRow, Vector.getElem?_eq_getElem inside, Option.getD_some]

/-! ### What a drawn glyph leaves in the framebuffer -/

section Cell

variable (hx : coord s.cx + ft.fw ≤ 2 ^ 16) (hy : coord s.cy + ft.fh ≤ 2 ^ 16)
include hx hy

theorem inCell_of_mem_glyphCells (h : (q, d) ∈ glyphCells ft ch c s.cx s.cy) : s.InCell ft q := by
  obtain ⟨i, hi, j, hj, h1, h2, -⟩ := (mem_glyphCells hx hy).mp h
  simp only [State.InCell]
  omega

theorem pixel_drawGlyph_cell (hq : onPanel q = true) (hi : i < ft.fh) (hj : j < ft.fw)
    (h1 : coord q.1 = coord s.cx + j) (h2 : coord q.2 = coord s.cy + i) :
    (drawGlyph ft ch c s).pixel q = storedBit (glyphColour ft ch c i j) s.inv := by
  rw [← colourBit_effective]
  refine pixel_plotCells_mem _ s hq ⟨(q, _), (mem_glyphCells hx hy).mpr ⟨i, hi, j, hj, h1, h2, rfl⟩, rfl⟩ ?once
  rintro ⟨p, d⟩ hd (rfl : p = q)
  obtain ⟨i', -, j', -, h1', h2', rfl⟩ := (mem_glyphCells hx hy).mp hd
  rw [show i' = i by omega, show j' = j by omega]

theorem pixel_drawGlyph_other (hq : onPanel q = true) (h : ¬ s.InCell ft q) :
    (drawGlyph ft ch c s).pixel q = s.pixel q := by
  refine pixel_plotCells_other _ s hq ?_
  rintro ⟨p, d⟩ hd (rfl : p = q)
  exact h (inCell_of_mem_glyphCells hx hy hd)

theorem readByte_drawGlyph_other {a : Nat} (h : ∀ q, onPanel q = true → s.InCell ft q → pixelAddr q ≠ a) :
    (drawGlyph ft ch c s).readByte a = s.readByte a :=
  readByte_plotCells_other _ s fun pc hpc hp => h pc.1 hp (inCell_of_mem_glyphCells hx hy hpc)

end Cell

/-- A drawn glyph changes nothing but `FB` and `CX` (43_text R182). -/
theorem drawGlyph_frame (ft : Font) (ch : Byte) (c : Color) (s : State) :
    s.SameButTextAndResults (drawGlyph ft ch c s) := by
  simp [State.SameButTextAndResults]

end Sys2Proof.Machine

open Sys2Proof Sys2Proof.Machine

/-- Settles O41: PUTC draws its glyph, whose columns do not wrap because the cursor is not at the edge. -/
theorem putcPaintsTheCell : Obligations.PutcPaintsTheCell := by
  intro c f ch s ft hf valid edge glyph
  have hx : coord s.cx + ft.fw ≤ 2 ^ 16 := by have := cell_columns valid edge; omega
  refine ⟨finish .ok (ch.setWidth 32) 0 (drawGlyph ft ch c s), ?_, finish_results .ok _ 0 _, rfl,
    drawGlyph_frame ft ch c s, fun hy => ⟨fun i j hi hj => ?_, fun q hq outside => ?_, fun a outside => ?_⟩⟩
  · rw [exec_putc hf, putcWith_of_ok (putStatus_eq_ok_iff.mpr ⟨edge, glyph⟩)]
  · exact ⟨_, rows_glyphRow glyph hi, fun q hq h1 h2 => pixel_drawGlyph_cell hx hy hq hi hj h1 h2⟩
  · exact pixel_drawGlyph_other hx hy hq outside
  · exact readByte_drawGlyph_other hx hy outside

end

section
/-! PROOF. PUTS as a run of PUTC (O42): the state PUTS carries differs from the one PUTC leaves only in the result registers,
which no character's drawing reads. -/

namespace Sys2Proof.Machine

variable {ft : Font} {c : Color} {ch : Byte} {str : List Byte} {s : State} {j n : Nat}

/-- The state that PUTC of each of the first `j` characters leaves, whatever their statuses. -/
def putsState (ft : Font) (c : Color) (str : List Byte) (s : State) (j : Nat) : State :=
  (str.take j).foldl (fun u ch => putcWith ft c ch u) s

theorem putsState_zero (ft : Font) (c : Color) (str : List Byte) (s : State) : putsState ft c str s 0 = s := rfl

theorem putsState_cons_succ (ft : Font) (c : Color) (ch : Byte) (str : List Byte) (s : State) (j : Nat) :
    putsState ft c (ch :: str) s (j + 1) = putsState ft c str (putcWith ft c ch s) j := rfl

theorem putsState_succ (ft : Font) (c : Color) (s : State) (h : j < str.length) :
    putsState ft c str s (j + 1) = putcWith ft c str[j] (putsState ft c str s j) := by
  rw [putsState, ← List.take_append_getElem h, List.foldl_append]
  rfl

/-- Each of the first `k` characters draws, from the state the ones before it leave. -/
def DrawsFirst (ft : Font) (c : Color) (str : List Byte) (s : State) (k : Nat) : Prop :=
  ∀ j (h : j < str.length), j < k → putStatus ft str[j] (putsState ft c str s j) = .ok

theorem putcWith_rstatus (ft : Font) (c : Color) (ch : Byte) (s : State) :
    (putcWith ft c ch s).rstatus = statusCode (putStatus ft ch s) := rfl

theorem putcWith_cfg (ft : Font) (c : Color) (ch : Byte) (s : State) : (putcWith ft c ch s).cfg = s.cfg :=
  (putChar_keeps ft ch c s).cfg

theorem putsState_cfg (ft : Font) (c : Color) (str : List Byte) (s : State) (j : Nat) :
    (putsState ft c str s j).cfg = s.cfg := by
  induction str generalizing s j with
  | nil => rw [putsState, List.take_nil, List.foldl_nil]
  | cons ch str ih =>
    cases j with
    | zero => rfl
    | succ j => rw [putsState_cons_succ, ih, putcWith_cfg]

theorem statusCode_eq_ok_iff {st : Status} : statusCode st = statusCode .ok ↔ st = .ok := by
  cases st <;> decide

/-- PUTS draws a character by PUTC and goes on from the state PUTC leaves. -/
theorem putString_cons_of_ok (h : putStatus ft ch s = .ok) :
    putString ft c n (ch :: str) s = putString ft c (n + 1) str (putcWith ft c ch s) := by
  rw [putString, if_pos h, putcWith_of_ok h]
  exact (putString_withResults (statusCode .ok, ch.setWidth 32, 0) _ ft c _ str).symm

theorem putString_cons_of_ne_ok (h : putStatus ft ch s ≠ .ok) :
    putString ft c n (ch :: str) s = finish (putStatus ft ch s) (ch.setWidth 32) (BitVec.ofNat 16 n) s := by
  rw [putString, if_neg h, charResult]

/-- How PUTS that starts at index `n` ends: after the `k` characters it drew by PUTC the string is over or the next one is
refused (43_text R184). -/
theorem putString_stops (ft : Font) (c : Color) (n : Nat) (str : List Byte) (s : State) :
    ∃ k ≤ str.length,
      DrawsFirst ft c str s k ∧
      ((∃ h : k < str.length, putStatus ft str[k] (putsState ft c str s k) ≠ .ok ∧
          putString ft c n str s = finish (putStatus ft str[k] (putsState ft c str s k)) (str[k].setWidth 32)
            (BitVec.ofNat 16 (n + k)) (putsState ft c str s k)) ∨
        (k = str.length ∧
          putString ft c n str s = finish .ok 0 (BitVec.ofNat 16 (n + k)) (putsState ft c str s k))) := by
  induction str generalizing n s with
  | nil => exact ⟨0, Nat.le_refl 0, fun _ _ => nofun, .inr ⟨rfl, rfl⟩⟩
  | cons ch str ih =>
    by_cases hok : putStatus ft ch s = .ok
    · obtain ⟨k, hk, drew, stop⟩ := ih (n + 1) (putcWith ft c ch s)
      rw [putString_cons_of_ok hok]
      refine ⟨k + 1, Nat.succ_le_succ hk, fun j h hj => ?_, ?_⟩
      · cases j with
        | zero => exact hok
        | succ j => exact drew j (Nat.lt_of_succ_lt_succ h) (Nat.lt_of_succ_lt_succ hj)
      · rw [← Nat.add_assoc, Nat.add_right_comm n k 1]
        exact stop.imp (fun ⟨h, stop⟩ => ⟨Nat.succ_lt_succ h, stop⟩) (fun ⟨h, stop⟩ => ⟨congrArg _ h, stop⟩)
    · exact ⟨0, Nat.zero_le _, fun _ _ => nofun, .inl ⟨Nat.succ_pos _, hok, putString_cons_of_ne_ok hok⟩⟩

end Sys2Proof.Machine

open Sys2Proof Sys2Proof.Machine

/-- Settles O42: the states between are those that PUTC leaves, and PUTS ends with the last of them but for its results. -/
theorem putsRunsPutcInOrder : Obligations.PutsRunsPutcInOrder := by
  intro c f str s hf
  obtain ⟨ft, hft⟩ : ∃ ft, s.cfg.fonts[f.toNat]? = some ft := ⟨_, List.getElem?_eq_getElem hf⟩
  obtain ⟨k, hk, drew, stop⟩ := putString_stops ft c 0 str s
  have font (j : Nat) : (putsState ft c str s j).cfg.fonts[f.toNat]? = some ft := by rw [putsState_cfg, hft]
  refine ⟨_, k, putsState ft c str s, exec_puts hft, putsState_zero ft c str s, hk, fun j h hj => ?_, ?_⟩
  · rw [putsState_succ ft c s h, putcWith_rstatus, drew j h hj]
    exact ⟨exec_putc (font j), rfl⟩
  · rw [Nat.zero_add] at stop
    obtain ⟨h, refused, ends⟩ | ⟨rfl, ends⟩ := stop
    · rw [dif_pos h, ends]
      exact ⟨_, exec_putc (font k), mt statusCode_eq_ok_iff.mp refused, rfl⟩
    · rw [dif_neg (Nat.lt_irrefl _), ends]
      rfl

end

section
/-! PROOF. The cursor and the frame of PUTS (O43): of a well-formed font each character drawn starts on the panel, so the
cursor never wraps, and the cells of a run lie side by side. -/

namespace Sys2Proof.Machine

variable {ft : Font} {c : Color} {ch : Byte} {str : List Byte} {s u : State} {k : Nat}

/-- `u` is what drawing `k` characters of a font by PUTC leaves of `s`, as far as the cursor and the frame go
(43_text R184, R186, R187). -/
structure State.TextRun (s u : State) (ft : Font) (k : Nat) : Prop where
  cx : u.cx = s.cx + BitVec.ofNat 16 k * BitVec.ofNat 16 ft.fw
  frame : s.SameButTextAndResults u
  column : fontValid ft → coord u.cx = coord s.cx + k * ft.fw
  pixel : fontValid ft → coord s.cy + ft.fh ≤ 65536 →
    ∀ q, onPanel q = true → ¬ s.InRun ft k q → u.pixel q = s.pixel q
  byte : fontValid ft → coord s.cy + ft.fh ≤ 65536 →
    ∀ a, (∀ q, onPanel q = true → s.InRun ft k q → pixelAddr q ≠ a) → u.readByte a = s.readByte a

theorem State.TextRun.refl (s : State) (ft : Font) : s.TextRun s ft 0 where
  cx := by simp
  frame := ⟨rfl, rfl, rfl, rfl, rfl, rfl, rfl, rfl, rfl, rfl⟩
  column _ := by omega
  pixel _ _ _ _ _ := rfl
  byte _ _ _ _ := rfl

/-- Writing the result registers is no part of a run. -/
theorem State.TextRun.finish (h : s.TextRun u ft k) (st : Status) (v : BitVec 32) (a : Word) :
    s.TextRun (finish st v a u) ft k := ⟨h.cx, h.frame, h.column, h.pixel, h.byte⟩

theorem State.SameButTextAndResults.trans {t : State} (h : s.SameButTextAndResults u)
    (k : u.SameButTextAndResults t) : s.SameButTextAndResults t := by
  simp_all only [State.SameButTextAndResults, and_self]

/-- The cell of the next character lies in the run that it makes one longer. -/
theorem State.TextRun.inRun_of_inCell (h : s.TextRun u ft k) (hv : fontValid ft) {q : Pixel} (hq : u.InCell ft q) :
    s.InRun ft (k + 1) q := by
  obtain ⟨hy, -⟩ := h.frame
  have hx := h.column hv
  simp only [State.InCell, State.InRun, hx, hy, Nat.succ_mul] at hq ⊢
  omega

theorem State.InRun.succ {q : Pixel} (h : s.InRun ft k q) : s.InRun ft (k + 1) q := by
  simp only [State.InRun, Nat.succ_mul] at h ⊢
  omega

theorem State.TextRun.drawGlyph (h : s.TextRun u ft k) (he : ¬ u.AtEdge ft) (ch : Byte) (c : Color) :
    s.TextRun (drawGlyph ft ch c u) ft (k + 1) := by
  have columns (hv : fontValid ft) : coord u.cx + ft.fw < 2 ^ 16 := (cell_columns hv he).trans (by decide)
  have hcy : u.cy = s.cy := h.frame.1
  refine ⟨?cx, h.frame.trans (drawGlyph_frame ft ch c u), fun hv => ?column, fun hv hy q hq outside => ?pixel,
    fun hv hy a outside => ?byte⟩
  case cx =>
    rw [drawGlyph_cx, h.cx, BitVec.ofNat_add, BitVec.add_mul, BitVec.add_assoc, BitVec.one_mul]
  case column => rw [drawGlyph_cx, coord_add_ofNat (columns hv), h.column hv, Nat.succ_mul, Nat.add_assoc]
  case pixel =>
    rw [pixel_drawGlyph_other (columns hv).le (hcy ▸ hy) hq (mt (h.inRun_of_inCell hv) outside)]
    exact h.pixel hv hy q hq (mt State.InRun.succ outside)
  case byte =>
    rw [readByte_drawGlyph_other (columns hv).le (hcy ▸ hy) fun q hq hc => outside q hq (h.inRun_of_inCell hv hc)]
    exact h.byte hv hy a fun q hq hr => outside q hq hr.succ

/-- The characters PUTS drew make a run. -/
theorem putsState_textRun (hk : k ≤ str.length)
    (drew : DrawsFirst ft c str s k) :
    s.TextRun (putsState ft c str s k) ft k := by
  induction k with
  | zero => exact .refl s ft
  | succ k ih =>
    have run := ih (Nat.le_of_succ_le hk) fun j h hj => drew j h (Nat.lt_succ_of_lt hj)
    have ok := drew k hk (Nat.lt_succ_self k)
    rw [putsState_succ ft c s hk, putcWith_of_ok ok]
    exact (run.drawGlyph (putStatus_eq_ok_iff.mp ok).1 _ c).finish _ _ _

/-- PUTS leaves a run of the characters that `RAUX` counts, of all of them when it ends OK (43_text R184). -/
theorem putString_textRun (ft : Font) (c : Color) (str : List Byte) (s : State) :
    ∃ k, s.TextRun (putString ft c 0 str s) ft k ∧ (putString ft c 0 str s).raux = BitVec.ofNat 16 k ∧
      ((putString ft c 0 str s).rstatus = statusCode .ok →
        (putString ft c 0 str s).rval = 0 ∧ k = str.length) := by
  obtain ⟨k, hk, drew, stop⟩ := putString_stops ft c 0 str s
  have run := putsState_textRun hk drew
  rw [Nat.zero_add] at stop
  obtain ⟨h, refused, ends⟩ | ⟨all, ends⟩ := stop <;> rw [ends]
  · exact ⟨k, run.finish _ _ _, rfl, fun ok => absurd (statusCode_eq_ok_iff.mp ok) refused⟩
  · exact ⟨k, run.finish _ _ _, rfl, fun _ => ⟨rfl, all⟩⟩

/-- `RAUX` counts a well-formed font's characters exactly: each takes a column, and the cursor has not wrapped. -/
theorem State.TextRun.toNat_count (h : s.TextRun u ft k) (hv : fontValid ft) : (BitVec.ofNat 16 k).toNat = k := by
  have wide : k * 1 ≤ k * ft.fw := Nat.mul_le_mul_left k hv.1
  have unwrapped := h.column hv
  have word : coord u.cx < 2 ^ 16 := u.cx.isLt
  exact coord_ofNat (by omega)

end Sys2Proof.Machine

open Sys2Proof Sys2Proof.Machine

/-- Settles O43: the run that PUTS leaves has the length in `RAUX`. -/
theorem putsAdvancesTheCursor : Obligations.PutsAdvancesTheCursor := by
  intro c f str s ft hf
  obtain ⟨k, run, count, ok⟩ := putString_textRun ft c str s
  refine ⟨_, exec_puts hf, ?_, run.frame, fun h => ?_, fun hv hy => ?_⟩
  · rw [count]
    exact run.cx
  · obtain ⟨rval, rfl⟩ := ok h
    exact ⟨rval, count⟩
  · rw [count, run.toNat_count hv]
    exact ⟨run.pixel hv hy, run.byte hv hy⟩

end

section
/-! SUPPORT. The transport as a source of answers (44_sync R211 to R215, 60_exceptions R266): which answers come next
decides what a list of frames offered does, and some answers always come next. -/

namespace Sys2Proof.Machine

/-- The transport's answers from `s` on begin with these (60_exceptions R266; log 5). -/
def State.Answers : State → List Bool → Prop
  | _, [] => True
  | s, b :: bs => nextAnswer s = b ∧ State.Answers (drawn s) bs

/-- `s` once the transport has given the answers `bs` and the events `evs` have been emitted. -/
def State.told (s : State) (bs : List Bool) (evs : List Event) : State :=
  { s with answers := s.answers.drop bs.length, draws := s.draws + bs.length, trace := s.trace ++ evs }

variable {s t : State} {as bs rest : List Bool} {o : Bool × Bool} {outs first pages : List (Bool × Bool)}

/-! ### Answers and events one after the other -/

@[simp] theorem told_nil (s : State) : s.told [] [] = s := by simp [State.told]

@[simp] theorem told_told (s : State) (as bs : List Bool) (es fs : List Event) :
    (s.told as es).told bs fs = s.told (as ++ bs) (es ++ fs) := by
  simp [State.told, Nat.add_assoc]

@[simp] theorem told_cfg (s : State) (bs : List Bool) (evs : List Event) : (s.told bs evs).cfg = s.cfg := rfl

theorem pageOf_told (s : State) (bs : List Bool) (evs : List Event) : (s.told bs evs).pageOf = s.pageOf := rfl

theorem fillBytes_told (s : State) (bs : List Bool) (evs : List Event) (v : Byte) :
    (s.told bs evs).fillBytes v = (s.fillBytes v).told bs evs := rfl

theorem setup_eq (s : State) : setup s = (nextAnswer s, s.told [nextAnswer s] [.setup (nextAnswer s)]) := by
  simp [setup, emit, drawn, State.told]

theorem delay_eq (ms : Nat) (s : State) : delay ms s = s.told [] [.delay ms] := by
  simp [delay, emit, State.told]

theorem probe_eq (s : State) : probe s = (nextAnswer s, s.told [nextAnswer s] [.probe (nextAnswer s)]) := by
  simp [probe, emit, drawn, State.told]

theorem transmit_eq (kind : FrameKind) (bytes : List Byte) (s : State) :
    transmit kind bytes s = (nextAnswer s, s.told [nextAnswer s] [.tx kind bytes (nextAnswer s)]) := by
  simp [transmit, emit, drawn, State.told]

/-! ### The answers to come -/

/-- What the answers to come depend on. -/
theorem answers_congr (ha : t.answers = s.answers) (hd : t.draws = s.draws) : t.Answers bs ↔ s.Answers bs := by
  induction bs generalizing s t with
  | nil => rfl
  | cons b bs ih =>
    have next : nextAnswer t = nextAnswer s := by rw [nextAnswer, nextAnswer, ha, hd]
    rw [State.Answers, State.Answers, next,
      ih (t := drawn t) (s := drawn s) (congrArg List.tail ha) (congrArg Nat.succ hd)]

theorem answers_cons (evs : List Event) : s.Answers (b :: bs) ↔ nextAnswer s = b ∧ (s.told [b] evs).Answers bs :=
  and_congr_right' (answers_congr (s := s.told [b] evs) (t := drawn s) List.drop_one.symm rfl)

theorem answers_append (evs : List Event) : s.Answers (as ++ bs) ↔ s.Answers as ∧ (s.told as evs).Answers bs := by
  induction as generalizing s with
  | nil => simp [State.Answers, answers_congr (s := s) (t := s.told [] evs) rfl rfl]
  | cons a as ih => rw [List.cons_append, answers_cons [], ih, answers_cons [], told_told, and_assoc]; rfl

theorem answers_fillBytes (v : Byte) : (s.fillBytes v).Answers bs ↔ s.Answers bs := answers_congr rfl rfl

/-- Listed answers come in their order (log 5). -/
theorem answers_of_listed (h : s.answers = bs ++ rest) : s.Answers bs := by
  induction bs generalizing s with
  | nil => trivial
  | cons b bs ih => exact ⟨by simp [nextAnswer, h], ih (by simp [h])⟩

/-- Whatever the transport does, it spells an outcome for each of `n` frames (60_exceptions R266). -/
theorem exists_outcomes (n : Nat) (s : State) : ∃ outs, outs.length = n ∧ s.Answers (answersOf outs) := by
  induction n generalizing s with
  | zero => exact ⟨[], rfl, trivial⟩
  | succ n ih =>
    cases h : nextAnswer s with
    | false =>
      obtain ⟨outs, hl, ha⟩ := ih (drawn s)
      exact ⟨(false, false) :: outs, by simp [hl], h, ha⟩
    | true =>
      obtain ⟨outs, hl, ha⟩ := ih (drawn (drawn s))
      exact ⟨(true, nextAnswer (drawn s)) :: outs, by simp [hl], h, rfl, ha⟩

/-! ### Outcomes of lists of frames -/

theorem answersOf_append (outs outs' : List (Bool × Bool)) :
    answersOf (outs ++ outs') = answersOf outs ++ answersOf outs' := List.flatMap_append

theorem answersOf_cons (o : Bool × Bool) (outs : List (Bool × Bool)) :
    answersOf (o :: outs) = answersOf [o] ++ answersOf outs := answersOf_append [o] outs

theorem drops_append (outs outs' : List (Bool × Bool)) : drops (outs ++ outs') = drops outs + drops outs' :=
  List.countP_append

theorem drops_cons (o : Bool × Bool) (outs : List (Bool × Bool)) :
    drops (o :: outs) = (if delivered o then 0 else 1) + drops outs := by
  rw [drops, drops, List.countP_cons, Nat.add_comm]
  cases delivered o <;> rfl

theorem dropCount_append (es fs : List Event) : dropCount (es ++ fs) = dropCount es + dropCount fs :=
  List.countP_append

theorem offered_cons (w : WireFrame) (ws : List WireFrame) (o : Bool × Bool) (outs : List (Bool × Bool)) :
    offered (w :: ws) (o :: outs) = frameEvents w o.1 o.2 ++ offered ws outs := rfl

theorem offered_append {vs ws : List WireFrame} (h : vs.length = first.length) :
    offered (vs ++ ws) (first ++ pages) = offered vs first ++ offered ws pages := by
  rw [offered, List.zipWith_append h, List.flatten_append, offered, offered]

/-- The events of frames offered tell how many were dropped (44_sync R224). -/
theorem dropCount_offered {ws : List WireFrame} (h : outs.length = ws.length) :
    dropCount (offered ws outs) = drops outs := by
  induction ws generalizing outs with
  | nil => rw [List.eq_nil_of_length_eq_zero h]; rfl
  | cons w ws ih =>
    obtain ⟨o, outs, rfl⟩ := List.exists_cons_of_length_eq_add_one h
    rw [offered_cons, dropCount_append, dropCount_frameEvents, ih (Nat.succ.inj h), drops_cons, delivered]

/-- Each frame offered emits an event for each answer it draws (44_sync R215). -/
theorem length_offered {ws : List WireFrame} (h : outs.length = ws.length) :
    (offered ws outs).length = (answersOf outs).length := by
  induction ws generalizing outs with
  | nil => rw [List.eq_nil_of_length_eq_zero h]; rfl
  | cons w ws ih =>
    obtain ⟨o, outs, rfl⟩ := List.exists_cons_of_length_eq_add_one h
    rw [offered_cons, answersOf_cons, List.length_append, List.length_append, ih (Nat.succ.inj h)]
    obtain ⟨r, t⟩ := o
    cases r <;> rfl

/-! ### The framer -/

/-- What SendFrame does under the answers to come (44_sync R211). -/
theorem sendFrame_eq (p : Payload) (h : s.Answers (answersOf [o])) :
    sendFrame p s = (delivered o, s.told (answersOf [o]) (frameEvents (wireFrame p) o.1 o.2)) := by
  obtain ⟨ready, ok⟩ := o
  cases ready with
  | false =>
    have probed : nextAnswer s = false := h.1
    simp [sendFrame, probe_eq, probed, delivered, answersOf, frameEvents]
  | true =>
    have probed : nextAnswer s = true := h.1
    have sent : nextAnswer (s.told [true] [.probe true]) = ok := ((answers_cons _).mp h).2.1
    simp [sendFrame, probe_eq, transmit_eq, probed, sent, delivered, answersOf, frameEvents, wireFrame]

/-- What offering a list of frames does under the answers to come (44_sync R211, R214). -/
theorem sendAll_eq {ps : List Payload} (hl : outs.length = ps.length) (h : s.Answers (answersOf outs)) :
    sendAll ps s = (drops outs, s.told (answersOf outs) (offered (ps.map wireFrame) outs)) := by
  induction ps generalizing s outs with
  | nil =>
    rw [List.eq_nil_of_length_eq_zero hl]
    exact congrArg _ (told_nil s).symm
  | cons p ps ih =>
    obtain ⟨o, outs, rfl⟩ := List.exists_cons_of_length_eq_add_one hl
    rw [answersOf_cons] at h ⊢
    obtain ⟨head, tail⟩ := (answers_append (frameEvents (wireFrame p) o.1 o.2)).mp h
    simp only [sendAll, sendFrame_eq p head, ih (Nat.succ.inj hl) tail, told_told, List.map_cons, offered_cons,
      drops_cons]

/-! ### The page sequencer -/

/-- The page mask of pages in order when their frames have these outcomes, four a page (44_sync R214). -/
def pagesMask : List Nat → List (Bool × Bool) → Byte
  | [], _ => 0
  | p :: ps, outs => maskBit p (drops (outs.take 4)) ||| pagesMask ps (outs.drop 4)

/-- What offering pages in order does under the answers to come (44_sync R214). -/
theorem syncPages_eq {ps : List Nat} (hl : outs.length = 4 * ps.length) (h : s.Answers (answersOf outs)) :
    syncPages ps s = (drops outs, pagesMask ps outs,
      s.told (answersOf outs) (offered ((ps.flatMap (pageFrames s)).map wireFrame) outs)) := by
  induction ps generalizing s outs with
  | nil =>
    rw [List.eq_nil_of_length_eq_zero hl]
    exact congrArg (fun u => (0, 0, u)) (told_nil s).symm
  | cons p ps ih =>
    have four : (outs.take 4).length = 4 := by simp [hl, Nat.mul_succ]
    have others : (outs.drop 4).length = 4 * ps.length := by simp_all [Nat.mul_succ]
    rw [← List.take_append_drop 4 outs, answersOf_append] at h
    obtain ⟨head, tail⟩ := (answers_append (offered ((pageFrames s p).map wireFrame) (outs.take 4))).mp h
    have same : pageFrames (s.told (answersOf (outs.take 4)) (offered ((pageFrames s p).map wireFrame) (outs.take 4)))
        = pageFrames s := rfl
    have counted := drops_append (outs.take 4) (outs.drop 4)
    rw [List.take_append_drop] at counted
    simp only [syncPages, sendAll_eq (ps := pageFrames s p) four head, ih others tail, same, told_told, pagesMask]
    rw [← answersOf_append, ← counted, List.flatMap_cons, List.map_append,
      ← offered_append (vs := (pageFrames s p).map wireFrame) four.symm, List.take_append_drop]

theorem pageDropped_zero (outs : List (Bool × Bool)) : pageDropped outs 0 = decide (drops (outs.take 4) ≠ 0) := by
  rw [pageDropped, drops, Nat.mul_zero, List.drop_zero, Bool.eq_iff_iff, decide_eq_true_iff, ← Nat.pos_iff_ne_zero,
    List.countP_pos_iff, List.any_eq_true]

theorem pageDropped_succ (outs : List (Bool × Bool)) (p : Nat) :
    pageDropped outs (p + 1) = pageDropped (outs.drop 4) p := by
  rw [pageDropped, pageDropped, List.drop_drop, Nat.mul_succ, Nat.add_comm]

theorem getLsbD_maskBit (p d : Nat) {b : Nat} (hb : b < 8) :
    (maskBit p d).getLsbD b = (decide (b = p) && decide (d ≠ 0)) := by
  by_cases h : d = 0
  · simp [maskBit, h]
  · rw [maskBit, if_neg h, BitVec.getLsbD_shiftLeft, BitVec.getLsbD_one, decide_eq_true h, Bool.and_true, Bool.eq_iff_iff]
    simp only [Bool.and_eq_true, Bool.not_eq_true', decide_eq_true_eq, decide_eq_false_iff_not]
    omega

theorem getLsbD_pagesMask (n : Nat) {p b : Nat} (hb : b < 8) (outs : List (Bool × Bool)) :
    (pagesMask (List.range' p n) outs).getLsbD b
      = (decide (p ≤ b ∧ b < p + n) && pageDropped outs (b - p)) := by
  induction n generalizing p outs with
  | zero =>
    have outside : ¬ (p ≤ b ∧ b < p + 0) := by omega
    rw [decide_eq_false outside]
    exact BitVec.getLsbD_zero
  | succ n ih =>
    rw [List.range'_succ, pagesMask, BitVec.getLsbD_or, getLsbD_maskBit _ _ hb, ih]
    rcases Nat.lt_trichotomy b p with h | rfl | h
    · have below : b ≠ p ∧ ¬ p + 1 ≤ b ∧ ¬ p ≤ b := by omega
      simp [below]
    · simp [pageDropped_zero]
    · obtain ⟨k, rfl⟩ := Nat.exists_eq_add_of_lt h
      have later : p + k + 1 - p = k + 1 := by omega
      have above : p + k + 1 ≠ p ∧ p ≤ p + k + 1 := by omega
      have same : p + k + 1 < p + 1 + n ↔ p + k + 1 < p + (n + 1) := by omega
      simp [later, above, same, pageDropped_succ]

/-- The mask of SyncFrames says of each page whether a frame of it was dropped (44_sync R214). -/
theorem getLsbD_pagesMask_range {b : Nat} (hb : b < 8) (outs : List (Bool × Bool)) :
    (pagesMask (List.range PAGES) outs).getLsbD b = pageDropped outs b := by
  rw [List.range_eq_range', getLsbD_pagesMask PAGES hb]
  simp [hb]

/-- `s` once the 32 frames of 44_sync R215 have been offered with these outcomes. -/
def State.synced (s : State) (outs : List (Bool × Bool)) : State :=
  s.told (answersOf outs) (offered (syncWireFrames s.cfg s.pageOf) outs)

/-- What SyncFrames does under the answers to come (44_sync R214, R215). -/
theorem syncFrames_eq (hl : outs.length = 32) (h : s.Answers (answersOf outs)) :
    syncFrames s = (drops outs, pagesMask (List.range PAGES) outs, s.synced outs) := by
  rw [State.synced, ← wireFrames_pages]
  exact syncPages_eq hl h

end Sys2Proof.Machine
end

section
/-! PROOF. SYNC and INIT (O46, O48 to O51), whose results follow from the outcomes of the frames they offer. -/

namespace Sys2Proof.Machine

variable {s : State} {outs first pages : List (Bool × Bool)}

/-! ### The results of a command that offered frames -/

@[simp] theorem finishFrames_trace (dropped : Nat) (mask : Word) (s : State) :
    (finishFrames dropped mask s).trace = s.trace := by
  unfold finishFrames; split <;> rfl

@[simp] theorem finishFrames_answers (dropped : Nat) (mask : Word) (s : State) :
    (finishFrames dropped mask s).answers = s.answers := by
  unfold finishFrames; split <;> rfl

@[simp] theorem finishFrames_ist (dropped : Nat) (mask : Word) (s : State) :
    (finishFrames dropped mask s).ist = s.ist := by
  unfold finishFrames; split <;> rfl

/-- Whatever the count, the result registers are written and nothing else (44_sync R221, R222). -/
theorem finishFrames_ends (dropped : Nat) (mask : Word) (s : State) :
    ∃ st v a, finishFrames dropped mask s = finish st v a s ∧
      if dropped = 0 then st = .ok ∧ v = 0 ∧ a = 0 else st = .xferDropped ∧ v = dropResult dropped ∧ a = mask := by
  obtain ⟨h, e⟩ | ⟨h, e⟩ := finishFrames_cases dropped mask s
  · exact ⟨_, _, _, e, by simp [h]⟩
  · exact ⟨_, _, _, e, by simp [h]⟩

/-- `RVAL` is the count, and the status tells whether it is 0 (44_sync R224). -/
theorem finishFrames_counts (dropped : Nat) (mask : Word) (s : State) :
    (dropped < 2 ^ 32 → (finishFrames dropped mask s).rval.toNat = dropped) ∧
      ((finishFrames dropped mask s).rstatus = statusCode .xferDropped ↔ dropped ≠ 0) := by
  obtain ⟨rfl, e⟩ | ⟨h, e⟩ := finishFrames_cases dropped mask s <;> rw [e]
  · exact ⟨fun _ => rfl, iff_of_false nofun (absurd rfl)⟩
  · exact ⟨dropResult_toNat, iff_of_true rfl h⟩

/-! ### The page mask as `RAUX` -/

/-- `RAUX` of SYNC when frames were dropped (44_sync R222). -/
def syncMask (outs : List (Bool × Bool)) : Word := (pagesMask (List.range PAGES) outs).setWidth 16

/-- `RAUX` of INIT when frames were dropped, bit 8 for the configuration frames (44_sync R221). -/
def initMask (first pages : List (Bool × Bool)) : Word := syncMask pages ||| (if drops first = 0 then 0 else 0x100)

theorem getLsbD_syncMask (outs : List (Bool × Bool)) {b : Nat} (hb : b < 16) :
    (syncMask outs).getLsbD b = (decide (b < 8) && pageDropped outs b) := by
  rw [syncMask, BitVec.getLsbD_setWidth, decide_eq_true hb, Bool.true_and]
  by_cases h : b < 8
  · rw [getLsbD_pagesMask_range h, decide_eq_true h, Bool.true_and]
  · rw [BitVec.getLsbD_of_ge _ _ (Nat.le_of_not_lt h), decide_eq_false h, Bool.false_and]

theorem getLsbD_initMask (first pages : List (Bool × Bool)) {b : Nat} (hb : b < 16) :
    (initMask first pages).getLsbD b =
      ((decide (b < 8) && pageDropped pages b) || (decide (b = 8) && decide (drops first ≠ 0))) := by
  have bit : ∀ b, b < 16 → (0x100 : Word).getLsbD b = decide (b = 8) := by decide
  rw [initMask, BitVec.getLsbD_or, getLsbD_syncMask pages hb]
  by_cases h : drops first = 0
  · simp [h]
  · rw [if_neg h, bit b hb, decide_eq_true h, Bool.and_true]

/-! ### SYNC and INIT -/

theorem exec_sync_uninitialized (h : s.ist = .uninitialized) : exec .sync s = .next (finish .notReady 0 0 s) := by
  simp only [exec, execSync, h, raise]

/-- SYNC in Ready under the answers to come (44_sync R222). -/
theorem exec_sync_ready (h : s.ist = .ready) (hl : outs.length = 32) (ha : s.Answers (answersOf outs)) :
    exec .sync s = .next (finishFrames (drops outs) (syncMask outs) (s.synced outs)) := by
  simp only [exec, execSync, h, syncReady, syncFrames_eq hl ha, syncMask]

theorem exec_init_failed (h : nextAnswer s = false) :
    exec .init s = .next (finish .initFailed 0 0 (s.told [false] [.setup false])) := by
  simp [exec, execInit, setup_eq, h, raise]

/-- The frames of a sync depend on the pages that exist. -/
theorem syncWireFrames_congr {c : Config} {page page' : Nat → List Byte} (h : ∀ p, p < 8 → page p = page' p) :
    syncWireFrames c page = syncWireFrames c page' :=
  List.flatMap_congr fun p hp => by rw [h p (List.mem_range.mp hp)]

/-- Every page of a filled framebuffer holds 128 bytes of the value. -/
theorem pageOf_fillBytes (s : State) (v : Byte) {p : Nat} (h : p < 8) :
    (s.fillBytes v).pageOf p = List.replicate 128 v := by
  have byte : ∀ k ∈ List.range 128, (s.fillBytes v).readByte (128 * p + k) = v := fun k hk =>
    readByte_fillBytes s v (by have := List.mem_range.mp hk; simp only [FB_BYTES]; omega)
  rw [State.pageOf, List.map_congr_left byte, List.map_const', List.length_range]

/-- The frames of a sync of a filled framebuffer. -/
theorem syncWireFrames_fillBytes (s : State) (v : Byte) :
    syncWireFrames s.cfg (s.fillBytes v).pageOf = syncWireFrames s.cfg fun _ => List.replicate 128 v :=
  syncWireFrames_congr fun _ => pageOf_fillBytes s v

theorem map_wireFrame_initFrames (c : Config) :
    (initFrames c).map wireFrame = c.initCmds.map fun b => (.cmd, [0x00, b]) := List.map_map

/-- The events of an INIT whose setup succeeds, in order (44_sync R221). -/
def initEvents (c : Config) (first pages : List (Bool × Bool)) : List Event :=
  [Event.setup true, Event.delay c.settleMs] ++ offered (c.initCmds.map fun b => (.cmd, [0x00, b])) first
    ++ offered (syncWireFrames c fun _ => List.replicate 128 0) pages

/-- `s` once an INIT whose setup succeeds has offered its frames with these outcomes (44_sync R221). -/
def State.initialized (s : State) (first pages : List (Bool × Bool)) : State :=
  { (s.fillBytes 0).told (true :: answersOf first ++ answersOf pages) (initEvents s.cfg first pages) with
    cx := 0, cy := 0, ist := .ready }

theorem initialized_answers (s : State) (first pages : List (Bool × Bool)) :
    (s.initialized first pages).answers = s.answers.drop (true :: answersOf first ++ answersOf pages).length := rfl

/-- INIT whose setup succeeds, under the answers to come (44_sync R221). -/
theorem exec_init_ready (h1 : first.length = s.cfg.initCmds.length) (h2 : pages.length = 32)
    (ha : s.Answers (true :: answersOf first ++ answersOf pages)) :
    exec .init s = .next (finishFrames (drops first + drops pages) (initMask first pages)
      (s.initialized first pages)) := by
  obtain ⟨started, firstNext⟩ :=
    (answers_cons [.setup true, .delay s.cfg.settleMs]).mp ((answers_append []).mp ha).1
  have pagesNext := ((answers_append ([Event.setup true, Event.delay s.cfg.settleMs]
    ++ offered (s.cfg.initCmds.map fun b => (.cmd, [0x00, b])) first)).mp ((answers_fillBytes 0).mpr ha)).2
  have configured := sendAll_eq (ps := initFrames s.cfg) (by rw [h1, initFrames, List.length_map]) firstNext
  have synced := syncFrames_eq h2 pagesNext
  rw [map_wireFrame_initFrames] at configured
  rw [State.synced, told_told, told_cfg, pageOf_told, fillBytes_cfg, syncWireFrames_fillBytes] at synced
  simp only [exec, execInit, setup_eq, started, if_true, initReady, delay_eq, told_told, told_cfg, List.append_nil,
    configured, fillBytes_told, List.cons_append, List.nil_append] at synced ⊢
  rw [synced]
  rfl

/-! ### Every answer positive -/

theorem answersOf_positive (n : Nat) : answersOf (List.replicate n (true, true)) = List.replicate (2 * n) true := by
  induction n with
  | zero => rfl
  | succ n ih => rw [List.replicate_succ, answersOf_cons, ih]; rfl

theorem drops_positive (n : Nat) : drops (List.replicate n (true, true)) = 0 := by
  simp [drops, List.countP_replicate, delivered]

theorem offered_positive (ws : List WireFrame) :
    offered ws (List.replicate ws.length (true, true)) = ws.flatMap fun w => [.probe true, .tx w.1 w.2 true] := by
  induction ws with
  | nil => rfl
  | cons w ws ih => rw [List.length_cons, List.replicate_succ, offered_cons, ih]; rfl

theorem length_syncWireFrames (c : Config) (page : Nat → List Byte) : (syncWireFrames c page).length = 32 := by
  simp [syncWireFrames]

/-- The 32 frames, all delivered (44_sync R215, R216). -/
theorem offered_syncWireFrames_positive (c : Config) (page : Nat → List Byte) :
    offered (syncWireFrames c page) (List.replicate 32 (true, true)) = (List.range 8).flatMap fun p =>
      [.probe true, .tx .cmd [0x00, c.pageCmd ||| BitVec.ofNat 8 p] true, .probe true, .tx .cmd [0x00, c.colLoCmd] true,
        .probe true, .tx .cmd [0x00, c.colHiCmd] true, .probe true, .tx .data (0x40 :: page p) true] := by
  rw [← length_syncWireFrames c page, offered_positive, syncWireFrames, List.flatMap_assoc]
  rfl

/-! ### The events of INIT -/

/-- A setup that succeeds is followed by outcomes for both lists of frames. -/
theorem exists_initOutcomes (h : nextAnswer s = true) :
    ∃ first pages, first.length = s.cfg.initCmds.length ∧ pages.length = 32 ∧
      s.Answers (true :: answersOf first ++ answersOf pages) := by
  obtain ⟨outs, hl, ha⟩ := exists_outcomes (s.cfg.initCmds.length + 32) (drawn s)
  refine ⟨outs.take s.cfg.initCmds.length, outs.drop s.cfg.initCmds.length, by simp [hl], by simp [hl], h, ?_⟩
  rwa [List.append_eq, ← answersOf_append, List.take_append_drop]

theorem dropCount_initEvents {c : Config} (h1 : first.length = c.initCmds.length) (h2 : pages.length = 32) :
    dropCount (initEvents c first pages) = drops first + drops pages := by
  rw [initEvents, dropCount_append, dropCount_append, dropCount_offered (by rw [h1, List.length_map]),
    dropCount_offered (by rw [h2, length_syncWireFrames]), Nat.add_right_cancel_iff]
  exact Nat.zero_add _

theorem length_initEvents {c : Config} (h1 : first.length = c.initCmds.length) (h2 : pages.length = 32) :
    (initEvents c first pages).length = 2 + (answersOf first).length + (answersOf pages).length := by
  rw [initEvents, List.length_append, List.length_append, length_offered (by rw [h1, List.length_map]),
    length_offered (by rw [h2, length_syncWireFrames])]
  rfl

end Sys2Proof.Machine

open Sys2Proof Sys2Proof.Machine

/-- Settles O46: the outcomes are those the next answers spell; SYNC's results are their drops and their pages. -/
theorem syncOffersEveryFrame : Obligations.SyncOffersEveryFrame := by
  intro s
  cases h : s.ist with
  | uninitialized =>
    exact ⟨_, exec_sync_uninitialized h, fun _ => rfl, rfl, rfl, rfl, h, rfl, rfl, rfl, rfl, ⟨rfl, rfl, rfl⟩, rfl, rfl,
      rfl⟩
  | ready =>
    obtain ⟨outs, hl, ha⟩ := exists_outcomes 32 s
    obtain ⟨st, v, a, ends, results⟩ := finishFrames_ends (drops outs) (syncMask outs) (s.synced outs)
    refine ⟨_, (exec_sync_ready h hl ha).trans (congrArg _ ends), fun _ => rfl, rfl, rfl, rfl, h, rfl, rfl, rfl, rfl,
      outs, hl, rfl, ?_⟩
    split_ifs at results ⊢ <;> obtain ⟨rfl, rfl, rfl⟩ := results
    · exact ⟨rfl, rfl, rfl⟩
    · have few : drops outs < 2 ^ 32 := List.countP_le_length.trans_lt (by rw [hl]; decide)
      exact ⟨rfl, if_pos few, fun b => getLsbD_syncMask outs⟩

/-- Settles O49: setup fails at once, or the outcomes of both lists of frames are those the next answers spell. -/
theorem initRunsTheSequence : Obligations.InitRunsTheSequence := by
  intro s
  cases h : nextAnswer s with
  | false =>
    exact ⟨_, exec_init_failed h, rfl, rfl, rfl, rfl, rfl, ⟨rfl, rfl, rfl⟩, fun _ => rfl, rfl, rfl, rfl, rfl,
      List.drop_one, rfl⟩
  | true =>
    obtain ⟨first, pages, h1, h2, ha⟩ := exists_initOutcomes h
    obtain ⟨st, v, a, ends, results⟩ := finishFrames_ends (drops first + drops pages) (initMask first pages)
      (s.initialized first pages)
    refine ⟨_, (exec_init_ready h1 h2 ha).trans (congrArg _ ends), rfl, rfl, rfl, rfl, rfl, rfl, rfl, rfl,
      fun a => readByte_fillBytes s 0, first, pages, h1, h2, ?_, ?_⟩
    · simp [State.initialized, State.told, initEvents]
    split_ifs at results ⊢ <;> obtain ⟨rfl, rfl, rfl⟩ := results
    · exact ⟨rfl, rfl, rfl⟩
    · exact ⟨rfl, dropResult_toNat, fun b => getLsbD_initMask first pages⟩

/-- Settles O51: the drops of the events are the drops of the outcomes, which are the count in `RVAL`. -/
theorem dropsAreCountedExactly : Obligations.DropsAreCountedExactly := by
  intro s i hi
  obtain rfl | rfl : i = .sync ∨ i = .init := by simpa using hi
  · cases h : s.ist with
    | uninitialized =>
      exact ⟨_, [], exec_sync_uninitialized h, (List.append_nil _).symm, fun _ => rfl, iff_of_false nofun nofun⟩
    | ready =>
      obtain ⟨outs, hl, ha⟩ := exists_outcomes 32 s
      refine ⟨_, offered (syncWireFrames s.cfg s.pageOf) outs, exec_sync_ready h hl ha, finishFrames_trace _ _ _, ?_⟩
      rw [dropCount_offered (hl.trans (length_syncWireFrames _ _).symm)]
      exact finishFrames_counts _ _ _
  · cases h : nextAnswer s with
    | false => exact ⟨_, [.setup false], exec_init_failed h, rfl, fun _ => rfl, iff_of_false nofun nofun⟩
    | true =>
      obtain ⟨first, pages, h1, h2, ha⟩ := exists_initOutcomes h
      refine ⟨_, initEvents s.cfg first pages, exec_init_ready h1 h2 ha, finishFrames_trace _ _ _, ?_⟩
      rw [dropCount_initEvents h1 h2]
      exact finishFrames_counts _ _ _

/-- Settles O48: the 64 answers are 32 outcomes of delivery, and every byte of each page was filled. -/
theorem fillThenSyncFrames : Obligations.FillThenSyncFrames := by
  intro s rest hr ha
  have filled : exec (.fill .set) s = .next (finish .ok 0 0 (s.fillBytes 0xFF)) := rfl
  have all : (finish .ok 0 0 (s.fillBytes 0xFF)).Answers (answersOf (List.replicate 32 (true, true))) := by
    rw [answersOf_positive]
    exact answers_of_listed ha
  refine ⟨_, _, filled, exec_sync_ready hr List.length_replicate all, ?_, ?_⟩
  · rw [drops_positive]
    exact ⟨rfl, rfl, rfl⟩
  · have pages := (syncWireFrames_fillBytes s 0xFF).symm
    rw [finishFrames_trace, ← offered_syncWireFrames_positive, pages]
    rfl

/-- Settles O50: the answers are setup's, 28 deliveries and 32 deliveries, each emitting two events. -/
theorem initAllPositive : Obligations.InitAllPositive := by
  intro s rest hn ha
  have first : (List.replicate 28 (true, true)).length = s.cfg.initCmds.length := List.length_replicate.trans hn.symm
  have pages : (List.replicate 32 (true, true)).length = 32 := List.length_replicate
  have delivery : true :: answersOf (List.replicate 28 (true, true)) ++ answersOf (List.replicate 32 (true, true))
      = List.replicate 121 true := by rw [answersOf_positive, answersOf_positive]; rfl
  have all := delivery ▸ answers_of_listed ha
  refine ⟨_, _, exec_init_ready first pages all, ?_, finishFrames_ist _ _ _, ?_, finishFrames_trace _ _ _, ?_⟩
  · rw [drops_positive, drops_positive]
    exact ⟨rfl, rfl, rfl⟩
  · rw [finishFrames_answers, initialized_answers, delivery, ha, List.drop_left]
  · rw [length_initEvents first pages, answersOf_positive, answersOf_positive, List.length_replicate,
      List.length_replicate]

end

section
/-! PROOF. RDSTATE (O52), and the commands that leave the state of the synchronization alone (O53, O54, O59): every command
but INIT, SYNC and RDSTATE commutes with a change of it, so it neither reads nor writes it. -/

namespace Sys2Proof.Machine

/-- What INIT and SYNC depend on besides the framebuffer: `IST`, the transport's answers and their count, and the trace
(44_sync R210, R217). -/
abbrev SyncPart := SyncState × List Bool × Nat × List Event

/-- `s` with another synchronization state. -/
def State.withSync (y : SyncPart) (s : State) : State :=
  { s with ist := y.1, answers := y.2.1, draws := y.2.2.1, trace := y.2.2.2 }

variable (y : SyncPart) (s : State)

/-! ### The moves that leave it as it was -/

theorem fontAt_withSync (f : BitVec 3) : fontAt (s.withSync y) f = fontAt s f := rfl

theorem finish_withSync (st : Status) (v : BitVec 32) (a : Word) :
    finish st v a (s.withSync y) = (finish st v a s).withSync y := rfl

theorem refuseFont_withSync (i : Instr) : refuseFont i (s.withSync y) = (refuseFont i s).withSync y := rfl

theorem plotPixel_withSync (c : Color) (p : Pixel) : plotPixel c p (s.withSync y) = (plotPixel c p s).withSync y := by
  unfold plotPixel
  split <;> rfl

theorem plotCells_withSync (ps : List (Pixel × Color)) : plotCells ps (s.withSync y) = (plotCells ps s).withSync y := by
  induction ps generalizing s with
  | nil => rfl
  | cons pc ps ih => rw [plotCells, plotCells, plotPixel_withSync, ih]

theorem drawGlyph_withSync (ft : Font) (ch : Byte) (c : Color) :
    drawGlyph ft ch c (s.withSync y) = (drawGlyph ft ch c s).withSync y :=
  congrArg (fun u : State => { u with cx := s.cx + BitVec.ofNat 16 ft.fw }) (plotCells_withSync y s _)

theorem putStatus_withSync (ft : Font) (ch : Byte) : putStatus ft ch (s.withSync y) = putStatus ft ch s := rfl

/-! ### The commands -/

theorem draw_withSync (c : Color) (ps : List Pixel) :
    finish .ok 0 0 (plotAll c ps (s.withSync y)) = (finish .ok 0 0 (plotAll c ps s)).withSync y := by
  rw [plotAll, plotCells_withSync, finish_withSync, plotAll]

theorem putcWith_withSync (ft : Font) (c : Color) (ch : Byte) :
    putcWith ft c ch (s.withSync y) = (putcWith ft c ch s).withSync y := by
  by_cases h : putStatus ft ch s = .ok
  · rw [putcWith_of_ok h, putcWith_of_ok ((putStatus_withSync y s ft ch).trans h), drawGlyph_withSync, finish_withSync]
  · rw [putcWith_of_ne_ok h, putcWith_of_ne_ok (s := s.withSync y) h, putStatus_withSync, finish_withSync]

theorem putString_withSync (ft : Font) (c : Color) (k : Nat) (str : List Byte) :
    putString ft c k str (s.withSync y) = (putString ft c k str s).withSync y := by
  induction str generalizing k s with
  | nil => rfl
  | cons ch str ih =>
    simp only [putString, putStatus_withSync, drawGlyph_withSync, finish_withSync, ih, apply_ite (State.withSync y)]

/-- Every command but INIT, SYNC and RDSTATE commutes with a change of the synchronization state (44_sync R210,
R218). -/
theorem exec_withSync {i : Instr} (hi : i ≠ .init) (hs : i ≠ .sync) (hr : i ≠ .rdstate) :
    ∃ t, exec i s = .next t ∧ exec i (s.withSync y) = .next (t.withSync y) := by
  cases i
  case init | sync | rdstate => contradiction
  case setpixel c x y' => exact ⟨_, rfl, congrArg Host.Outcome.next (draw_withSync y s c [(x, y')])⟩
  case line | rect | rectf | tri | trif | circ | circf =>
    exact ⟨_, rfl, congrArg Host.Outcome.next (draw_withSync y s _ _)⟩
  case putc =>
    refine ⟨_, rfl, ?_⟩
    rw [exec, execPutc, fontAt_withSync]
    split
    · exact congrArg Host.Outcome.next (putcWith_withSync y s _ _ _)
    · rfl
  case puts =>
    refine ⟨_, rfl, ?_⟩
    rw [exec, execPuts, fontAt_withSync]
    split
    · exact congrArg Host.Outcome.next (putString_withSync y s _ _ _ _)
    · rfl
  case measure | rdpix | rdbyte =>
    refine ⟨_, rfl, ?_⟩
    simp only [exec, execMeasure, fontAt_withSync, execRdpix, execRdbyte]
    split <;> rfl
  case fill | setinv | gotoxy => exact ⟨_, rfl, rfl⟩

/-- A command that commutes with every change of the synchronization state leaves it as it was: the change to its own
contents is none. RDSTATE, which reads `IST`, leaves it too (44_sync R225). -/
theorem exec_keeps_syncPart {i : Instr} {s t : State} (hi : i ≠ .init) (hs : i ≠ .sync) (h : exec i s = .next t) :
    t.ist = s.ist ∧ t.answers = s.answers ∧ t.draws = s.draws ∧ t.trace = s.trace := by
  by_cases hr : i = .rdstate
  · subst hr
    cases h
    exact ⟨rfl, rfl, rfl, rfl⟩
  · obtain ⟨u, -, again⟩ := exec_withSync (s.ist, s.answers, s.draws, s.trace) s hi hs hr
    obtain rfl : t = u.withSync _ := Host.Outcome.next.inj (h.symm.trans again)
    exact ⟨rfl, rfl, rfl, rfl⟩

/-! ### The fields of RDSTATE's results -/

theorem stateWord_cx (s : State) : (stateWord s).extractLsb' 0 16 = s.cx := by
  refine BitVec.eq_of_getLsbD_eq fun b hb => ?_
  have low : b < 32 := by omega
  simp [stateWord, hb, low]

theorem stateWord_cy (s : State) : (stateWord s).extractLsb' 16 16 = s.cy := by
  refine BitVec.eq_of_getLsbD_eq fun b hb => ?_
  have high : 16 + b < 32 := by omega
  simp [stateWord, hb, high]

theorem stateFlags_spec (s : State) : (stateFlags s).getLsbD 0 = s.inv ∧
    (stateFlags s).getLsbD 1 = decide (s.ist = .ready) ∧ (stateFlags s).extractLsb' 2 14 = 0 := by
  rw [stateFlags]
  cases s.inv <;> cases s.ist <;> exact ⟨rfl, rfl, rfl⟩

end Sys2Proof.Machine

open Sys2Proof Sys2Proof.Machine

/-- Settles O52: RDSTATE writes the result registers, whose fields are the cursor and the flags. -/
theorem rdstateReadsTheDisplayState : Obligations.RdstateReadsTheDisplayState := fun s =>
  ⟨finish .ok (stateWord s) (stateFlags s) s, rfl, finish_sameButResults _ _ _ s, rfl, stateWord_cx s, stateWord_cy s,
    stateFlags_spec s⟩

/-- Settles O53: the trace and the answers are part of what only INIT and SYNC write. -/
theorem onlyInitAndSyncEmit : Obligations.OnlyInitAndSyncEmit := by
  intro i s silent
  have hi : i ≠ .init := by rintro rfl; cases silent
  have hs : i ≠ .sync := by rintro rfl; cases silent
  obtain ⟨t, h⟩ := exec_next i s
  obtain ⟨-, answers, draws, trace⟩ := exec_keeps_syncPart hi hs h
  exact ⟨t, h, trace, answers, draws⟩

/-- Settles O54: INIT by its two outcomes; SYNC keeps `IST`, and every other command does. -/
theorem readyStateMachine : Obligations.ReadyStateMachine := by
  refine ⟨fun s => rfl, fun i s => ?_⟩
  by_cases hi : i = .init
  · subst hi
    obtain ⟨t, h, -, -, -, -, -, ends⟩ := initRunsTheSequence s
    refine ⟨t, h, ?_⟩
    split at ends
    · next ok =>
      obtain ⟨-, -, ist, -⟩ := ends
      rw [ist, if_pos ⟨rfl, ok⟩]
    · next failed =>
      obtain ⟨-, -, -, -, ist, -⟩ := ends
      rw [ist, if_neg fun h => failed h.2]
  · rw [if_neg fun h => hi h.1]
    by_cases hs : i = .sync
    · subst hs
      obtain ⟨t, h, -, -, -, -, ist, -⟩ := syncOffersEveryFrame s
      exact ⟨t, h, ist⟩
    · obtain ⟨t, h⟩ := exec_next i s
      exact ⟨t, h, (exec_keeps_syncPart hi hs h).1⟩

/-- Settles O59: the run with the other `IST` is the same run, and the answers and the trace are as they were in both. -/
theorem drawingNeedsNoInit : Obligations.DrawingNeedsNoInit := by
  intro i s st hi hs hr
  obtain ⟨t, h, other⟩ := exec_withSync (st, s.answers, s.draws, s.trace) s hi hs hr
  obtain ⟨-, answers, draws, trace⟩ := exec_keeps_syncPart hi hs h
  refine ⟨t, h, ?_⟩
  calc exec i { s with ist := st }
    _ = .next (t.withSync (st, s.answers, s.draws, s.trace)) := other
    _ = .next { t with ist := st } := by rw [← answers, ← draws, ← trace]; rfl

end

section
/-! PROOF. The transport's answers decide a SYNC (O47), and every command ends with a status listed for it (O57): the
status of each way a command can end, and then the commands. -/

namespace Sys2Proof.Machine

variable {i : Instr} {s : State}

@[simp] theorem finishFrames_draws (dropped : Nat) (mask : Word) (s : State) :
    (finishFrames dropped mask s).draws = s.draws := by
  unfold finishFrames; split <;> rfl

/-- `RSTATUS` holds the code of one of these statuses (60_exceptions R250). -/
def State.EndsIn (t : State) (sts : List Status) : Prop := ∃ st ∈ sts, t.rstatus = statusCode st

theorem finish_endsIn {st : Status} {sts : List Status} (h : st ∈ sts) (v : BitVec 32) (a : Word) (s : State) :
    (finish st v a s).EndsIn sts := ⟨st, h, rfl⟩

/-- Frames offered end OK or XFER_DROPPED, whatever else the command can end with (44_sync R221, R222). -/
theorem finishFrames_endsIn (sts : List Status) (dropped : Nat) (mask : Word) (s : State) :
    (finishFrames dropped mask s).EndsIn (.ok :: .xferDropped :: sts) := by
  obtain ⟨-, e⟩ | ⟨-, e⟩ := finishFrames_cases dropped mask s <;> rw [e]
  · exact finish_endsIn (.head _) _ _ s
  · exact finish_endsIn (.tail _ (.head _)) _ _ s

/-- What PutChar can answer (43_text R182). -/
theorem putStatus_mem (ft : Font) (ch : Byte) (s : State) :
    putStatus ft ch s ∈ [.ok, .textOverflow, .undefinedGlyph] := by
  rw [putStatus_eq]
  split_ifs <;> decide

/-- PUTS ends with the status of the character it stops at, or OK after the last (43_text R184). -/
theorem putString_endsIn (ft : Font) (c : Color) (n : Nat) (str : List Byte) (s : State) :
    (putString ft c n str s).EndsIn [.ok, .textOverflow, .undefinedGlyph] := by
  obtain ⟨k, -, -, ⟨h, -, e⟩ | ⟨-, e⟩⟩ := putString_stops ft c n str s <;> rw [e]
  · exact finish_endsIn (putStatus_mem _ _ _) _ _ _
  · exact finish_endsIn (.head _) _ _ _

/-- The font of a well-formed text command is found, so the decoder's refusal of it does not recur (30_encoding R83). -/
theorem exists_font_of_wellFormed (hi : i.wellFormed s.cfg.nfonts = true) (hf : i.opcode.hasFont = true) :
    ∃ ft, s.cfg.fonts[i.fontBits.toNat]? = some ft :=
  ⟨_, List.getElem?_eq_getElem ((wellFormed_iff.mp hi).1 hf)⟩

/-- Each way a well-formed command can end writes a status listed for the command (60_exceptions R250). -/
theorem exec_endsIn (hi : i.wellFormed s.cfg.nfonts = true) : ∃ t, exec i s = .next t ∧ t.EndsIn (statusesOf i) := by
  cases i
  case init =>
    refine ⟨_, rfl, ?_⟩
    split
    · exact finishFrames_endsIn [.initFailed] _ _ _
    · exact finish_endsIn (st := .initFailed) (by decide) _ _ _
  case sync =>
    refine ⟨_, rfl, ?_⟩
    split
    · exact finish_endsIn (st := .notReady) (by decide) _ _ _
    · exact finishFrames_endsIn [.notReady] _ _ _
  case putc c f ch =>
    obtain ⟨ft, hf⟩ := exists_font_of_wellFormed hi rfl
    exact ⟨_, exec_putc hf, finish_endsIn (putStatus_mem ft ch s) _ _ _⟩
  case puts c f str =>
    obtain ⟨ft, hf⟩ := exists_font_of_wellFormed hi rfl
    exact ⟨_, exec_puts hf, putString_endsIn ft c 0 str s⟩
  case measure f str =>
    obtain ⟨ft, hf⟩ := exists_font_of_wellFormed hi rfl
    exact ⟨_, exec_measure hf, finish_endsIn (.head _) _ _ s⟩
  case rdpix x y =>
    by_cases h : onPanel (x, y) = true
    · exact ⟨_, exec_rdpix_on h, finish_endsIn (.head _) _ _ s⟩
    · exact ⟨_, exec_rdpix_off h, finish_endsIn (.tail _ (.head _)) _ _ s⟩
  case rdbyte a =>
    by_cases h : a.toNat < 1024
    · exact ⟨_, exec_rdbyte_in h, finish_endsIn (.head _) _ _ s⟩
    · exact ⟨_, exec_rdbyte_out h, finish_endsIn (.tail _ (.head _)) _ _ s⟩
  case fill | setinv | setpixel | line | rect | rectf | tri | trif | circ | circf | gotoxy | rdstate =>
    exact ⟨_, rfl, finish_endsIn (.head _) _ _ _⟩

end Sys2Proof.Machine

open Sys2Proof Sys2Proof.Machine

/-- Settles O47: the listed answers are those of the 32 outcomes, and ending the command moves neither them nor the
trace. -/
theorem syncFollowsTheAnswers : Obligations.SyncFollowsTheAnswers := by
  intro s outs rest ready hl ha
  refine ⟨_, exec_sync_ready ready hl (answers_of_listed ha), finishFrames_trace _ _ _, ?_, finishFrames_draws _ _ _⟩
  calc (finishFrames (drops outs) (syncMask outs) (s.synced outs)).answers
    _ = s.answers.drop (answersOf outs).length := finishFrames_answers _ _ _
    _ = rest := by rw [ha, List.drop_left]

/-- Settles O57: every way a well-formed command can end writes a listed status. -/
theorem statusCodesByCommand : Obligations.StatusCodesByCommand := fun _ _ => exec_endsIn

end

section
/-! PROOF. The wait for the rest of a command (O6), the framebuffer after FILL and SETPIXEL under inversion (O18), that no
move writes a parameter (O55), and reset in any state (O10). -/

namespace Sys2Proof.Machine

variable {i : Instr} {s t : State}

/-! ### Waiting for the rest of a command (70_reset_and_hazards R284) -/

theorem step_of_incomplete (hw : s.cfg.wf = true) (hf : s.fetch = .incomplete) : step s = .next s.collect := by
  rw [step, if_pos hw, hf]

/-- Once every word sent is held, no word of the text is left to accept. -/
theorem drop_collect_index (s : State) : s.text.drop s.collect.index = [] := by
  refine List.drop_eq_nil_of_le ?_
  rw [collect_index, List.length_drop]
  omega

/-- Holding the words sent leaves the words at hand as they were. -/
@[simp] theorem collect_available (s : State) : s.collect.available = s.available := by
  rw [State.available, collect_text, drop_collect_index, List.append_nil, collect_held]

@[simp] theorem collect_fetch (s : State) : s.collect.fetch = s.fetch := by
  rw [State.fetch, collect_available, collect_cfg, State.fetch]

/-- With no word more, waiting again is the same wait (log 8). -/
@[simp] theorem collect_collect (s : State) : s.collect.collect = s.collect := by
  rw [State.collect, collect_available, collect_text, drop_collect_index]
  rfl

theorem collect_sameBytes (s : State) : s.SameBytes s.collect := readByte_congr (collect_fb s) (collect_cfg s)

/-- With the words of an incomplete command held the engine is in COLLECT (10_state R32). -/
theorem phase_eq_collect (hne : s.held ≠ []) (hd : decode s.cfg.nfonts s.held = .incomplete) : s.phase = .collect := by
  rw [State.phase]
  split
  · next none_held => exact absurd none_held hne
  · rw [hd]

theorem collect_phase (hf : s.fetch = .incomplete) :
    s.collect.phase = if s.available = [] then .idle else .collect := by
  split
  · next none_held => exact phase_eq_idle none_held
  · next some_held => exact phase_eq_collect some_held hf

/-! ### The parameters (70_reset_and_hazards R282) -/

theorem exec_keeps_cfg (h : exec i s = .next t) : t.cfg = s.cfg := by
  obtain ⟨st, v, a, u, rfl, keeps⟩ := exec_finishes h
  exact keeps.cfg

theorem step_keeps_cfg (h : step s = .next t) : t.cfg = s.cfg := by
  obtain ⟨-, ⟨-, rfl⟩ | ⟨why, w, n, -, rfl⟩ | ⟨i, n, -, run⟩⟩ := step_cases h
  · rfl
  · rfl
  · exact (exec_keeps_cfg run).trans (consume_cfg s n)

end Sys2Proof.Machine

open Sys2Proof Sys2Proof.Machine

/-- Settles O6: the step holds every word sent, which leaves the words at hand, and so a second wait, the same. -/
theorem incompleteCommandWaits : Obligations.IncompleteCommandWaits := by
  intro s hw hf
  have again : step s.collect = .next s.collect := calc
    step s.collect = .next s.collect.collect := step_of_incomplete hw ((collect_fetch s).trans hf)
    _ = .next s.collect := by rw [collect_collect]
  refine ⟨s.collect, step_of_incomplete hw hf, again, rfl, collect_phase hf, ?_⟩
  simpa using collect_sameBytes s

/-- Settles O18: FILL.CLEAR leaves every bit 0 and `INV` set, so SETPIXEL.CLEAR stores a 1 in its pixel alone. -/
theorem fillThenSetpixelUnderInversion : Obligations.FillThenSetpixelUnderInversion := by
  intro s x y inverted _
  obtain ⟨t, fill, -, ⟨-, -, inv, -⟩, bytes⟩ := fillWritesEveryByte .clear s
  obtain ⟨u, setpixel, -, -, pixels, -⟩ := setpixelPlotsOnePixel .clear x y t
  refine ⟨t, u, fill, setpixel, fun q hq => ?_⟩
  have cleared : t.pixel q = false := by simp [State.pixel, bytes _ (pixelAddr_lt hq)]
  rw [pixels q hq, cleared, inv, inverted]
  by_cases e : q = (x, y) <;> simp [e]

/-- Settles O55: a command keeps the parameters and ends by writing results; a step holds words, refuses or runs one. -/
theorem configurationNeverWritten : Obligations.ConfigurationNeverWritten := by
  refine ⟨fun i s => ?_, fun s t => step_keeps_cfg, fun s ws => ⟨hostReset_cfg s, hostWrite_cfg ws s⟩⟩
  obtain ⟨t, h⟩ := exec_next i s
  exact ⟨t, h, exec_keeps_cfg h⟩

/-- Settles O10: reset lists no cell and holds no word, so every byte reads as `FB_RESET` and the phase is IDLE. -/
theorem hostResetState : Obligations.HostResetState := fun s =>
  ⟨fun _ h => memRead_nil _ h, rfl, rfl, rfl, rfl, rfl, rfl, rfl, phase_eq_idle (hostReset_held s), rfl, rfl, rfl⟩

end
